-- ==== Sys2Proof/Word.lean ====
section
/-! DEFINITION. The words of the block: a byte of a transport, a 32-bit word, a binary32 pattern and a
64-bit command word (20_memory.md R45, R47; 30_encoding.md R55). Bit 0 is the least significant (00_scope.md R10). -/

namespace Sys2Proof

/-- One byte of a byte transport (20_memory.md R45). -/
abbrev Byte := BitVec 8

/-- A 32-bit word: `STATUS`, `RNG` (10_state.md R20, R26). -/
abbrev Word32 := BitVec 32

/-- A binary32 bit pattern (00_scope.md R7): sign in bit 31, exponent in bits 30..23, fraction in bits 22..0. -/
abbrev F32 := BitVec 32

/-- A command word of the command port (30_encoding.md R55). -/
abbrev CmdWord := BitVec 64

end Sys2Proof
end

