-- ==== Sys2Proof/Config.lean ====
section
/-! DEFINITION. What an implementation fixes and the spec leaves open: the OPEN parameters of 00_scope.md R8 and
92_eei_decisions.md D4, D8, D15, D22, and the free values of 10_state.md R31. Every constant here has no body, so no
proof can see its value: a theorem about the model holds for every choice of them. The guards that give `sinF`, `expF`
and NaN words the properties the spec states stand in Machine/Float.lean. -/

namespace Sys2Proof

/-- The operations that can return a NaN (00_scope.md R12, R14, R15, R16). -/
inductive FpOp where
  | add | sub | mul | div | round | sin | exp
  deriving DecidableEq, Repr

/-- The block's interface (20_memory.md R40), for `Config.platformMap`. -/
inductive PortName where
  | command | output | status | resetInput
  deriving DecidableEq, Repr

/-- The 32-bit registers that a reset leaves unspecified (10_state.md R31). -/
inductive ResetReg where
  | hpY | hpX | lpY | rng | env | sr | hpA | lpA
  deriving DecidableEq, Repr

/-- The values of `sinF` beyond the properties of R15 (D8, I1). Free: log entry 8. -/
opaque Config.sinRaw : F32 → F32

/-- The values of `expF` beyond the properties of R15 (D8, I2). Free: log entry 9. -/
opaque Config.expRaw : F32 → F32

/-- Sign and payload of a NaN that a primitive returns, by operation and operands (R16). Free: log entry 10. -/
opaque Config.nanBits : FpOp → F32 → F32 → BitVec 24

/-- Sign and payload of `NAN_OUT` (R16, D15, I3). Free: log entry 10. -/
opaque Config.nanOutBits : BitVec 24

/-- `OUT_DEPTH - 1` (R8, D4, I4). Free: log entry 11. -/
opaque Config.outDepthPred : Nat

/-- `OUT_DEPTH`, the depth of the output buffer in words, at least 1 (00_scope.md R8). -/
def Config.outDepth : Nat := Config.outDepthPred + 1

/-- `PLATFORM_MAP`: where the ports sit in a larger system (20_memory.md R48, D22, I5). No rule reads it: log entry 12. -/
opaque Config.platformMap : PortName → Nat

/-- The value an unspecified 32-bit register holds after the `n`-th reset event of a run (R31, I6). Free: log entry 2. -/
opaque Config.resetWord : ResetReg → Nat → BitVec 32

/-- The value `IDX` holds after the `n`-th reset event of a run (R31, I6). Free: log entry 2. -/
opaque Config.resetIdx : Nat → BitVec 64

end Sys2Proof
end

