-- ==== Sys2Proof/Machine/Float.lean ====
section
/-! DEFINITION. The binary32 primitives of 00_scope.md R12 to R17: each computes exactly and rounds once, to nearest
with ties to even; subnormals are kept; nothing traps and no flag is set.

Every finite binary32 value is an integer multiple of `2^-149`, so a finite pattern has a natural MAGNITUDE in units of
`2^-149` (`mag`) and an integer VALUE (`value`); the exact result of an operation is a fraction of naturals in the same
unit, which `roundBits` rounds. -/

namespace Sys2Proof.Machine

/-! ### The fields of a pattern (20_memory.md R45) -/

/-- Bit 31. -/
def signBit (a : F32) : Bool := a.getLsbD 31

/-- Bits 30..0: exponent and fraction as one number, which orders magnitudes. -/
def absBits (a : F32) : Nat := a.toNat % 2 ^ 31

/-- The exponent field all ones and the fraction zero. -/
def infBits : Nat := 0x7F800000

def isNaN (a : F32) : Bool := decide (infBits < absBits a)

def isInf (a : F32) : Bool := decide (absBits a = infBits)

/-- Neither NaN nor infinite. -/
def isFinite (a : F32) : Bool := decide (absBits a < infBits)

/-- `+0` or `-0`. -/
def isZero (a : F32) : Bool := decide (absBits a = 0)

/-- A pattern from its sign and its other 31 bits. -/
def pack (neg : Bool) (bits : Nat) : F32 := BitVec.ofNat 32 ((if neg then 2 ^ 31 else 0) + bits)

/-- The magnitude of the pattern's low 31 bits in units of `2^-149`, for a finite pattern. -/
def magOfBits (bits : Nat) : Nat :=
  if bits / 2 ^ 23 = 0 then bits else (bits % 2 ^ 23 + 2 ^ 23) * 2 ^ (bits / 2 ^ 23 - 1)

/-- The magnitude of a finite value in units of `2^-149`. -/
def mag (a : F32) : Nat := magOfBits (absBits a)

/-- The value of a finite pattern in units of `2^-149`; both zeros have value 0. -/
def value (a : F32) : Int := if signBit a then -(mag a : Int) else (mag a : Int)

/-- One, in units of `2^-149`. -/
def unit : Nat := 2 ^ 149

/-! ### Rounding (R12) -/

/-- `n / d` rounded to the nearest integer, ties to even. -/
def roundHalfEven (n d : Nat) : Nat :=
  if d < 2 * (n % d) ∨ (2 * (n % d) = d ∧ (n / d) % 2 = 1) then n / d + 1 else n / d

/-- How many low bits of `n / d` lie below the 24-bit significand. -/
def excess (n d : Nat) : Nat := Nat.log2 (n / d) - 23

/-- The low 31 bits of the binary32 magnitude nearest to `n / d` units, ties to even; infinity on overflow. A carry out
of the significand runs into the exponent field, as the layout has it. -/
def roundBits (n d : Nat) : Nat :=
  min (excess n d * 2 ^ 23 + roundHalfEven n (d * 2 ^ excess n d)) infBits

/-! ### NaN results (R16) -/

/-- A NaN pattern of a chosen sign and payload; every NaN pattern is one of these. -/
def nanPattern (bits : BitVec 24) : F32 := pack (bits.getLsbD 23) (infBits + max 1 (bits.toNat % 2 ^ 23))

/-- The NaN that an operation returns: its sign and payload are not defined (R16; log entry 10). -/
def nanResult (op : FpOp) (a b : F32) : F32 := nanPattern (Config.nanBits op a b)

/-- The parameter `NAN_OUT` (R8, R16): some NaN word. -/
def nanOut : F32 := nanPattern Config.nanOutBits

/-! ### Sign operations (R12) -/

/-- Clear the sign bit, NaN included. -/
def fabs (a : F32) : F32 := a &&& 0x7FFFFFFF#32

/-- Flip the sign bit, NaN included. -/
def fneg (a : F32) : F32 := a ^^^ 0x80000000#32

/-! ### Arithmetic (R12) -/

/-- An exact integer number of units, rounded; `zeroNeg` is the sign of a zero sum. -/
def roundInt (zeroNeg : Bool) (v : Int) : F32 :=
  pack (if v = 0 then zeroNeg else decide (v < 0)) (roundBits v.natAbs 1)

/-- The sum of `a` and `b`, as `fadd` and `fsub` both form it. Under ties-to-even a zero sum is `+0` unless both
operands are negative (then both are `-0`). -/
def sumAs (op : FpOp) (a b : F32) : F32 :=
  if isNaN a || isNaN b then nanResult op a b
  else if isInf a && isInf b && (signBit a != signBit b) then nanResult op a b
  else if isInf a then a
  else if isInf b then b
  else roundInt (signBit a && signBit b) (value a + value b)

def fadd (a b : F32) : F32 := sumAs .add a b

def fsub (a b : F32) : F32 := sumAs .sub a (fneg b)

def fmul (a b : F32) : F32 :=
  if isNaN a || isNaN b then nanResult .mul a b
  else if (isInf a && isZero b) || (isZero a && isInf b) then nanResult .mul a b
  else if isInf a || isInf b then pack (signBit a != signBit b) infBits
  else pack (signBit a != signBit b) (roundBits (mag a * mag b) unit)

def fdiv (a b : F32) : F32 :=
  if isNaN a || isNaN b then nanResult .div a b
  else if (isInf a && isInf b) || (isZero a && isZero b) then nanResult .div a b
  else if isInf a || isZero b then pack (signBit a != signBit b) infBits
  else if isInf b then pack (signBit a != signBit b) 0
  else pack (signBit a != signBit b) (roundBits (mag a * unit) (mag b))

/-! ### Comparisons (R12): ordered, false on NaN, `-0` equal to `+0` -/

/-- Sign and magnitude bits as one integer: it orders the values that are not NaN. -/
def ordKey (a : F32) : Int := if signBit a then -(absBits a : Int) else (absBits a : Int)

/-- Neither operand is a NaN. -/
def ordered (a b : F32) : Bool := !isNaN a && !isNaN b

def fgt (a b : F32) : Bool := ordered a b && decide (ordKey b < ordKey a)

def fge (a b : F32) : Bool := ordered a b && decide (ordKey b ≤ ordKey a)

def fle (a b : F32) : Bool := ordered a b && decide (ordKey a ≤ ordKey b)

def flt (a b : F32) : Bool := ordered a b && decide (ordKey a < ordKey b)

/-! ### Conversion and rounding to an integral value (R12, R14) -/

/-- The binary32 value nearest to an unsigned integer, ties to even. -/
def u2f (n : Nat) : F32 := pack false (roundBits (n * unit) 1)

/-- `floor(|a| + 1/2)` of a magnitude in units of `2^-149`, computed exactly (R14). -/
def roundHalfAway (m : Nat) : Nat := (m + unit / 2) / unit

/-- Round to the nearest integral value, a tie away from zero, the sign kept (R14). -/
def fround (a : F32) : F32 :=
  if isNaN a then nanResult .round a a
  else if isInf a then a
  else pack (signBit a) (roundBits (roundHalfAway (mag a) * unit) 1)

/-! ### The configuration functions (R15) -/

/-- `1.0`. -/
def oneBits : Nat := 0x3F800000

/-- `sinF`: any total function with the properties of R15 (D8). Where the spec states no value it is `Config.sinRaw`
kept inside `[-1, 1]`: every function that R15 allows is one of these (log entry 8). -/
def sinF (a : F32) : F32 :=
  if isNaN a || isInf a then nanResult .sin a a
  else if isZero a then a
  else if absBits (Config.sinRaw a) ≤ oneBits then Config.sinRaw a else 0#32

/-- `expF`: any total function with the properties of R15 (D8). Where the spec states no value it is `Config.expRaw`
kept inside `[+0, +Inf]`: every function that R15 allows is one of these (log entry 9). -/
def expF (a : F32) : F32 :=
  if isNaN a then nanResult .exp a a
  else if isInf a then (if signBit a then 0#32 else pack false infBits)
  else if isZero a then pack false oneBits
  else if (Config.expRaw a).toNat ≤ infBits then Config.expRaw a else 0#32

end Sys2Proof.Machine
end

