-- ==== Sys2Proof/Machine/Constants.lean ====
section
/-! DEFINITION. The numeric constants of 00_scope.md R9, each the hex column of that table; the product rows and
`-TWO_PI` are given there too. Integer parameters are those of 00_scope.md R8. -/

namespace Sys2Proof.Machine

/-- `+0.0`. -/
def posZero : F32 := 0x00000000#32
/-- `1.0`; also `ENV_TRIG`. -/
def one : F32 := 0x3F800000#32
/-- `-1.0`, the lower bound of the clamp (45_quantizer.md R141). -/
def negOne : F32 := 0xBF800000#32
/-- `2.0`, the factor of `draw` (44_artifacts.md R123). -/
def two : F32 := 0x40000000#32
/-- `8388608.0 = 2^23`, the divisor of `draw` (44_artifacts.md R123). -/
def twoPow23 : F32 := 0x4B000000#32

def TWO_PI : F32 := 0x40C90FDB#32
def F_WOW : F32 := 0x3EB33333#32
def A_WOW : F32 := 0x3D4CCCCD#32
def F_FLUT : F32 := 0x40900000#32
def A_FLUT : F32 := 0x3C75C28F#32
def DC_BIAS : F32 := 0x3CA3D70A#32
def FC_HP : F32 := 0x43D20000#32
def FC_LP : F32 := 0x451C4000#32
def G_SOFT : F32 := 0x40000000#32
def G_ASYM : F32 := 0x3FB33333#32
def K_NEG : F32 := 0x3F000000#32
def F_R1 : F32 := 0x41E00000#32
def A_R1 : F32 := 0x3B449BA6#32
def F_R2 : F32 := 0x425C0000#32
def A_R2 : F32 := 0x3AC49BA6#32
def A_HISS : F32 := 0x3B83126F#32
def T_CRK : F32 := 0x3F7EB852#32
def ENV_TRIG : F32 := 0x3F800000#32
def D_CRK : F32 := 0x3F70A3D7#32
def A_CRK : F32 := 0x3DA3D70A#32
def Q_SCALE : F32 := 0x44000000#32

/-- `W_WOW = TWO_PI*F_WOW`, rounded once (R9, 41_modulation.md R95). -/
def W_WOW : F32 := 0x400CBE4C#32
/-- `W_FLUT = TWO_PI*F_FLUT`, rounded once (R9, 41_modulation.md R95). -/
def W_FLUT : F32 := 0x41E231D6#32
/-- `W_R1 = TWO_PI*F_R1`, rounded once (R9). -/
def W_R1 : F32 := 0x432FEDE0#32
/-- `W_R2 = TWO_PI*F_R2`, rounded once (R9). -/
def W_R2 : F32 := 0x43ACC9A0#32

/-- The multiplier of the generator (R9, 44_artifacts.md R122). -/
def LCG_MUL : Word32 := 1664525#32
/-- The increment of the generator (R9, 44_artifacts.md R122). -/
def LCG_INC : Word32 := 1013904223#32
/-- The seed of the generator (R8, 44_artifacts.md R121). -/
def RNG_SEED : Word32 := 0x1234ABCD#32
/-- The last value of `IDX` (R8). -/
def IDX_MAX : BitVec 64 := 0xFFFFFFFFFFFFFFFF#64

end Sys2Proof.Machine
end

