-- ==== Sys2Proof/Machine/Flags.lean ====
section
/-! DEFINITION. The block has no status flags and no condition codes; these are its only internal conditions, none of
them held after the command that evaluates it (10_state.md R27). -/

namespace Sys2Proof.Machine

/-- The degenerate test at `BEGIN`: `sr <= 0`, ordered, so false for NaN (40_commands.md R71). -/
def isDegenerateRate (sr : F32) : Bool := fle sr posZero

/-- The sign selection of the asymmetric clip: true for both zeros, false for NaN (43_waveshaper.md R111). -/
def clipsPositive (v : F32) : Bool := fge v posZero

/-- The crackle trigger test, strictly greater (44_artifacts.md R126). -/
def triggersCrackle (r2 : F32) : Bool := fgt r2 T_CRK

/-- The lower clamp comparison (45_quantizer.md R141). -/
def belowRange (v : F32) : Bool := flt v negOne

/-- The upper clamp comparison (45_quantizer.md R141). -/
def aboveRange (v : F32) : Bool := fgt v one

end Sys2Proof.Machine
end

