-- ==== Sys2Proof/Machine/Artifacts.lean ====
section
/-! DEFINITION. Stage 4: rumble, the generator, hiss and crackle (44_artifacts.md R120 to R129). -/

namespace Sys2Proof.Machine

/-- `rumble(t)` (R120). -/
def rumble (t : F32) : F32 :=
  fadd (fmul (sinF (fmul W_R1 t)) A_R1) (fmul (sinF (fmul W_R2 t)) A_R2)

/-- `lcgNext(s) = u32(s * 1664525 + 1013904223)` (R122). The constants stand on the left, so that no defeq check counts
down from them. -/
def lcgNext (g : Word32) : Word32 := LCG_INC + LCG_MUL * g

/-- The value of a draw from the generator state it leaves (`draw()` advances first, then reads the new state):
`k = RNG >> 9`, then binary32 operations (R123). -/
def drawValue (g : Word32) : F32 :=
  fsub (fmul (fdiv (u2f (g.toNat / 2 ^ 9)) twoPow23) two) one

/-- `hissNoise()`: draw 1 of the sample, which leaves the generator at `g1`, scaled (R125). -/
def hissOf (g1 : Word32) : F32 := fmul (drawValue g1) A_HISS

/-- The crackle trigger: draw 2, which leaves the generator at `g2`; `ENV <- 1.0` when it exceeds `T_CRK` (R126). -/
def triggeredEnv (g2 : Word32) (env : F32) : F32 := if triggersCrackle (drawValue g2) then ENV_TRIG else env

/-- The crackle decay, whether or not the trigger test held (R127). -/
def decayedEnv (env : F32) : F32 := fmul env D_CRK

/-- The crackle term: draw 3, which leaves the generator at `g3`, scaled, times the decayed envelope (R128). -/
def crackleOf (g3 : Word32) (env : F32) : F32 := fmul env (fmul (drawValue g3) A_CRK)

/-- `combine(y2, rum, hiss, crk)` (R129). -/
def combine (y2 rum hiss crk : F32) : F32 := fadd (fadd (fadd y2 rum) hiss) crk

end Sys2Proof.Machine
end

