-- ==== Sys2Proof/Machine/Filters.lean ====
section
/-! DEFINITION. Stage 2: the one-pole high-pass into the one-pole low-pass filter (42_filters.md R100 to R103). -/

namespace Sys2Proof.Machine

/-- `coef(fc)` for the rate `sr` (R100). -/
def coef (fc sr : F32) : F32 := expF (fdiv (fmul (fneg TWO_PI) fc) sr)

/-- `hpStep(biased)` from the registers as they are before the step (R101): "Both reads happen before either write". The
step then writes `HP_X <- biased` and `HP_Y <- hp`. -/
def hpStep (hpA hpY hpX biased : F32) : F32 := fmul hpA (fsub (fadd hpY biased) hpX)

/-- `lpStep(hp)` from the registers as they are before the step (R102). The step then writes `LP_Y <- lp`. -/
def lpStep (lpA lpY hp : F32) : F32 := fadd (fmul (fsub one lpA) hp) (fmul lpA lpY)

end Sys2Proof.Machine
end

