-- ==== Sys2Proof/Machine/Modulation.lean ====
section
/-! DEFINITION. Stage 1 of the `SAMPLE` datapath: sample time and modulation (41_modulation.md R90 to R95). Pure. -/

namespace Sys2Proof.Machine

/-- `sampleTime(i)` (R90). -/
def sampleTime (i : BitVec 64) (sr : F32) : F32 := fdiv (u2f i.toNat) sr

/-- `wow(t)` (R91). -/
def wow (t : F32) : F32 := fmul (sinF (fmul W_WOW t)) A_WOW

/-- `flutter(t)` (R92). -/
def flutter (t : F32) : F32 := fmul (sinF (fmul W_FLUT t)) A_FLUT

/-- `am(t)` (R93). -/
def am (t : F32) : F32 := fadd (fadd one (wow t)) (flutter t)

/-- `modulate(x, t)` (R94). -/
def modulate (x t : F32) : F32 := fadd (fmul x (am t)) DC_BIAS

end Sys2Proof.Machine
end

