-- ==== Sys2Proof/Syntax.lean ====
section
/-! DEFINITION. The four commands of the command port, one constructor per row of spec/opcode_table.json
(00_scope.md R3, 30_encoding.md R57). -/

namespace Sys2Proof

/-- A command of "VCHAIN command set, version 1" (00_scope.md R2). -/
inductive Instr where
  /-- `NOP`, with its ignored operand: a non-zero one is a hint (R59, R75). -/
  | nop (opnd : BitVec 32)
  /-- `BEGIN sr`: the sample rate, a binary32 pattern taken unchanged (R56, R71). -/
  | beginCall (sr : F32)
  /-- `SAMPLE x`: the input sample, a binary32 pattern taken unchanged (R56, R72). -/
  | sample (x : F32)
  /-- `END`: no operand (R74). -/
  | endCall
  deriving DecidableEq, Repr

end Sys2Proof
end

