-- ==== Sys2Proof/WellFormed.lean ====
section
/-! DEFINITION. Well-formed command words and commands (30_encoding.md R55, R57). The checks are on the word: every one
of the 2^32 operand patterns of `BEGIN`, `SAMPLE` and `NOP` is legal (R56, R59), and `END` has no operand, so no
`Instr` is ill-formed. -/

namespace Sys2Proof

/-- `RSV`, bits 63..40 (R55). -/
def CmdWord.rsv (w : CmdWord) : BitVec 24 := w.extractLsb' 40 24

/-- `OPC`, bits 39..32 (R55). -/
def CmdWord.opc (w : CmdWord) : BitVec 8 := w.extractLsb' 32 8

/-- `OPND`, bits 31..0 (R55). -/
def CmdWord.opnd (w : CmdWord) : BitVec 32 := w.extractLsb' 0 32

/-- A defined opcode: `OPC <= 0x03` (R57). -/
def CmdWord.opcodeDefined (w : CmdWord) : Bool := decide (w.opc ≤ 0x03#8)

/-- `RSV` "must be 0 for every opcode" (R55). -/
def CmdWord.reservedClear (w : CmdWord) : Bool := w.rsv == 0#24

/-- `OPND` "must be 0 for `END`" (R55). -/
def CmdWord.endOperandClear (w : CmdWord) : Bool := w.opc != 0x03#8 || w.opnd == 0#32

/-- A command word that names a command (R57, R58). -/
def CmdWord.wellFormed (w : CmdWord) : Bool :=
  w.opcodeDefined && w.reservedClear && w.endOperandClear

/-- Every command is well-formed: R56 makes every operand pattern legal. -/
def Instr.wellFormed : Instr → Bool
  | .nop _ => true
  | .beginCall _ => true
  | .sample _ => true
  | .endCall => true

end Sys2Proof
end

