-- ==== Sys2Proof/Decode.lean ====
section
/-! DEFINITION. Decoding a command word (30_encoding.md R58), total on all 2^64 words, and the encoder from the same
tables (R55, R57). The verdict depends on the word alone (R60). Bytes go least significant first (20_memory.md R45). -/

namespace Sys2Proof

/-- The verdict on a command word (R58). -/
inductive Verdict where
  /-- `OPC > 0x03`: cause 1. -/
  | illegalOpcode
  /-- A defined opcode with `RSV != 0`, or `END` with `OPND != 0`: cause 2. -/
  | reservedBits
  /-- The command named by `OPC`. -/
  | command (i : Instr)
  deriving DecidableEq, Repr

/-- The command that a defined opcode names (R57). -/
def commandOf (opc : BitVec 8) (opnd : BitVec 32) : Instr :=
  if opc = 0x00#8 then .nop opnd
  else if opc = 0x01#8 then .beginCall opnd
  else if opc = 0x02#8 then .sample opnd
  else .endCall

/-- The verdict of R58, its tests in the order of the rule. -/
def decode (w : CmdWord) : Verdict :=
  if 0x03#8 < w.opc then .illegalOpcode
  else if w.rsv ≠ 0#24 then .reservedBits
  else if w.opc = 0x03#8 ∧ w.opnd ≠ 0#32 then .reservedBits
  else .command (commandOf w.opc w.opnd)

/-- A command word from its fields (R55). -/
def assembleWord (opc : BitVec 8) (opnd : BitVec 32) : CmdWord := (0#24 ++ opc) ++ opnd

/-- The word of a command (R57, R61). -/
def encode : Instr → CmdWord
  | .nop opnd => assembleWord 0x00#8 opnd
  | .beginCall sr => assembleWord 0x01#8 sr
  | .sample x => assembleWord 0x02#8 x
  | .endCall => assembleWord 0x03#8 0#32

/-- The eight bytes of a command word, `cmd[7:0]` first (R45). -/
def bytesOfCmd (w : CmdWord) : List Byte :=
  [w.extractLsb' 0 8, w.extractLsb' 8 8, w.extractLsb' 16 8, w.extractLsb' 24 8,
   w.extractLsb' 32 8, w.extractLsb' 40 8, w.extractLsb' 48 8, w.extractLsb' 56 8]

/-- A whole command word at the head of a byte stream, with the bytes after it; `none` while fewer than eight bytes
have arrived (R46: "a partial command word has delivered no command"). -/
def takeCmd : List Byte → Option (CmdWord × List Byte)
  | b0 :: b1 :: b2 :: b3 :: b4 :: b5 :: b6 :: b7 :: rest =>
    some (b7 ++ b6 ++ b5 ++ b4 ++ b3 ++ b2 ++ b1 ++ b0, rest)
  | _ => none

/-- The decoder on bytes: the verdict on the first command word and the bytes after it. -/
def decodeBytes (bs : List Byte) : Option (Verdict × List Byte) :=
  match takeCmd bs with
  | some (w, rest) => some (decode w, rest)
  | none => none

/-- The command word whose bits are `w`, the bits above `nbits` zero. -/
def tableWord (nbits w : Nat) : CmdWord := BitVec.ofNat 64 (w % 2 ^ nbits)

/-- What the decoder reads from a command word laid out as the transport carries it (R45). -/
def decodeTableWord (nbits w : Nat) : Option Instr :=
  match decodeBytes (bytesOfCmd (tableWord nbits w)) with
  | some (.command i, _) => some i
  | _ => none

end Sys2Proof
end

