-- ==== Sys2Proof/Machine/State.lean ====
section
/-! DEFINITION. The state of the block (10_state.md R20 to R31), the ports' contents (20_memory.md R40 to R47) and the
host's turns (60_exceptions.md R170), all plain data; the state after reset (70_reset_and_hazards.md R180). -/

namespace Sys2Proof.Machine

/-- `MODE` (R24). -/
inductive Mode where
  /-- 0: no call is open. -/
  | idle
  /-- 1: a call with a non-degenerate sample rate is open. -/
  | active
  /-- 2: a call with `sr <= 0` is open. -/
  | degenerate
  /-- 3: a protocol fault was recorded; every command is ignored until reset. -/
  | halted
  deriving DecidableEq, Repr

/-- The protocol faults (60_exceptions.md R151). They are causes that `CAUSE` records, not outcomes of a step. -/
inductive Cause where
  | illegalOpcode | reservedBits | sampleOutsideCall | endOutsideCall | beginInsideCall | indexOverflow
  deriving DecidableEq, Repr

/-- One step of the single total order of R50, with the host liberties of R170. The list of turns is the model's own
input: log entry 3. -/
inductive Turn where
  /-- The block's accept step (R41). -/
  | accept
  /-- The host offers a whole command word. -/
  | offer (w : CmdWord)
  /-- A byte transport delivers one byte of a command word (R45, R46). -/
  | offerByte (b : Byte)
  /-- The host reads the output port (R43). -/
  | readOut
  /-- The host reads `STATUS` (R26, R47). -/
  | readStatus
  /-- The host writes `STATUS`, which "has no effect and raises no fault" (R26). -/
  | writeStatus (v : Word32)
  /-- A reset event (R180), with the command word that arrives together with it, if any (R158). -/
  | reset (arriving : Option CmdWord)
  deriving DecidableEq, Repr

/-- The whole state. -/
structure State where
  /-- `HP_Y`, high-pass output memory (R20). -/
  hpY : F32
  /-- `HP_X`, high-pass input memory (R20). -/
  hpX : F32
  /-- `LP_Y`, low-pass output memory (R20). -/
  lpY : F32
  /-- `RNG`, generator state (R20, R121). -/
  rng : Word32
  /-- `ENV`, crackle envelope (R20). -/
  env : F32
  /-- `IDX`, the index of the next sample of the call (R21). -/
  idx : BitVec 64
  /-- `SR`, the sample rate of the call (R22). -/
  sr : F32
  /-- `HP_A`, the high-pass coefficient (R23). -/
  hpA : F32
  /-- `LP_A`, the low-pass coefficient (R23). -/
  lpA : F32
  /-- `MODE` (R24). -/
  mode : Mode
  /-- `CAUSE` (R25). -/
  cause : BitVec 8
  /-- `OUTQ`, head first (R28). -/
  outq : List Word32
  /-- The command words offered and not yet accepted, oldest first (R41, R42). -/
  port : List CmdWord
  /-- The bytes of a partly delivered command word, oldest first (R46, R180). -/
  rxBytes : List Byte
  /-- MODEL's own: the words the host has read from the output port, oldest first (R43, R174; log entry 23). -/
  hostWords : List Word32
  /-- MODEL's own: the `STATUS` values the host has read, oldest first (R43; log entry 23). -/
  hostStatus : List Word32
  /-- MODEL's own: the turns still to be taken, the next one first (log entry 3). -/
  turns : List Turn
  /-- MODEL's own: reset events so far in the run, the argument of their free values (log entry 2). -/
  resets : Nat
  deriving DecidableEq, Repr

/-- Why the machine stops. It has NO constructor: no rule of the spec stops the block. A protocol fault is a next state
with `MODE = HALTED` (R152, R160), and a hold or an empty port is a step that changes nothing (R42, R168; log entries 4
and 5). That is neither safe nor unsafe: the model never stops where the block goes on. -/
inductive Fault
  deriving DecidableEq, Repr

/-- Why an instruction has no meaning. -/
inductive Refusal where
  /-- Raised by an arm of `exec` for an instruction without a meaning; no arm raises it in this model. Safe. -/
  | notModelled (mnemonic : String)
  deriving DecidableEq, Repr

/-- The block right after reset (R180, R182): `MODE` IDLE, `CAUSE` 0, `OUTQ` empty, nothing on the port. The
registers R31 leaves unspecified hold 0 (DESIGN CHOICE, unsafe: log entry 1); the model's own fields are empty. -/
def State.reset : State where
  hpY := 0#32
  hpX := 0#32
  lpY := 0#32
  rng := 0#32
  env := 0#32
  idx := 0#64
  sr := 0#32
  hpA := 0#32
  lpA := 0#32
  mode := .idle
  cause := 0#8
  outq := []
  port := []
  rxBytes := []
  hostWords := []
  hostStatus := []
  turns := []
  resets := 0

end Sys2Proof.Machine
end

