-- ==== Sys2Proof/Machine/Operands.lean ====
section
/-! DEFINITION. The operand and result forms of the ports: what a command's operand names (30_encoding.md R56), the
fields of `STATUS` (10_state.md R24 to R26), the cause codes (60_exceptions.md R151), the word `emit` appends
(20_memory.md R44) and the byte order of a transport (R45). A command has no other operand form (40_commands.md R79). -/

namespace Sys2Proof.Machine

/-- The 2-bit code of `MODE` (R24). -/
def Mode.code : Mode → BitVec 2
  | .idle => 0#2
  | .active => 1#2
  | .degenerate => 2#2
  | .halted => 3#2

/-- The code of a protocol fault (R151). -/
def Cause.code : Cause → BitVec 8
  | .illegalOpcode => 1#8
  | .reservedBits => 2#8
  | .sampleOutsideCall => 3#8
  | .endOutsideCall => 4#8
  | .beginInsideCall => 5#8
  | .indexOverflow => 6#8

/-- `STATUS`, "derived" from `CAUSE` and `MODE`, reserved bits 0 (R26). -/
def State.status (s : State) : Word32 := ((0#16 ++ s.cause) ++ 0#6) ++ s.mode.code

/-- The sample rate that `BEGIN`'s operand names: the pattern unchanged (R56). -/
def sampleRateOperand (opnd : BitVec 32) : F32 := opnd

/-- The input sample that `SAMPLE`'s operand names: the pattern unchanged (R56). -/
def sampleOperand (opnd : BitVec 32) : F32 := opnd

/-- The word that `emit` appends for a value: a NaN becomes `NAN_OUT` (R44, 00_scope.md R16). -/
def outWord (v : F32) : Word32 := if isNaN v then nanOut else v

/-- The four bytes of an output word or of `STATUS`, bits [7:0] first (R45). -/
def bytesOfWord (w : Word32) : List Byte :=
  [w.extractLsb' 0 8, w.extractLsb' 8 8, w.extractLsb' 16 8, w.extractLsb' 24 8]

end Sys2Proof.Machine
end

