-- ==== Sys2Proof/Machine/Ops.lean ====
section
/-! DEFINITION. The named operations on the state: accepting a word (20_memory.md R41), raising a protocol fault
(60_exceptions.md R152), `emit` and the output read (20_memory.md R43, R44), reading `STATUS` (R47), delivering words
and bytes (R45, R46), and the reset event (70_reset_and_hazards.md R180), which is the only return from a fault
(60_exceptions.md R160). -/

namespace Sys2Proof.Machine

/-- The word at the head of the command port leaves it: it has been accepted (R41). -/
def State.accept (s : State) : State := { s with port := s.port.tail }

/-- `raise Fault(c)` (60_exceptions.md R152): `CAUSE` only if it is 0, `MODE` to HALTED, nothing else. -/
def State.raise (c : Cause) (s : State) : State :=
  { s with cause := if s.cause = 0#8 then c.code else s.cause, mode := .halted }

/-- A protocol fault taken: the fault is recorded and the faulting word has been accepted (R152, R159). This is the one
operation of taking an exception. -/
def State.takeFault (c : Cause) (s : State) : State := (s.raise c).accept

/-- `OUTQ` holds `OUT_DEPTH` words (60_exceptions.md R157 step 5, 20_memory.md R42). -/
def State.outFull (s : State) : Bool := decide (s.outq.length = Config.outDepth)

/-- `emit(v)` (20_memory.md R44): append the word of `v` at the tail of `OUTQ`. -/
def State.emit (v : F32) (s : State) : State := { s with outq := s.outq ++ [outWord v] }

/-- The end of a processed `SAMPLE`: `IDX <- IDX + 1` (10_state.md R21, 40_commands.md R72). -/
def State.nextIndex (s : State) : State := { s with idx := s.idx + 1#64 }

/-- A host read of the output port: the head word is removed and returned to the host; `none` while `OUTQ` is empty
(20_memory.md R43). -/
def State.readOutput (s : State) : Option State :=
  match s.outq with
  | [] => none
  | w :: rest => some { s with outq := rest, hostWords := s.hostWords ++ [w] }

/-- A host read of `STATUS`: no side effect on the block (10_state.md R26). -/
def State.readStatus (s : State) : State := { s with hostStatus := s.hostStatus ++ [s.status] }

/-- A host write of `STATUS`: no effect (10_state.md R26). -/
def State.writeStatus (_v : Word32) (s : State) : State := s

/-- A whole word offered: it waits behind the words already on the port (20_memory.md R41, R42). -/
def State.offer (w : CmdWord) (s : State) : State := { s with port := s.port ++ [w] }

/-- One byte of a command word delivered: the eighth completes the word (20_memory.md R45, R46). -/
def State.offerByte (b : Byte) (s : State) : State :=
  match takeCmd (s.rxBytes ++ [b]) with
  | some (w, rest) => { s with port := s.port ++ [w], rxBytes := rest }
  | none => { s with rxBytes := s.rxBytes ++ [b] }

/-- A reset event (70_reset_and_hazards.md R180): `MODE`, `CAUSE` and `OUTQ`; the unspecified registers take free values
(10_state.md R31; log entry 2). The words waiting on the port and a partly delivered one are gone
(60_exceptions.md R158; log entry 6), and so is the word that arrives with the reset. -/
def State.resetEvent (_arriving : Option CmdWord) (s : State) : State :=
  { s with
    mode := .idle
    cause := 0#8
    outq := []
    port := []
    rxBytes := []
    hpY := Config.resetWord .hpY s.resets
    hpX := Config.resetWord .hpX s.resets
    lpY := Config.resetWord .lpY s.resets
    rng := Config.resetWord .rng s.resets
    env := Config.resetWord .env s.resets
    idx := Config.resetIdx s.resets
    sr := Config.resetWord .sr s.resets
    hpA := Config.resetWord .hpA s.resets
    lpA := Config.resetWord .lpA s.resets
    resets := s.resets + 1 }

/-- The turn at the head of the schedule has been taken. -/
def State.dropTurn (s : State) : State := { s with turns := s.turns.tail }

end Sys2Proof.Machine
end

