-- ==== Sys2Proof/Machine/Quantizer.lean ====
section
/-! DEFINITION. Stages 5 and 6: the quantizer and the clamp (45_quantizer.md R140, R141). Pure. -/

namespace Sys2Proof.Machine

/-- `quantize(y)` (R140). -/
def quantize (y : F32) : F32 := fdiv (fround (fmul y Q_SCALE)) Q_SCALE

/-- `clampOut(v)` (R141): a NaN passes through. -/
def clampOut (v : F32) : F32 :=
  if isNaN v then v
  else if belowRange v then negOne
  else if aboveRange v then one
  else v

end Sys2Proof.Machine
end

