-- ==== Sys2Proof/Machine/Waveshaper.lean ====
section
/-! DEFINITION. Stage 3: the nonlinear waveshaper (43_waveshaper.md R110 to R113). Pure. -/

namespace Sys2Proof.Machine

/-- `softClip(v)` (R110). -/
def softClip (v : F32) : F32 := fdiv v (fadd one (fabs v))

/-- `asymClip(v)` (R111). -/
def asymClip (v : F32) : F32 :=
  if clipsPositive v then fdiv v (fadd one v) else fdiv v (fadd one (fmul K_NEG (fabs v)))

/-- `shape(lp)` (R112). -/
def shape (lp : F32) : F32 := asymClip (fmul (softClip (fmul lp G_SOFT)) G_ASYM)

end Sys2Proof.Machine
end

