-- ==== Sys2Proof/Machine/Commands.lean ====
section
/-! DEFINITION. The meanings of the four commands (40_commands.md R71, R72, R74, R75), each with its checks in the order
of 60_exceptions.md R157. A meaning ends with the word accepted; a held `SAMPLE` leaves the state, and the word on the
port, as they are (20_memory.md R42; log entry 4). -/

namespace Sys2Proof.Machine

/-- Opening a call: the writes of R71, in its order. -/
def State.openCall (sr : F32) (s : State) : State :=
  let s1 := { s with sr := sr, hpY := posZero, hpX := posZero, lpY := posZero, env := posZero,
                     rng := RNG_SEED, idx := 0#64 }
  if isDegenerateRate sr then { s1 with mode := .degenerate }
  else { s1 with hpA := coef FC_HP sr, lpA := coef FC_LP sr, mode := .active }

/-- Processing one sample: the datapath of R72, line by line. The three draws leave the generator at `g1`, `g2`, `g3`
(44_artifacts.md R124); every register is read as the sample found it, or as an earlier line of R72 computed it. -/
def State.processSample (x : F32) (s : State) : State :=
  let t := sampleTime s.idx s.sr
  let biased := modulate x t
  let hp := hpStep s.hpA s.hpY s.hpX biased
  let lp := lpStep s.lpA s.lpY hp
  let y2 := shape lp
  let rum := rumble t
  let g1 := lcgNext s.rng
  let hiss := hissOf g1
  let g2 := lcgNext g1
  let env := decayedEnv (triggeredEnv g2 s.env)
  let g3 := lcgNext g2
  let crk := crackleOf g3 env
  let y := combine y2 rum hiss crk
  let yq := quantize y
  let out := clampOut yq
  (State.emit out { s with hpX := biased, hpY := hp, lpY := lp, rng := g3, env := env }).nextIndex

/-- `NOP` (R75): no effect in any mode, ignored in HALTED, whatever the operand (R59). -/
def execNop (_opnd : BitVec 32) (s : State) : Host.Outcome State Fault Refusal :=
  .next s.accept

/-- `BEGIN sr` (R71). -/
def execBegin (opnd : BitVec 32) (s : State) : Host.Outcome State Fault Refusal :=
  match s.mode with
  | .halted => .next s.accept
  | .idle => .next (s.openCall (sampleRateOperand opnd)).accept
  | .active => .next (s.takeFault .beginInsideCall)
  | .degenerate => .next (s.takeFault .beginInsideCall)

/-- `SAMPLE x` (R72, R73): the index check comes before the hold (60_exceptions.md R157 steps 4 and 5). -/
def execSample (opnd : BitVec 32) (s : State) : Host.Outcome State Fault Refusal :=
  match s.mode with
  | .halted => .next s.accept
  | .idle => .next (s.takeFault .sampleOutsideCall)
  | .degenerate => .next s.accept
  | .active =>
    if s.idx = IDX_MAX then .next (s.takeFault .indexOverflow)
    else if s.outFull then .next s
    else .next (s.processSample (sampleOperand opnd)).accept

/-- `END` (R74): `MODE` only. -/
def execEnd (s : State) : Host.Outcome State Fault Refusal :=
  match s.mode with
  | .halted => .next s.accept
  | .idle => .next (s.takeFault .endOutsideCall)
  | .active => .next { s with mode := .idle }.accept
  | .degenerate => .next { s with mode := .idle }.accept

end Sys2Proof.Machine
end

