-- ==== Sys2Proof/Machine/Dispatch.lean ====
section
/-! DEFINITION. One arm per command (60_exceptions.md R157 step 6). -/

namespace Sys2Proof.Machine
open Sys2Proof

def exec (i : Instr) (s : State) : Host.Outcome State Fault Refusal :=
  match i with
  | .nop opnd => Sys2Proof.Machine.execNop opnd s
  | .beginCall sr => Sys2Proof.Machine.execBegin sr s
  | .sample x => Sys2Proof.Machine.execSample x s
  | .endCall => Sys2Proof.Machine.execEnd s

end Sys2Proof.Machine
end

