-- ==== Sys2Proof/Machine/Turns.lean ====
section
/-! DEFINITION. The block's accept step (20_memory.md R41, 60_exceptions.md R157) and the turn of a schedule
(20_memory.md R50, 60_exceptions.md R170). -/

namespace Sys2Proof.Machine

/-- A word whose verdict is a fault: ignored in HALTED, else the fault and no other effect (R157 steps 0 to 2, R58). -/
def State.rejectWord (c : Cause) (s : State) : State :=
  if s.mode = .halted then s.accept else s.takeFault c

/-- The word the block would accept next (R41). -/
def State.fetch (s : State) : Option CmdWord := s.port.head?

/-- One accept step: decode, checks and every state write of the command at the head of the port, atomically (R41). An
empty port leaves the block idle, its state kept (R168). -/
def acceptStep (s : State) : Host.Outcome State Fault Refusal :=
  match s.fetch with
  | none => .next s
  | some w =>
    match decode w with
    | .illegalOpcode => .next (s.rejectWord .illegalOpcode)
    | .reservedBits => .next (s.rejectWord .reservedBits)
    | .command i => exec i s

/-- The turn at the head of the schedule. A read of an empty `OUTQ` waits, its turn kept, while the block takes its
accept step (R43; log entry 14); with no turn left the block takes its accept step (R187; log entry 15). -/
def takeTurn (s : State) : Host.Outcome State Fault Refusal :=
  match s.turns with
  | [] => acceptStep s
  | .accept :: _ => acceptStep s.dropTurn
  | .offer w :: _ => .next (s.dropTurn.offer w)
  | .offerByte b :: _ => .next (s.dropTurn.offerByte b)
  | .readOut :: _ =>
    match s.readOutput with
    | some t => .next t.dropTurn
    | none => acceptStep s
  | .readStatus :: _ => .next s.dropTurn.readStatus
  | .writeStatus v :: _ => .next (s.dropTurn.writeStatus v)
  | .reset arriving :: _ => .next (s.dropTurn.resetEvent arriving)

/-- `s` with a word at the head of the command port and the block's accept step as the next turn. -/
def State.withWord (w : CmdWord) (s : State) : State :=
  { s with port := w :: s.port, turns := .accept :: s.turns }

end Sys2Proof.Machine
end

