-- ==== Sys2Proof/Machine/Step.lean ====
section
/-! DEFINITION. One step of the machine: one turn of its schedule (20_memory.md R50), and the placing of a command word
where the next step takes it (log entry 16). -/

namespace Sys2Proof.Machine

/-- One atomic step of the total order of R50. -/
def step (s : State) : Host.Outcome State Fault Refusal := takeTurn s

/-- `s` with the command word of bits `w` at the head of the command port and the accept step next in the schedule, so
that `step` accepts and runs exactly it. -/
def State.withFetchWord (s : State) (nbits w : Nat) : State := s.withWord (tableWord nbits w)

end Sys2Proof.Machine
end

