-- ==== Sys2Proof/Machine/Assembler.lean ====
section
/-! DEFINITION. The assembly syntax of a command stream (30_encoding.md R61) and its pseudo-commands (R62). The text is
a list of characters; what R61 leaves open of it is log entry 22. No step of the machine calls the assembler. -/

namespace Sys2Proof.Machine

/-- A line of assembly: the commands of R61 and the pseudo-commands of R62. -/
inductive AsmLine where
  | nop
  | nopHint (opnd : BitVec 32)
  | beginCall (sr : F32)
  | sample (x : F32)
  | endCall
  /-- `CALL <sr>, <x0>, ...` -/
  | call (sr : F32) (xs : List F32)
  /-- `PAD <n>` -/
  | pad (n : Nat)
  deriving DecidableEq, Repr

/-- The commands of a line (R61, R62). -/
def expandLine : AsmLine → List Instr
  | .nop => [.nop 0#32]
  | .nopHint opnd => [.nop opnd]
  | .beginCall sr => [.beginCall sr]
  | .sample x => [.sample x]
  | .endCall => [.endCall]
  | .call sr xs => .beginCall sr :: (xs.map .sample ++ [.endCall])
  | .pad n => List.replicate n (.nop 0#32)

/-- The command words of a stream of lines. -/
def assembleLines (ls : List AsmLine) : List CmdWord := (ls.flatMap expandLine).map encode

/-! ### Operands -/

/-- The binary32 value nearest to a decimal literal, ties to even (R61). -/
def decimalBits (neg : Bool) (digits : Nat) (fracDigits : Nat) : F32 :=
  pack neg (roundBits (digits * unit) (10 ^ fracDigits))

/-- The digit symbols, each at the index that is its value. -/
def digitSymbols : List Char :=
  ['0', '1', '2', '3', '4', '5', '6', '7', '8', '9', 'A', 'B', 'C', 'D', 'E', 'F']

/-- The value of a digit of a base up to 16, a letter in either case. -/
def digitValue (base : Nat) (c : Char) : Option Nat := (digitSymbols.take base).idxOf? c.toUpper

/-- A natural number in a base up to 16, after digits worth `acc`. -/
def parseDigits (base acc : Nat) : List Char → Option Nat
  | [] => some acc
  | c :: cs => (digitValue base c).bind fun d => parseDigits base (acc * base + d) cs

/-- A decimal literal without its sign: digits, then perhaps a point and more digits. -/
def parseDecimal (neg : Bool) (acc : Nat) : List Char → Option F32
  | [] => some (decimalBits neg acc 0)
  | '.' :: frac => (parseDigits 10 acc frac).map fun n => decimalBits neg n frac.length
  | c :: cs => (digitValue 10 c).bind fun d => parseDecimal neg (acc * 10 + d) cs

/-- A raw pattern `#0xHHHHHHHH`. -/
def parseRaw : List Char → Option (BitVec 32)
  | '#' :: '0' :: 'x' :: hex =>
    if hex.length = 8 then (parseDigits 16 0 hex).map (BitVec.ofNat 32) else none
  | _ => none

/-- An operand `<f>` of R61. -/
def parseOperand : List Char → Option F32
  | ['i', 'n', 'f'] => some (pack false infBits)
  | ['-', 'i', 'n', 'f'] => some (pack true infBits)
  | ['n', 'a', 'n'] => some 0x7FC00000#32
  | '#' :: cs => parseRaw ('#' :: cs)
  | '-' :: c :: cs => if (digitValue 10 c).isSome then parseDecimal true 0 (c :: cs) else none
  | c :: cs => if (digitValue 10 c).isSome then parseDecimal false 0 (c :: cs) else none
  | [] => none

/-! ### Lines -/

/-- One character put before the words of a line; blanks and commas part words. -/
def addChar (c : Char) (words : List (List Char)) : List (List Char) :=
  if c = ' ' ∨ c = '\t' ∨ c = ',' then [] :: words
  else
    match words with
    | [] => [[c]]
    | w :: ws => (c :: w) :: ws

/-- The words of a line, its comment dropped. -/
def wordsOf (line : List Char) : List (List Char) :=
  ((line.takeWhile (· ≠ ';')).foldr addChar [[]]).filter (· ≠ [])

/-- The operands of `CALL`. -/
def parseOperands : List (List Char) → Option (List F32)
  | [] => some []
  | w :: ws =>
    match parseOperand w, parseOperands ws with
    | some x, some xs => some (x :: xs)
    | _, _ => none

/-- A line of text: `some none` where it holds no command, `none` where it is not of the syntax. -/
def parseLine (line : List Char) : Option (Option AsmLine) :=
  match wordsOf line with
  | [] => some none
  | [['N', 'O', 'P']] => some (some .nop)
  | [['N', 'O', 'P'], w] => (parseRaw w).map (some ∘ .nopHint)
  | [['B', 'E', 'G', 'I', 'N'], w] => (parseOperand w).map (some ∘ .beginCall)
  | [['S', 'A', 'M', 'P', 'L', 'E'], w] => (parseOperand w).map (some ∘ .sample)
  | [['E', 'N', 'D']] => some (some .endCall)
  | ['C', 'A', 'L', 'L'] :: w :: ws =>
    match parseOperand w, parseOperands ws with
    | some sr, some xs => some (some (.call sr xs))
    | _, _ => none
  | [['P', 'A', 'D'], w] => (parseDigits 10 0 w).map (some ∘ .pad)
  | _ => none

end Sys2Proof.Machine
end

