-- ==== Sys2Proof/Machine/Instances.lean ====
section
/-! DEFINITION. Several instances of the block (60_exceptions.md R166): each has its own copy of every register and its
own ports, and shares nothing with any other, so a system is a list of states and a step is a step of one of them. -/

namespace Sys2Proof.Machine

/-- One step of instance `k`; a number that names no instance changes nothing. -/
def stepInstance (k : Nat) (sys : List State) : Host.Outcome (List State) Fault Refusal :=
  match sys[k]? with
  | none => .next sys
  | some s =>
    match step s with
    | .next t => .next (sys.set k t)
    | .fault r => .fault r
    | .refused r => .refused r

end Sys2Proof.Machine
end

