-- ==== Sys2Proof/Safety.lean ====
section
/-! DEFINITION. The terms in which claims about the block are stated: the check order of 60_exceptions.md R157 as a
function of the word, the end of a run (R174), the emitted sequence (20_memory.md R49), the invariants of the state
(10_state.md R24 to R28, R32; 44_artifacts.md R127; 45_quantizer.md R142), and what a call depends on
(40_commands.md R77). -/

namespace Sys2Proof.Safety
open Sys2Proof Sys2Proof.Machine

/-! ### Words by arithmetic on their 64 bits (30_encoding.md R55), apart from the decoder -/

/-- `w[39:32]`. -/
def opcField (w : CmdWord) : Nat := w.toNat / 2 ^ 32 % 256

/-- `w[63:40]`. -/
def rsvField (w : CmdWord) : Nat := w.toNat / 2 ^ 40

/-- `w[31:0]`. -/
def opndField (w : CmdWord) : Nat := w.toNat % 2 ^ 32

/-- Steps 1 to 4 of the check order of R157: the fault that a word offered in `s` raises, outside HALTED. -/
def checkOrder (s : State) (w : CmdWord) : Option Cause :=
  if 3 < opcField w then some .illegalOpcode
  else if rsvField w ≠ 0 ∨ (opcField w = 3 ∧ opndField w ≠ 0) then some .reservedBits
  else if opcField w = 2 ∧ s.mode = .idle then some .sampleOutsideCall
  else if opcField w = 3 ∧ s.mode = .idle then some .endOutsideCall
  else if opcField w = 1 ∧ s.mode ≠ .idle then some .beginInsideCall
  else if opcField w = 2 ∧ s.mode = .active ∧ s.idx.toNat = 2 ^ 64 - 1 then some .indexOverflow
  else none

/-- Step 5 of R157: a `SAMPLE` in an active call while `OUTQ` holds `OUT_DEPTH` words. -/
def holds (s : State) (w : CmdWord) : Prop :=
  opcField w = 2 ∧ s.mode = .active ∧ s.outq.length = Config.outDepth

/-- The next step of `s` is the block's accept step: no turn is left, or the next turn is the block's. -/
def blockTurn (s : State) : Prop := s.turns = [] ∨ s.turns.head? = some .accept

/-- The next step of `s` is a reset event (R180). -/
def resetTurn (s : State) : Prop := ∃ w, s.turns.head? = some (.reset w)

/-! ### The end of a run (60_exceptions.md R174) -/

/-- The words the block has emitted and the host has read or can still read, in order (20_memory.md R49). -/
def emitted (s : State) : List Word32 := s.hostWords ++ s.outq

/-- Nothing is left to do: every word of the stream has been accepted and the host has read every emitted word. -/
abbrev allDone (s : State) : Prop := s.turns = [] ∧ s.port = [] ∧ s.rxBytes = [] ∧ s.outq = []

/-- The run that began in `start` has ended in `s`. Of a run that a reset event interrupts R174's definition "DOES NOT
SAY" anything (I21: refuse): MODEL'S CHOICE, log entry 26, such a run has not ended, so it is neither clean nor faulted
and has no observation. -/
abbrev ended (start s : State) : Prop := s.resets = start.resets ∧ allDone s

/-- The run ended faulted. -/
abbrev faultedRun (start s : State) : Prop := ended start s ∧ s.mode = .halted

/-- The run ended clean. -/
abbrev cleanRun (start s : State) : Prop := ended start s ∧ s.mode ≠ .halted

/-- A step changes nothing although something is left to do: a word is held for ever, or the host waits for ever on an
empty `OUTQ` (R42, R43, R174). -/
abbrev stuck (s : State) : Prop := step s = .next s ∧ ¬ allDone s

/-- How many words each call of a stream emits (40_commands.md R76), a call still open at the stream's end counted last
(log entry 24). `none`: no call is open; `some (d, n)`: the open call has emitted `n` words, and is degenerate if `d`. -/
def wordsPerCall : Option (Bool × Nat) → List Instr → List Nat
  | none, [] => []
  | some (_, n), [] => [n]
  | _, .beginCall sr :: is => wordsPerCall (some (isDegenerateRate sr, 0)) is
  | call, .sample _ :: is => wordsPerCall (call.map fun (d, n) => (d, if d then n else n + 1)) is
  | call, .nop _ :: is => wordsPerCall call is
  | none, .endCall :: is => wordsPerCall none is
  | some (_, n), .endCall :: is => n :: wordsPerCall none is

/-- A sequence cut into pieces of given lengths; what is left over is one more piece, so that no word is lost. -/
def splitCounts : List Nat → List Word32 → List (List Word32)
  | [], [] => []
  | [], w :: ws => [w :: ws]
  | n :: ns, ws => ws.take n :: splitCounts ns (ws.drop n)

/-- The observation of the run on a command stream that began in `start`, if it ended clean in `s`: the words read
from the output port, split into calls at the `BEGIN` and `END` words (R174). A run begins in a state that a reset has
left (70_reset_and_hazards.md R181), whose `OUTQ` is empty. -/
def observation (start : State) (stream : List Instr) (s : State) : Option (List (List Word32)) :=
  if cleanRun start s then
    some (splitCounts (wordsPerCall none stream) (s.hostWords.drop start.hostWords.length))
  else none

/-! ### Invariants of the state -/

/-- `MODE` and `CAUSE` agree: a cause is recorded exactly in HALTED, and it is one of R151's codes (R24, R25). -/
def statusInv (s : State) : Prop := (s.cause = 0#8 ↔ s.mode ≠ .halted) ∧ s.cause.toNat ≤ 6

/-- The buffers' bounds: `OUTQ` at most `OUT_DEPTH` words (R28), a partial command word fewer than 8 bytes (R46). -/
def boundsInv (s : State) : Prop := s.outq.length ≤ Config.outDepth ∧ s.rxBytes.length < 8

/-- The crackle envelope in an active call is never negative, NaN or infinite, and at most 1.0 (44_artifacts.md R127):
a pattern from `+0` to `0x3F800000`. -/
def envInv (s : State) : Prop := s.mode = .active → s.env.toNat ≤ 0x3F800000

/-- The invariant of 10_state.md R32 in an active call: the generator advanced three times per sample, the coefficients
those of the call's rate, and the rate not degenerate. -/
def callInv (s : State) : Prop :=
  s.mode = .active →
    s.rng = lcgNext^[3 * s.idx.toNat] 0x1234ABCD#32 ∧
    s.hpA = coef FC_HP s.sr ∧ s.lpA = coef FC_LP s.sr ∧ fle s.sr posZero = false

/-- The value of a finite pattern is `n/512`: its units of `2^-149` times 512 are `n * 2^149`. -/
def isQuantum (w : Word32) (n : Int) : Prop := isFinite w = true ∧ value w * 512 = n * 2 ^ 149

/-- What a `SAMPLE` can emit (45_quantizer.md R142): `NAN_OUT`, or `n/512` with `n` in `[-465, 344]`. -/
def outputWord (w : Word32) : Prop := w = nanOut ∨ ∃ n : Int, -465 ≤ n ∧ n ≤ 344 ∧ isQuantum w n

/-- A NaN in a memory register of the filters (42_filters.md R103). -/
def poisoned (s : State) : Prop := isNaN s.hpY = true ∨ isNaN s.hpX = true ∨ isNaN s.lpY = true

/-! ### What the words of a call depend on (40_commands.md R77) -/

/-- Two states agree on the call: the same `MODE`, and in an active call the same value in every register that a
`SAMPLE` reads. Outside an active call the registers may hold anything. -/
def sameCall (s t : State) : Prop :=
  s.mode = t.mode ∧
    (s.mode = .active →
      s.hpY = t.hpY ∧ s.hpX = t.hpX ∧ s.lpY = t.lpY ∧ s.rng = t.rng ∧ s.env = t.env ∧ s.idx = t.idx ∧
      s.sr = t.sr ∧ s.hpA = t.hpA ∧ s.lpA = t.lpA)

/-- The words that the commands of a stream emit, the host having read every earlier word before each command, so that
none is held (40_commands.md R77). -/
def commandWords : List Instr → State → List Word32
  | [], _ => []
  | i :: is, s =>
    match exec i { s with outq := [] } with
    | .next t => t.outq ++ commandWords is t
    | .fault _ => []
    | .refused _ => []

/-- The command words that turns put on the command port, the bytes of a partial word being `bs` (20_memory.md R41,
R45, R46). -/
def arriving : List Byte → List Turn → List CmdWord
  | _, [] => []
  | bs, .offer w :: ts => w :: arriving bs ts
  | bs, .offerByte b :: ts =>
    match takeCmd (bs ++ [b]) with
    | some (w, rest) => w :: arriving rest ts
    | none => arriving (bs ++ [b]) ts
  | bs, _ :: ts => arriving bs ts

/-- The command words still to be accepted: those on the port, then those that the turns to come deliver. -/
def pendingWords (s : State) : List CmdWord := s.port ++ arriving s.rxBytes s.turns

/-- No reset event is to come, the words still to be accepted are commands, and the words emitted so far, followed by
those these commands emit, are `ws`: what the host reads when, and when it offers the words, has no part in `ws`
(40_commands.md R77). -/
def deliveryInv (ws : List Word32) (s : State) : Prop :=
  (∀ a, Turn.reset a ∉ s.turns) ∧
    ∃ is, pendingWords s = is.map encode ∧ emitted s ++ commandWords is s = ws

/-- The words of a call whose samples are `xs`, from the state `BEGIN` left: word `k` is the word R72 emits for `xs[k]`
from the state that words `0..k-1` left (40_commands.md R76). -/
def callOutputs : State → List F32 → List Word32
  | _, [] => []
  | s, x :: xs =>
    let t := State.processSample x { s with outq := [] }
    t.outq ++ callOutputs t xs

/-! ### Correct rounding (00_scope.md R12) -/

/-- How far the magnitude with low bits `bits` lies from `n / d` units, times `d`. -/
def distance (n d bits : Nat) : Nat := ((magOfBits bits * d : Int) - (n : Int)).natAbs

/-- `r` is the binary32 magnitude nearest to `n / d` units: infinite exactly from half a unit beyond the largest finite
magnitude on; else no finite magnitude is nearer, and on a tie the significand is even. -/
def nearest (n d : Nat) (r : F32) : Prop :=
  isNaN r = false ∧
    (isInf r = true ↔ (2 ^ 25 - 1) * 2 ^ 253 * d ≤ 2 * n) ∧
    (isFinite r = true → ∀ c, c < infBits →
      distance n d (absBits r) ≤ distance n d c ∧
        (distance n d c = distance n d (absBits r) → c ≠ absBits r → absBits r % 2 = 0))

/-! ### A host that makes one call and reads each word as it comes (60_exceptions.md R171) -/

/-- The commands of `CALL sr, xs` (30_encoding.md R62). -/
def callStream (sr : F32) (xs : List F32) : List Instr := .beginCall sr :: (xs.map .sample ++ [.endCall])

/-- The turns for one command: the host offers its word and the block accepts it. -/
def commandTurns (i : Instr) : List Turn := [.offer (encode i), .accept]

/-- The turns of `CALL sr, xs`, the host reading the output port after each `SAMPLE` unless the call is degenerate. -/
def callTurns (sr : F32) (xs : List F32) : List Turn :=
  commandTurns (.beginCall sr) ++
    (xs.flatMap fun x => commandTurns (.sample x) ++ (if isDegenerateRate sr then [] else [.readOut])) ++
    commandTurns .endCall

end Sys2Proof.Safety
end

