-- ==== Sys2Proof/Certificates/Slice0/Obligations.lean ====
section
/-! DEFINITION. The statements about the model, each from the rules of spec/ that its docstring cites. Constants are
written as the hexadecimal words of 00_scope.md R9. -/

open Sys2Proof Sys2Proof.Machine Sys2Proof.Safety

/-! ### Encoding and the byte transport -/

/-- 30_encoding.md section 5, every row of R63's table (marked there "derived: from rule R55, rule R57 and rule R61"):
the word of each command, its decoding, and the three illegal words. -/
def Obligations.EncodingExamples : Prop :=
  (∀ p ∈ ([(.nop 0#32, 0x0000000000000000#64),
      (.beginCall (decimalBits false 441000 1), 0x00000001472C4400#64),
      (.beginCall (decimalBits false 480000 1), 0x00000001473B8000#64),
      (.beginCall (pack false infBits), 0x000000017F800000#64),
      (.beginCall (decimalBits true 50 1), 0x00000001C0A00000#64),
      (.beginCall (decimalBits false 0 1), 0x0000000100000000#64),
      (.sample (decimalBits false 0 1), 0x0000000200000000#64),
      (.sample (decimalBits true 0 1), 0x0000000280000000#64),
      (.sample (decimalBits false 8 1), 0x000000023F4CCCCD#64),
      (.sample 0x7FC00000#32, 0x000000027FC00000#64),
      (.endCall, 0x0000000300000000#64)] : List (Instr × CmdWord)),
    encode p.1 = p.2 ∧ decode p.2 = .command p.1) ∧
  decode 0x0000000400000000#64 = .illegalOpcode ∧
  decode 0x0000000300000001#64 = .reservedBits ∧
  decode 0x0000010200000000#64 = .reservedBits

/-- 30_encoding.md R57, R58: the verdict on each of the 2^64 words, by arithmetic on its bits. -/
def Obligations.DecodeVerdictByFields : Prop :=
  ∀ w : CmdWord,
    (3 < opcField w → decode w = .illegalOpcode) ∧
    (opcField w ≤ 3 → rsvField w ≠ 0 ∨ (opcField w = 3 ∧ opndField w ≠ 0) → decode w = .reservedBits) ∧
    (opcField w = 0 → rsvField w = 0 → decode w = .command (.nop (BitVec.ofNat 32 (opndField w)))) ∧
    (opcField w = 1 → rsvField w = 0 → decode w = .command (.beginCall (BitVec.ofNat 32 (opndField w)))) ∧
    (opcField w = 2 → rsvField w = 0 → decode w = .command (.sample (BitVec.ofNat 32 (opndField w)))) ∧
    (opcField w = 3 → rsvField w = 0 → opndField w = 0 → decode w = .command .endCall)

/-- 30_encoding.md R57 and spec/opcode_table.json: a word decodes to a row's command exactly when it matches the row's
match and mask, and a word that matches no row has a fault for its verdict. -/
def Obligations.MatchMaskRowsDecode : Prop :=
  ∀ w : CmdWord,
    ((w &&& 0xFFFFFFFF00000000#64) = 0x0000000000000000#64 ↔ ∃ o, decode w = .command (.nop o)) ∧
    ((w &&& 0xFFFFFFFF00000000#64) = 0x0000000100000000#64 ↔ ∃ sr, decode w = .command (.beginCall sr)) ∧
    ((w &&& 0xFFFFFFFF00000000#64) = 0x0000000200000000#64 ↔ ∃ x, decode w = .command (.sample x)) ∧
    ((w &&& 0xFFFFFFFFFFFFFFFF#64) = 0x0000000300000000#64 ↔ decode w = .command .endCall) ∧
    ((decode w = .illegalOpcode ∨ decode w = .reservedBits) ↔
      (w &&& 0xFFFFFFFF00000000#64) ≠ 0x0000000000000000#64 ∧ (w &&& 0xFFFFFFFF00000000#64) ≠ 0x0000000100000000#64 ∧
      (w &&& 0xFFFFFFFF00000000#64) ≠ 0x0000000200000000#64 ∧ (w &&& 0xFFFFFFFFFFFFFFFF#64) ≠ 0x0000000300000000#64)

/-- 30_encoding.md R55, R56, R57: decoding and encoding are inverse, for every command, every operand and every word.
-/
def Obligations.DecodeEncodeInverse : Prop :=
  ∀ (w : CmdWord) (i : Instr), decode w = .command i ↔ w = encode i

/-- 20_memory.md R45, R46: byte `j` of a command word carries bits `8j+7..8j`; eight bytes carry the word; fewer carry
none. -/
def Obligations.BytesCarryTheWord : Prop :=
  (∀ (w : CmdWord) (rest : List Byte), takeCmd (bytesOfCmd w ++ rest) = some (w, rest)) ∧
  (∀ (w : CmdWord) (j : Nat), j < 8 →
    (bytesOfCmd w)[j]? = some (BitVec.ofNat 8 (w.toNat / 2 ^ (8 * j)))) ∧
  (∀ bs : List Byte, bs.length < 8 ↔ takeCmd bs = none)

/-- 20_memory.md R41, R42, R45, R46, R49: a whole word offered goes behind the words on the command port; eight byte
turns put their word there; after fewer, nothing has been delivered. Every other field keeps its value. That words and
bytes come as turns of a schedule, and share one port, is the model's choice (log entries 3, 7). -/
def Obligations.WordAndByteDelivery : Prop :=
  (∀ (s : State) (w : CmdWord) (ts : List Turn), s.turns = .offer w :: ts →
    step s = .next { s with turns := ts, port := s.port ++ [w] }) ∧
  (∀ (s : State) (w : CmdWord) (ts : List Turn), s.rxBytes = [] →
    Host.Core.run Sys2Proof.core 8 { s with turns := (bytesOfCmd w).map .offerByte ++ ts } =
      .next { s with port := s.port ++ [w], turns := ts } ∧
    ∀ n, n < 8 →
      Host.Core.run Sys2Proof.core n { s with turns := (bytesOfCmd w).map .offerByte ++ ts } =
        .next { s with
          rxBytes := (bytesOfCmd w).take n, turns := ((bytesOfCmd w).map Turn.offerByte).drop n ++ ts })

/-! ### The step -/

/-- A step runs the decoded command: in the block's turn, and while an output read waits on an empty `OUTQ`
(20_memory.md R41, R43), the word at the head of the command port is decoded and `exec` of it is the step. The turns
are the model's choice (log entries 3, 14, 15). -/
def Obligations.StepRunsTheDecodedCommand : Prop :=
  ∀ (s : State) (w : CmdWord) (rest : List CmdWord) (i : Instr), s.port = w :: rest → decode w = .command i →
    (s.turns = [] → step s = exec i s) ∧
    (∀ ts, s.turns = .accept :: ts → step s = exec i { s with turns := ts }) ∧
    (∀ ts, s.turns = .readOut :: ts → s.outq = [] → step s = exec i s)

/-- The step function answers a next state everywhere, never a fault or a refusal: no word and no operand is without a
verdict or an effect (30_encoding.md R58, 60_exceptions.md R150, R159). It rests on two of the model's choices: a
hold, an empty port and a waiting read, where the spec has no step, are steps that change nothing (log entry 4), and a
protocol fault is a next state, the type `Fault` having no constructor (log entry 5). -/
def Obligations.EveryStepAnswersANextState : Prop :=
  ∀ s : State, ∃ t, step s = .next t

/-- 60_exceptions.md R157: the check order, on every word in every state. Where R42 says that the block takes no step,
the held `SAMPLE` is a step that takes its turn and changes nothing else (the model's choice, log entry 4); with an
empty schedule the step is the block's (log entry 15). -/
def Obligations.WordsAreCheckedInOrder : Prop :=
  ∀ (s : State) (w : CmdWord) (rest : List CmdWord), blockTurn s → s.port = w :: rest →
    (s.mode = .halted → step s = .next { s with turns := s.turns.tail, port := rest }) ∧
    (s.mode ≠ .halted → ∀ c, checkOrder s w = some c →
      step s = .next { s with
        turns := s.turns.tail, port := rest, mode := .halted
        cause := if s.cause = 0#8 then c.code else s.cause }) ∧
    (s.mode ≠ .halted → checkOrder s w = none → holds s w → step s = .next { s with turns := s.turns.tail }) ∧
    (s.mode ≠ .halted → checkOrder s w = none → ¬ holds s w →
      ∃ i t, w = encode i ∧ exec i { s with turns := s.turns.tail } = .next t ∧ step s = .next t ∧ t.port = rest)

/-- 60_exceptions.md R152: a fault records its cause if none is recorded, halts, and has no other effect; the words
already emitted can still be read. -/
def Obligations.FaultRecordsFirstCauseAndHalts : Prop :=
  ∀ (s : State) (w : CmdWord) (rest : List CmdWord) (c : Cause),
    s.turns = [] → s.port = w :: rest → s.mode ≠ .halted → checkOrder s w = some c →
    ∃ t, step s = .next t ∧
      t = { s with port := rest, mode := .halted, cause := if s.cause = 0#8 then c.code else s.cause } ∧
      ∀ v q ts, t.outq = v :: q →
        step { t with turns := .readOut :: ts } =
          .next { t with turns := ts, outq := q, hostWords := t.hostWords ++ [v] }

/-- 60_exceptions.md R155: the three mode faults. -/
def Obligations.ModeFaults : Prop :=
  (∀ (s : State) (x : F32), s.mode = .idle →
    exec (.sample x) s = .next { s with
      port := s.port.tail, mode := .halted, cause := if s.cause = 0#8 then 3#8 else s.cause }) ∧
  (∀ s : State, s.mode = .idle →
    exec .endCall s = .next { s with
      port := s.port.tail, mode := .halted, cause := if s.cause = 0#8 then 4#8 else s.cause }) ∧
  (∀ (s : State) (sr : F32), s.mode = .active ∨ s.mode = .degenerate →
    exec (.beginCall sr) s = .next { s with
      port := s.port.tail, mode := .halted, cause := if s.cause = 0#8 then 5#8 else s.cause })

/-- 60_exceptions.md R156: `INDEX_OVERFLOW`, whether or not `OUTQ` is full; not in a degenerate call. -/
def Obligations.IndexOverflowFaults : Prop :=
  ∀ (s : State) (x : F32), s.idx.toNat = 2 ^ 64 - 1 →
    (s.mode = .active →
      exec (.sample x) s = .next { s with
        port := s.port.tail, mode := .halted, cause := if s.cause = 0#8 then 6#8 else s.cause }) ∧
    (s.mode = .degenerate → exec (.sample x) s = .next { s with port := s.port.tail })

/-- 60_exceptions.md R160: only a reset leaves HALTED. Until then no step changes `MODE`, `CAUSE` or a register of the
datapath, or emits a word. -/
def Obligations.OnlyResetLeavesHalted : Prop :=
  ∀ s t : State, s.mode = .halted → ¬ resetTurn s → step s = .next t →
    t = { s with
      outq := t.outq, port := t.port, rxBytes := t.rxBytes, hostWords := t.hostWords, hostStatus := t.hostStatus
      turns := t.turns } ∧
    emitted t = emitted s

/-- 20_memory.md R42: a `SAMPLE` that would emit is held while `OUTQ` holds `OUT_DEPTH` words; every later word stays
behind it; only an output read (or a reset) lifts the hold; every other word is accepted. The hold is a step that
changes nothing but the turn it takes (log entry 4). -/
def Obligations.FullOutputHoldsTheSample : Prop :=
  (∀ (s : State) (x : F32), s.mode = .active → s.idx.toNat ≠ 2 ^ 64 - 1 → s.outq.length = Config.outDepth →
    exec (.sample x) s = .next s) ∧
  (∀ (s t : State) (x : F32) (rest : List CmdWord), s.port = encode (.sample x) :: rest → s.mode = .active →
    s.idx.toNat ≠ 2 ^ 64 - 1 → s.outq.length = Config.outDepth → ¬ resetTurn s → s.turns.head? ≠ some .readOut →
    step s = .next t →
    t = { s with
      port := s.port ++ arriving s.rxBytes (s.turns.take 1), rxBytes := t.rxBytes, hostStatus := t.hostStatus
      turns := s.turns.tail }) ∧
  (∀ (s t : State) (x : F32) (ts : List Turn), s.mode = .active → s.idx.toNat ≠ 2 ^ 64 - 1 →
    s.outq.length = Config.outDepth → s.turns = .readOut :: ts → step s = .next t →
    t.outq = s.outq.tail ∧ ∃ u, exec (.sample x) t = .next u ∧ u.port = t.port.tail ∧ u.idx = t.idx + 1#64) ∧
  (∀ (s t : State) (w : CmdWord) (rest : List CmdWord), blockTurn s → s.port = w :: rest →
    ¬ (holds s w ∧ checkOrder s w = none) → step s = .next t → t.port = rest)

/-- 20_memory.md R43: a host read removes the head word of `OUTQ` and returns it; on an empty `OUTQ` the host holds; a
`STATUS` read is idempotent. Where R43 says that a waiting read has no step, its turn stays at the head of the
schedule while the block takes its accept step (the model's choice, log entries 4, 14). -/
def Obligations.OutputReadRemovesTheHead : Prop :=
  (∀ (s : State) (ts : List Turn) (v : Word32) (q : List Word32), s.turns = .readOut :: ts → s.outq = v :: q →
    step s = .next { s with turns := ts, outq := q, hostWords := s.hostWords ++ [v] }) ∧
  (∀ (s t : State) (ts : List Turn), s.turns = .readOut :: ts → s.outq = [] → step s = .next t →
    t.turns = s.turns ∧ t.hostWords = s.hostWords) ∧
  (∀ (s : State) (ts : List Turn), s.turns = .readStatus :: .readStatus :: ts →
    ∃ t, step s = .next t ∧
      step t = .next { s with turns := ts, hostStatus := s.hostStatus ++ [s.status, s.status] })

/-- 10_state.md R26: the fields of `STATUS`, its reserved bits, its reset value, a read and a write of it. -/
def Obligations.StatusRegister : Prop :=
  (∀ s : State,
    s.status.toNat % 4 = (match s.mode with | .idle => 0 | .active => 1 | .degenerate => 2 | .halted => 3) ∧
    s.status.toNat / 2 ^ 2 % 2 ^ 6 = 0 ∧
    s.status.toNat / 2 ^ 8 % 2 ^ 8 = s.cause.toNat ∧
    s.status.toNat / 2 ^ 16 = 0 ∧
    (statusInv s → s.status.toNat / 2 ^ 8 % 2 ^ 8 ≤ 6)) ∧
  State.reset.status = 0x00000000#32 ∧
  (∀ (s : State) (ts : List Turn), s.turns = .readStatus :: ts →
    step s = .next { s with turns := ts, hostStatus := s.hostStatus ++ [s.status] }) ∧
  (∀ (s : State) (ts : List Turn) (v : Word32), s.turns = .writeStatus v :: ts →
    step s = .next { s with turns := ts })

/-- 20_memory.md R43, R44, R49: what a step can do to `OUTQ`: nothing, one word appended by a `SAMPLE` of an active
call (its NaN being `NAN_OUT`), the head removed by a host read, or a reset; so without a reset the emitted sequence
only grows, by at most one word. -/
def Obligations.OutputQueueIsFirstInFirstOut : Prop :=
  ∀ s t : State, step s = .next t →
    (t.outq = s.outq ∨
      (∃ x rest v, s.port = encode (.sample x) :: rest ∧ s.mode = .active ∧ t.outq = s.outq ++ [v] ∧
        (isNaN v = true → v = nanOut)) ∨
      (∃ v, s.turns.head? = some .readOut ∧ s.outq = v :: t.outq) ∨
      (resetTurn s ∧ t.outq = [])) ∧
    (¬ resetTurn s → emitted t = emitted s ∨ ∃ v, emitted t = emitted s ++ [v])

/-- 70_reset_and_hazards.md R180, 20_memory.md R46: a reset event sets `MODE`, `CAUSE` and `OUTQ`, discards a partly
delivered command word, and is a step from every state, HALTED too. That the whole words waiting on the port go with
it is the model's reading (log entry 6). -/
def Obligations.ResetEventClearsTheProtocolState : Prop :=
  ∀ (s : State) (ts : List Turn) (a : Option CmdWord), s.turns = .reset a :: ts →
    ∃ t, step s = .next t ∧ t.mode = .idle ∧ t.cause = 0#8 ∧ t.status = 0x00000000#32 ∧ t.outq = [] ∧
      t.rxBytes = [] ∧ t.port = [] ∧ t.turns = ts ∧ t.hostWords = s.hostWords ∧ t.hostStatus = s.hostStatus

/-- 60_exceptions.md R158: a reset has priority over a command word that arrives with it; the word is not accepted,
and offered again after the reset it is on the port. That the port is empty after the reset, whatever waited there, is
the model's reading (log entry 6). -/
def Obligations.ResetHasPriorityOverACommand : Prop :=
  ∀ (s : State) (ts : List Turn) (w : CmdWord), s.turns = .reset (some w) :: ts →
    ∃ t, step s = .next t ∧ t.mode = .idle ∧ t.cause = 0#8 ∧ t.outq = [] ∧ w ∉ t.port ∧
      step { s with turns := .reset none :: ts } = .next t ∧
      ∃ u, step { t with turns := .offer w :: ts } = .next u ∧ w ∈ u.port

/-- 10_state.md R31, 70_reset_and_hazards.md R182: the values the spec gives for reset, and every invariant stated
below. -/
def Obligations.ResetStateMeetsTheInvariants : Prop :=
  State.reset.mode = .idle ∧ State.reset.cause = 0#8 ∧ State.reset.status = 0x00000000#32 ∧ State.reset.outq = [] ∧
    statusInv State.reset ∧ boundsInv State.reset ∧ envInv State.reset ∧ callInv State.reset ∧
    ∀ w ∈ emitted State.reset, outputWord w

/-! ### The commands -/

/-- 40_commands.md R75: `NOP` completes in every mode, with every operand, and changes nothing: its word leaves the
port. -/
def Obligations.NopChangesNothing : Prop :=
  ∀ (opnd : BitVec 32) (s : State), exec (.nop opnd) s = .next { s with port := s.port.tail }

/-- 40_commands.md R71: `BEGIN` from IDLE, its two outcomes with every register written and every other kept, its
fault inside a call, its being ignored in HALTED, and its corner cases. -/
def Obligations.BeginOpensACall : Prop :=
  (∀ (s : State) (sr : F32), s.mode = .idle → fle sr 0x00000000#32 = true →
    exec (.beginCall sr) s = .next { s with
      sr := sr, hpY := 0x00000000#32, hpX := 0x00000000#32, lpY := 0x00000000#32, env := 0x00000000#32
      rng := 0x1234ABCD#32, idx := 0#64, mode := .degenerate, port := s.port.tail }) ∧
  (∀ (s : State) (sr : F32), s.mode = .idle → fle sr 0x00000000#32 = false →
    exec (.beginCall sr) s = .next { s with
      sr := sr, hpY := 0x00000000#32, hpX := 0x00000000#32, lpY := 0x00000000#32, env := 0x00000000#32
      rng := 0x1234ABCD#32, idx := 0#64
      hpA := expF (fdiv 0xC524EF02#32 sr), lpA := expF (fdiv 0xC6756FDB#32 sr)
      mode := .active, port := s.port.tail }) ∧
  (∀ (s : State) (sr : F32), s.mode = .active ∨ s.mode = .degenerate →
    exec (.beginCall sr) s = .next { s with
      port := s.port.tail, mode := .halted, cause := if s.cause = 0#8 then 5#8 else s.cause }) ∧
  (∀ (s : State) (sr : F32), s.mode = .halted → exec (.beginCall sr) s = .next { s with port := s.port.tail }) ∧
  (∀ sr : F32, isNaN sr = false → (isZero sr = true ∨ signBit sr = true) → fle sr 0x00000000#32 = true) ∧
  (∀ sr : F32, isNaN sr = true → fle sr 0x00000000#32 = false ∧
    isNaN (expF (fdiv 0xC524EF02#32 sr)) = true ∧ isNaN (expF (fdiv 0xC6756FDB#32 sr)) = true) ∧
  (fle 0x7F800000#32 0x00000000#32 = false ∧ expF (fdiv 0xC524EF02#32 0x7F800000#32) = 0x3F800000#32 ∧
    expF (fdiv 0xC6756FDB#32 0x7F800000#32) = 0x3F800000#32) ∧
  (∀ sr : F32, 0 < sr.toNat → sr.toNat < 2 ^ 23 → fle sr 0x00000000#32 = false ∧
    expF (fdiv 0xC524EF02#32 sr) = 0x00000000#32 ∧ expF (fdiv 0xC6756FDB#32 sr) = 0x00000000#32)

/-- 40_commands.md R72 with the stage rules R90 to R94, R101, R102, R112, R120, R125 to R129, R140, R141 written out:
a `SAMPLE` of an active call, `OUTQ` not holding `OUT_DEPTH` words, completes, with every register it writes and every
other kept. -/
def Obligations.SampleProcessesOneSample : Prop :=
  ∀ (s : State) (x : F32), s.mode = .active → s.idx.toNat ≠ 2 ^ 64 - 1 → s.outq.length ≠ Config.outDepth →
    let t := fdiv (u2f s.idx.toNat) s.sr
    let wow := fmul (sinF (fmul 0x400CBE4C#32 t)) 0x3D4CCCCD#32
    let flutter := fmul (sinF (fmul 0x41E231D6#32 t)) 0x3C75C28F#32
    let biased := fadd (fmul x (fadd (fadd 0x3F800000#32 wow) flutter)) 0x3CA3D70A#32
    let hp := fmul s.hpA (fsub (fadd s.hpY biased) s.hpX)
    let lp := fadd (fmul (fsub 0x3F800000#32 s.lpA) hp) (fmul s.lpA s.lpY)
    let y1 := fdiv (fmul lp 0x40000000#32) (fadd 0x3F800000#32 (fabs (fmul lp 0x40000000#32)))
    let v := fmul y1 0x3FB33333#32
    let y2 :=
      if fge v 0x00000000#32 then fdiv v (fadd 0x3F800000#32 v)
      else fdiv v (fadd 0x3F800000#32 (fmul 0x3F000000#32 (fabs v)))
    let rum := fadd (fmul (sinF (fmul 0x432FEDE0#32 t)) 0x3B449BA6#32) (fmul (sinF (fmul 0x43ACC9A0#32 t)) 0x3AC49BA6#32)
    let g1 := lcgNext s.rng
    let g2 := lcgNext g1
    let g3 := lcgNext g2
    let env := fmul (if fgt (drawValue g2) 0x3F7EB852#32 then 0x3F800000#32 else s.env) 0x3F70A3D7#32
    let crk := fmul env (fmul (drawValue g3) 0x3DA3D70A#32)
    let y := fadd (fadd (fadd y2 rum) (fmul (drawValue g1) 0x3B83126F#32)) crk
    let yq := fdiv (fround (fmul y 0x44000000#32)) 0x44000000#32
    let out :=
      if isNaN yq then yq else if flt yq 0xBF800000#32 then 0xBF800000#32
      else if fgt yq 0x3F800000#32 then 0x3F800000#32 else yq
    exec (.sample x) s = .next { s with
      hpX := biased, hpY := hp, lpY := lp, rng := g3, env := env
      outq := s.outq ++ [if isNaN out then nanOut else out]
      idx := BitVec.ofNat 64 (s.idx.toNat + 1), port := s.port.tail }

/-- 40_commands.md section 3, R73 (its last point marked there "derived: from rule R71, ..."): a `SAMPLE` of a
degenerate call completes whatever `IDX` and `OUTQ` hold, emits nothing and changes no register; in HALTED it is
ignored; every `SAMPLE` of a call opened at a NaN rate emits a NaN. -/
def Obligations.DegenerateAndNanRateCalls : Prop :=
  (∀ (s : State) (x : F32), s.mode = .degenerate ∨ s.mode = .halted →
    exec (.sample x) s = .next { s with port := s.port.tail }) ∧
  (∀ (s : State) (x : F32), s.mode = .active → isNaN s.sr = true → s.idx.toNat ≠ 2 ^ 64 - 1 →
    s.outq.length ≠ Config.outDepth →
    ∃ t, exec (.sample x) s = .next t ∧ t.outq = s.outq ++ [nanOut] ∧ t.sr = s.sr ∧ t.mode = .active) ∧
  (∀ (s : State) (sr : F32) (xs : List F32), isNaN sr = true →
    callOutputs (s.openCall sr) xs = List.replicate xs.length nanOut)

/-- 40_commands.md R74: `END` closes either kind of call and writes `MODE` only; its fault in IDLE, its being ignored
in HALTED, and the reserved operand. -/
def Obligations.EndClosesTheCall : Prop :=
  (∀ s : State, s.mode = .active ∨ s.mode = .degenerate →
    exec .endCall s = .next { s with mode := .idle, port := s.port.tail }) ∧
  (∀ s : State, s.mode = .idle →
    exec .endCall s = .next { s with
      port := s.port.tail, mode := .halted, cause := if s.cause = 0#8 then 4#8 else s.cause }) ∧
  (∀ s : State, s.mode = .halted → exec .endCall s = .next { s with port := s.port.tail }) ∧
  (∀ w : CmdWord, opcField w = 3 → (decode w = .command .endCall ↔ rsvField w = 0 ∧ opndField w = 0) ∧
    (opndField w ≠ 0 → decode w = .reservedBits))

/-! ### Who writes what -/

/-- 10_state.md R22, R23: no step but an accepted `BEGIN` from IDLE, or a reset, changes `SR`, `HP_A` or `LP_A`; a
degenerate `BEGIN` leaves the coefficients. -/
def Obligations.RateAndCoefficientsAreWrittenByBeginOnly : Prop :=
  ∀ s t : State, step s = .next t → ¬ resetTurn s →
    (t.sr = s.sr ∧ t.hpA = s.hpA ∧ t.lpA = s.lpA) ∨
    ∃ sr rest, s.port = encode (.beginCall sr) :: rest ∧ s.mode = .idle ∧ t.sr = sr ∧
      ((fle sr 0x00000000#32 = true ∧ t.mode = .degenerate ∧ t.hpA = s.hpA ∧ t.lpA = s.lpA) ∨
        (fle sr 0x00000000#32 = false ∧ t.mode = .active ∧
          t.hpA = expF (fdiv 0xC524EF02#32 sr) ∧ t.lpA = expF (fdiv 0xC6756FDB#32 sr)))

/-- 10_state.md R21: only `BEGIN` (to 0), a processed `SAMPLE` (by one, with no wrap) and a reset change `IDX`. -/
def Obligations.IndexCountsProcessedSamples : Prop :=
  ∀ s t : State, step s = .next t → ¬ resetTurn s →
    t.idx = s.idx ∨
    (∃ sr rest, s.port = encode (.beginCall sr) :: rest ∧ s.mode = .idle ∧ t.idx = 0#64) ∨
    (∃ x rest, s.port = encode (.sample x) :: rest ∧ s.mode = .active ∧ t.idx.toNat = s.idx.toNat + 1)

/-- 10_state.md R20, R24, R25, 44_artifacts.md R124, 60_exceptions.md R168: only `BEGIN` (to the call-start values), a
processed `SAMPLE` (the generator advanced exactly three times) and a reset change the five running-state registers;
only `BEGIN`, `END`, a fault and a reset change `MODE`, and only a fault and a reset `CAUSE`; with no word on the port
and no reset the block keeps all its state, and its accept step does nothing (log entry 4). -/
def Obligations.RunningStateAndModeWriters : Prop :=
  (∀ s t : State, step s = .next t → ¬ resetTurn s →
    (t.hpY = s.hpY ∧ t.hpX = s.hpX ∧ t.lpY = s.lpY ∧ t.rng = s.rng ∧ t.env = s.env) ∨
    (∃ sr rest, s.port = encode (.beginCall sr) :: rest ∧ s.mode = .idle ∧
      t.hpY = 0x00000000#32 ∧ t.hpX = 0x00000000#32 ∧ t.lpY = 0x00000000#32 ∧ t.env = 0x00000000#32 ∧
      t.rng = 0x1234ABCD#32) ∨
    (∃ x rest, s.port = encode (.sample x) :: rest ∧ s.mode = .active ∧ t.mode = .active ∧
      t.rng = lcgNext (lcgNext (lcgNext s.rng)))) ∧
  (∀ s t : State, step s = .next t → ¬ resetTurn s →
    (t.mode = s.mode ∧ t.cause = s.cause) ∨
    (∃ sr rest, s.port = encode (.beginCall sr) :: rest ∧ s.mode = .idle ∧ t.cause = s.cause ∧
      t.mode = if fle sr 0x00000000#32 then .degenerate else .active) ∨
    (∃ rest, s.port = encode .endCall :: rest ∧ (s.mode = .active ∨ s.mode = .degenerate) ∧ t.cause = s.cause ∧
      t.mode = .idle) ∨
    (∃ w rest c, s.port = w :: rest ∧ s.mode ≠ .halted ∧ checkOrder s w = some c ∧ t.mode = .halted ∧
      t.cause = if s.cause = 0#8 then c.code else s.cause)) ∧
  (∀ s t : State, step s = .next t → ¬ resetTurn s → s.port = [] →
    t = { s with
      outq := t.outq, port := t.port, rxBytes := t.rxBytes, hostWords := t.hostWords, hostStatus := t.hostStatus
      turns := t.turns } ∧
    emitted t = emitted s) ∧
  (∀ s : State, blockTurn s → s.port = [] → step s = .next { s with turns := s.turns.tail })

/-! ### Invariants that every step keeps -/

/-- 10_state.md R24, R25, 60_exceptions.md R151: a cause is recorded exactly in HALTED and is one of the six codes. -/
def Obligations.EveryStepKeepsTheStatusInvariant : Prop :=
  ∀ s t : State, statusInv s → step s = .next t → statusInv t

/-- 10_state.md R28, 20_memory.md R46: `OUTQ` never holds more than `OUT_DEPTH` words, and a partial command word
never eight bytes. -/
def Obligations.EveryStepKeepsTheBufferBounds : Prop :=
  ∀ s t : State, boundsInv s → step s = .next t → boundsInv t

/-- 44_artifacts.md section 4, R127: in an active call `ENV` is never negative, NaN or infinite, and at most 1.0. -/
def Obligations.EveryStepKeepsTheEnvelopeRange : Prop :=
  ∀ s t : State, envInv s → step s = .next t → envInv t

/-- 10_state.md R32 (marked there "derived: from 40_commands.md rule R71, ..."): in an active call the generator has
advanced three times per sample from the seed, and the coefficients and the rate are those `BEGIN` wrote. -/
def Obligations.EveryStepKeepsTheCallInvariant : Prop :=
  ∀ s t : State, callInv s → step s = .next t → callInv t

/-- 45_quantizer.md R142 (marked there "derived: from rule R140, rule R141 and 44_artifacts.md rule R129"): every word
ever emitted is `NAN_OUT` or `n/512` with `n` in `[-465, 344]`. -/
def Obligations.EveryEmittedWordIsInRange : Prop :=
  ∀ s t : State, envInv s → (∀ w ∈ emitted s, outputWord w) → step s = .next t → ∀ w ∈ emitted t, outputWord w

/-- 42_filters.md R103 (marked there "derived: from rule R101, rule R102, ..."): a sample that stores a NaN in a
filter memory emits a NaN, and so does every later sample of the call; an infinite `biased` gives a NaN and starts the
poisoning at the next sample at the latest; only `BEGIN` clears it. -/
def Obligations.PoisonedCallStaysPoisoned : Prop :=
  (∀ (s t : State) (x : F32), s.mode = .active → exec (.sample x) s = .next t → t.idx ≠ s.idx →
    (poisoned t → t.outq = s.outq ++ [nanOut]) ∧ (poisoned s → poisoned t ∧ t.outq = s.outq ++ [nanOut])) ∧
  (∀ (s t u : State) (x x' : F32), callInv s → s.mode = .active → exec (.sample x) s = .next t → t.idx ≠ s.idx →
    isInf (modulate x (sampleTime s.idx s.sr)) = true →
    t.outq = s.outq ++ [nanOut] ∧ (exec (.sample x') t = .next u → u.idx ≠ t.idx → poisoned u)) ∧
  (∀ (i : Instr) (s t : State), (∀ sr, i ≠ .beginCall sr) → exec i s = .next t → poisoned s → poisoned t)

/-! ### Binary32 -/

/-- 00_scope.md R12: on finite operands each of the four operations is the exact result rounded once, to nearest with
ties to even, overflowing to infinity, with IEEE 754's sign (of a zero result too). -/
def Obligations.ArithmeticRoundsToNearestEven : Prop :=
  ∀ a b : F32, isFinite a = true → isFinite b = true →
    (nearest (value a + value b).natAbs 1 (fadd a b) ∧
      signBit (fadd a b) = if value a + value b = 0 then signBit a && signBit b else decide (value a + value b < 0)) ∧
    (nearest (value a - value b).natAbs 1 (fsub a b) ∧
      signBit (fsub a b) = if value a - value b = 0 then signBit a && !signBit b else decide (value a - value b < 0)) ∧
    (nearest (mag a * mag b) (2 ^ 149) (fmul a b) ∧ signBit (fmul a b) = (signBit a != signBit b)) ∧
    (isZero b = false →
      nearest (mag a * 2 ^ 149) (mag b) (fdiv a b) ∧ signBit (fdiv a b) = (signBit a != signBit b))

/-- 00_scope.md R12, R16: NaN operands, the invalid operations, infinities and division by zero. -/
def Obligations.ArithmeticSpecialValues : Prop :=
  (∀ a b : F32, isNaN a = true ∨ isNaN b = true →
    isNaN (fadd a b) = true ∧ isNaN (fsub a b) = true ∧ isNaN (fmul a b) = true ∧ isNaN (fdiv a b) = true) ∧
  (∀ a b : F32, isInf a = true → isInf b = true →
    isNaN (fdiv a b) = true ∧
    (signBit a ≠ signBit b → isNaN (fadd a b) = true ∧ fsub a b = a) ∧
    (signBit a = signBit b → fadd a b = a ∧ isNaN (fsub a b) = true) ∧
    isInf (fmul a b) = true ∧ signBit (fmul a b) = (signBit a != signBit b)) ∧
  (∀ a b : F32, isInf a = true → isFinite b = true →
    fadd a b = a ∧ fadd b a = a ∧ fsub a b = a ∧ fsub b a = fneg a ∧
    (isZero b = true → isNaN (fmul a b) = true ∧ isNaN (fmul b a) = true) ∧
    (isZero b = false → isInf (fmul a b) = true ∧ fmul b a = fmul a b ∧ signBit (fmul a b) = (signBit a != signBit b)) ∧
    isInf (fdiv a b) = true ∧ signBit (fdiv a b) = (signBit a != signBit b) ∧
    isZero (fdiv b a) = true ∧ signBit (fdiv b a) = (signBit a != signBit b)) ∧
  (∀ a b : F32, isFinite a = true → isZero b = true →
    (isZero a = true → isNaN (fdiv a b) = true) ∧
    (isZero a = false → isInf (fdiv a b) = true ∧ signBit (fdiv a b) = (signBit a != signBit b)))

/-- 00_scope.md R12: the comparisons order the exact values, infinities beyond them and equal to themselves, and are
false on NaN. -/
def Obligations.ComparisonsAreOrdered : Prop :=
  (∀ a b : F32, isNaN a = true ∨ isNaN b = true →
    fgt a b = false ∧ fge a b = false ∧ fle a b = false ∧ flt a b = false) ∧
  (∀ a b : F32, isFinite a = true → isFinite b = true →
    (fgt a b = true ↔ value b < value a) ∧ (fge a b = true ↔ value b ≤ value a) ∧
    (fle a b = true ↔ value a ≤ value b) ∧ (flt a b = true ↔ value a < value b)) ∧
  (∀ a : F32, isFinite a = true →
    (flt a 0x7F800000#32 = true ∧ fle a 0x7F800000#32 = true ∧ fgt a 0x7F800000#32 = false ∧ fge a 0x7F800000#32 = false) ∧
    (fgt 0x7F800000#32 a = true ∧ fge 0x7F800000#32 a = true ∧ flt 0x7F800000#32 a = false ∧ fle 0x7F800000#32 a = false) ∧
    (fgt a 0xFF800000#32 = true ∧ fge a 0xFF800000#32 = true ∧ flt a 0xFF800000#32 = false ∧ fle a 0xFF800000#32 = false) ∧
    (flt 0xFF800000#32 a = true ∧ fle 0xFF800000#32 a = true ∧ fgt 0xFF800000#32 a = false ∧ fge 0xFF800000#32 a = false)) ∧
  (∀ a b : F32, isInf a = true → isInf b = true →
    (fle a b = true ↔ signBit a = true ∨ signBit b = false) ∧ (fge a b = true ↔ signBit a = false ∨ signBit b = true) ∧
    (flt a b = true ↔ signBit a = true ∧ signBit b = false) ∧ (fgt a b = true ↔ signBit a = false ∧ signBit b = true)) ∧
  fge 0x80000000#32 0x00000000#32 = true ∧ fgt 0x00000000#32 0x80000000#32 = false

/-- 00_scope.md R14: `fround` is the nearest integral value, a tie away from zero, the sign kept. -/
def Obligations.RoundIsHalfAwayFromZero : Prop :=
  (∀ a : F32, isNaN a = true → isNaN (fround a) = true) ∧
  (∀ a : F32, isInf a = true → fround a = a) ∧
  (∀ a : F32, isFinite a = true →
    signBit (fround a) = signBit a ∧ isFinite (fround a) = true ∧
    mag (fround a) = (2 * mag a + 2 ^ 149) / (2 * 2 ^ 149) * 2 ^ 149) ∧
  fround (decimalBits true 25 2) = 0x80000000#32 ∧ fround (decimalBits false 5 1) = 0x3F800000#32 ∧
  fround (decimalBits true 25 1) = decimalBits true 3 0 ∧ fround (decimalBits false 49999997 8) = 0x00000000#32

/-- 00_scope.md R15: the properties of `sinF` and `expF`, whatever their other values are. -/
def Obligations.SineAndExponentialProperties : Prop :=
  sinF 0x00000000#32 = 0x00000000#32 ∧ sinF 0x80000000#32 = 0x80000000#32 ∧
  isNaN (sinF 0x7F800000#32) = true ∧ isNaN (sinF 0xFF800000#32) = true ∧
  (∀ a : F32, isNaN a = true → isNaN (sinF a) = true) ∧
  expF 0x00000000#32 = 0x3F800000#32 ∧ expF 0x80000000#32 = 0x3F800000#32 ∧
  expF 0xFF800000#32 = 0x00000000#32 ∧ expF 0x7F800000#32 = 0x7F800000#32 ∧
  (∀ a : F32, isNaN a = true → isNaN (expF a) = true) ∧
  (∀ a : F32, isFinite a = true → fle 0xBF800000#32 (sinF a) = true ∧ fle (sinF a) 0x3F800000#32 = true) ∧
  (∀ a : F32, isFinite a = true → fle 0x00000000#32 (expF a) = true ∧ fle (expF a) 0x7F800000#32 = true)

/-! ### The stages -/

/-- 41_modulation.md R90: sample time at index 0, at an infinite and a NaN rate, and the rounding of a large index. -/
def Obligations.SampleTimeCorners : Prop :=
  (∀ sr : F32, isNaN sr = false → signBit sr = false → isZero sr = false → sampleTime 0#64 sr = 0x00000000#32) ∧
  (∀ i : BitVec 64, sampleTime i 0x7F800000#32 = 0x00000000#32) ∧
  (∀ (i : BitVec 64) (sr : F32), isNaN sr = true → isNaN (sampleTime i sr) = true) ∧
  (∀ n : Nat, n < 2 ^ 64 → nearest (n * 2 ^ 149) 1 (u2f n) ∧ signBit (u2f n) = false) ∧
  (∀ sr : F32, sampleTime 16777217#64 sr = sampleTime 16777216#64 sr) ∧
  sampleTime 1#64 0x472C4400#32 = 0x37BE37C6#32 ∧ sampleTime 44100#64 0x472C4400#32 = 0x3F800000#32

/-- 41_modulation.md R91 to R94 ("The interval is [derived: from rule R91, rule R92 and 00_scope.md rule R15]"): the
bounds of the modulation where the oscillator arguments do not overflow (the model's reading of "finite t": log entry
17), its values at `t = +0`, and NaN at a non-finite `t`. -/
def Obligations.ModulationBounds : Prop :=
  (∀ t : F32, isFinite (fmul 0x41E231D6#32 t) = true →
    isFinite (wow t) = true ∧ absBits (wow t) ≤ 0x3D4CCCCD ∧
    isFinite (flutter t) = true ∧ absBits (flutter t) ≤ 0x3C75C28F ∧
    0x3F6F5C29 ≤ (am t).toNat ∧ (am t).toNat ≤ 0x3F8851EB) ∧
  (∀ t : F32, isFinite t = false →
    isNaN (wow t) = true ∧ isNaN (flutter t) = true ∧ isNaN (am t) = true ∧ ∀ x, isNaN (modulate x t) = true) ∧
  (wow 0x00000000#32 = 0x00000000#32 ∧ flutter 0x00000000#32 = 0x00000000#32 ∧ am 0x00000000#32 = 0x3F800000#32) ∧
  (∀ t x : F32, isFinite (fmul 0x41E231D6#32 t) = true →
    (isZero x = true → modulate x t = 0x3CA3D70A#32) ∧ (isInf x = true → modulate x t = x))

/-- 43_waveshaper.md R110 ("The range statement is [derived: from this rule and 00_scope.md rule R12]"): zeros,
infinities, NaN, the range on finite operands, and the saturation to exactly one from `2^25` on (the rule says from
`2^24` on, which its own formula contradicts: log entry 17). -/
def Obligations.SoftClipRange : Prop :=
  (∀ v : F32, isZero v = true → softClip v = v) ∧
  (∀ v : F32, isInf v = true ∨ isNaN v = true → isNaN (softClip v) = true) ∧
  (∀ v : F32, isFinite v = true →
    absBits (softClip v) ≤ 0x3F800000 ∧ signBit (softClip v) = signBit v) ∧
  (∀ v : F32, isFinite v = true → 0x4C000000 ≤ absBits v → absBits (softClip v) = 0x3F800000) ∧
  softClip 0x4B800000#32 = 0x3F800000#32 ∧ softClip 0x3F800000#32 = 0x3F000000#32 ∧
  softClip 0xC0400000#32 = 0xBF400000#32 ∧ softClip 0x3F000000#32 = 0x3EAAAAAB#32

/-- 43_waveshaper.md R111: the two branches, both zeros on the first, NaN and the infinities, and the examples. -/
def Obligations.AsymmetricClipBranches : Prop :=
  (∀ v : F32, isNaN v = false → (signBit v = false ∨ isZero v = true) → asymClip v = fdiv v (fadd 0x3F800000#32 v)) ∧
  (∀ v : F32, isNaN v = true ∨ (signBit v = true ∧ isZero v = false) →
    asymClip v = fdiv v (fadd 0x3F800000#32 (fmul 0x3F000000#32 (fabs v)))) ∧
  (asymClip 0x80000000#32 = 0x80000000#32 ∧ asymClip 0x00000000#32 = 0x00000000#32 ∧
    isZero (fdiv 0x00000000#32 (fadd 0x3F800000#32 (fmul 0x3F000000#32 (fabs 0x00000000#32)))) = true) ∧
  (∀ v : F32, isNaN v = true ∨ isInf v = true → isNaN (asymClip v) = true) ∧
  asymClip 0x3F800000#32 = 0x3F000000#32 ∧ asymClip 0xBF800000#32 = 0xBF2AAAAB#32 ∧
  asymClip 0xC0000000#32 = 0xBF800000#32

/-- 43_waveshaper.md R113 (marked there "derived: from rule R110, rule R111, rule R112 and 00_scope.md rule R12"),
where doubling `lp` does not overflow (log entry 17): the enclosure of the waveshaper, its attained saturation values,
and NaN for a non-finite `lp`. -/
def Obligations.WaveshaperEnclosure : Prop :=
  (∀ lp : F32, isFinite (fmul lp 0x40000000#32) = true →
    absBits (softClip (fmul lp 0x40000000#32)) ≤ 0x3F800000 ∧
    absBits (fmul (softClip (fmul lp 0x40000000#32)) 0x3FB33333#32) ≤ 0x3FB33333 ∧
    isFinite (shape lp) = true ∧
    -(8236 * 2 ^ 149) ≤ 10000 * value (shape lp) ∧ 10000 * value (shape lp) ≤ 5834 * 2 ^ 149) ∧
  (∀ lp : F32, isFinite lp = false → isNaN (shape lp) = true) ∧
  shape (decimalBits false (10 ^ 30) 0) = 0x3F155555#32 ∧ shape (decimalBits true (10 ^ 30) 0) = 0xBF52D2D2#32

/-- 44_artifacts.md R120, where the oscillator argument does not overflow (log entry 17): the bound of the rumble, its
value at `t = +0`, and NaN at a non-finite `t`. -/
def Obligations.RumbleBound : Prop :=
  (∀ t : F32, isFinite (fmul 0x43ACC9A0#32 t) = true →
    isFinite (rumble t) = true ∧ absBits (rumble t) ≤ absBits (fadd 0x3B449BA6#32 0x3AC49BA6#32)) ∧
  rumble 0x00000000#32 = 0x00000000#32 ∧
  (∀ t : F32, isFinite t = false → isNaN (rumble t) = true)

/-- 44_artifacts.md R122: the generator's step modulo `2^32`, with its corner cases and its example. -/
def Obligations.GeneratorStep : Prop :=
  (∀ g : Word32, (lcgNext g).toNat = (g.toNat * 1664525 + 1013904223) % 2 ^ 32) ∧
  lcgNext 0x00000000#32 = 0x3C6EF35F#32 ∧ lcgNext 0xFFFFFFFF#32 = 0x3C558D52#32 ∧
  lcgNext 0x1234ABCD#32 = 0xEC945AC8#32

/-- 44_artifacts.md section 2, R123 ("The exactness is [derived: from this rule and 00_scope.md rule R12]"): with `k =
RNG >> 9`, the value of a draw is exactly `(k - 2^22) / 2^22`, in `[-1, 1 - 2^-22]`, never NaN, infinite or `-0.0`;
its corner cases and its example. -/
def Obligations.DrawIsExact : Prop :=
  (∀ g : Word32,
    isFinite (drawValue g) = true ∧ drawValue g ≠ 0x80000000#32 ∧
    value (drawValue g) * 2 ^ 22 = ((g.toNat / 2 ^ 9 : Nat) - 2 ^ 22 : Int) * 2 ^ 149 ∧
    -(2 ^ 149) ≤ value (drawValue g) ∧ value (drawValue g) ≤ 2 ^ 149 - 2 ^ 127) ∧
  (∀ g : Word32, g.toNat / 2 ^ 9 = 0 → drawValue g = 0xBF800000#32) ∧
  (∀ g : Word32, g.toNat / 2 ^ 9 = 2 ^ 22 → drawValue g = 0x00000000#32) ∧
  (∀ g : Word32, g.toNat / 2 ^ 9 = 2 ^ 23 - 1 → drawValue g = 0x3F7FFFFC#32) ∧
  lcgNext 0x1234ABCD#32 = 0xEC945AC8#32 ∧ drawValue 0xEC945AC8#32 = 0x3F5928B4#32

/-- 44_artifacts.md section 4, R126 ("The integer form is [derived: from rule R123 and this rule]"): the trigger test
is the integer test on the generator just after draw 2, and a trigger restarts the envelope at 1.0. -/
def Obligations.TriggerIsAnIntegerTest : Prop :=
  (∀ g : Word32,
    (triggersCrackle (drawValue g) = true ↔ 0xFF5C2A00 ≤ g.toNat) ∧
    (triggersCrackle (drawValue g) = true ↔ 8367637 ≤ g.toNat / 2 ^ 9)) ∧
  (∀ (g : Word32) (e : F32),
    triggeredEnv g e = if 0xFF5C2A00 ≤ g.toNat then 0x3F800000#32 else e) ∧
  2 ^ 23 - 8367637 = 20971

/-- 44_artifacts.md section 4, R127 ("The underflow behaviour is [derived: from this rule and 00_scope.md rule R17]"):
the decay, its fixed points, the counts of the underflow, and the crackle that is left. -/
def Obligations.EnvelopeDecay : Prop :=
  decayedEnv 0x00000000#32 = 0x00000000#32 ∧
  (∀ e : F32, e.toNat ≤ 0x3F800000 → (decayedEnv e).toNat ≤ e.toNat ∧ (decayedEnv e).toNat ≤ 0x3F70A3D7) ∧
  decayedEnv^[1] 0x3F800000#32 = 0x3F70A3D7#32 ∧ decayedEnv^[2] 0x3F800000#32 = 0x3F62339C#32 ∧
  decayedEnv^[3] 0x3F800000#32 = 0x3F54A127#32 ∧ decayedEnv^[4] 0x3F800000#32 = 0x3F47DF2A#32 ∧
  2 ^ 23 ≤ (decayedEnv^[1411] 0x3F800000#32).toNat ∧ decayedEnv^[1412] 0x3F800000#32 = 0x007C06EF#32 ∧
  (∀ n, 1633 ≤ n → decayedEnv^[n] 0x3F800000#32 = 0x00000008#32) ∧
  (∀ g : Word32, absBits (crackleOf g 0x00000008#32) ≤ 1)

/-- 44_artifacts.md R125, R128, R129 (the range of the sum marked there "derived: from 43_waveshaper.md rule R113,
..."): the ranges of the hiss, of the crackle with a decayed envelope, and of the sum where no operand overflows (log
entry 17); a zero draw, a zero envelope, and a NaN in any term. -/
def Obligations.HissCrackleAndSumRanges : Prop :=
  (∀ g : Word32,
    isFinite (hissOf g) = true ∧ -value 0x3B83126F#32 ≤ value (hissOf g) ∧ value (hissOf g) < value 0x3B83126F#32) ∧
  (∀ g : Word32, drawValue g = 0x00000000#32 → hissOf g = 0x00000000#32) ∧
  (∀ (g : Word32) (e : F32), e.toNat ≤ 0x3F70A3D7 →
    isFinite (crackleOf g e) = true ∧ absBits (crackleOf g e) ≤ absBits (fmul 0x3F70A3D7#32 0x3DA3D70A#32)) ∧
  (∀ g : Word32, isZero (crackleOf g 0x00000000#32) = true ∧
    signBit (crackleOf g 0x00000000#32) = signBit (drawValue g)) ∧
  (∀ a b c d : F32, isNaN a = true ∨ isNaN b = true ∨ isNaN c = true ∨ isNaN d = true →
    isNaN (combine a b c d) = true) ∧
  (∀ (lp t e : F32) (g g' : Word32), isFinite (fmul lp 0x40000000#32) = true →
    isFinite (fmul 0x43ACC9A0#32 t) = true → e.toNat ≤ 0x3F70A3D7 →
    let y := combine (shape lp) (rumble t) (hissOf g) (crackleOf g' e)
    isFinite y = true ∧ -(9078 * 2 ^ 149) ≤ 10000 * value y ∧ 10000 * value y ≤ 6713 * 2 ^ 149)

/-- 45_quantizer.md R140 ("The exactness is [derived: from this rule and 00_scope.md rule R12]"): for `|y| < 1` the
quantizer is exact, `n/512` with `n` the half-away rounding of `512 y`, the sign kept; NaN gives NaN; its ties and its
examples. -/
def Obligations.QuantizerIsExact : Prop :=
  (∀ y : F32, mag y < 2 ^ 149 → isFinite y = true →
    isFinite (quantize y) = true ∧ signBit (quantize y) = signBit y ∧
    mag (quantize y) * 512 = (2 * (512 * mag y) + 2 ^ 149) / (2 * 2 ^ 149) * 2 ^ 149) ∧
  (∀ y : F32, isNaN y = true → isNaN (quantize y) = true) ∧
  (∀ y : F32, signBit y = true → 2 ^ 10 * mag y < 2 ^ 149 → isFinite y = true → quantize y = 0x80000000#32) ∧
  quantize 0x3A800000#32 = 0x3B000000#32 ∧ quantize 0xBB400000#32 = 0xBB800000#32 ∧
  quantize 0x3B5E5EEE#32 = 0x3B800000#32

/-- 45_quantizer.md R141: the clamp on every operand; a NaN passes and is emitted as `NAN_OUT`. -/
def Obligations.ClampOnEveryOperand : Prop :=
  (∀ v : F32, isNaN v = true → clampOut v = v ∧ outWord (clampOut v) = nanOut) ∧
  (∀ v : F32, isFinite v = true →
    clampOut v = if value v < -(2 ^ 149) then 0xBF800000#32 else if 2 ^ 149 < value v then 0x3F800000#32 else v) ∧
  clampOut 0x7F800000#32 = 0x3F800000#32 ∧ clampOut 0xFF800000#32 = 0xBF800000#32 ∧
  clampOut 0x80000000#32 = 0x80000000#32 ∧ clampOut 0x3B800000#32 = 0x3B800000#32

/-- 40_commands.md R72 (its example) and 42_filters.md R102: at an infinite rate every finite first sample emits
`0x3B800000`, with no assumption on `sinF` and `expF`. -/
def Obligations.FirstWordAtInfiniteRate : Prop :=
  ∀ (s : State) (x : F32), s.mode = .idle → s.outq = [] → isFinite x = true →
    ∃ t u, exec (.beginCall 0x7F800000#32) s = .next t ∧ t.hpA = 0x3F800000#32 ∧ t.lpA = 0x3F800000#32 ∧
      exec (.sample x) t = .next u ∧ u.outq = [0x3B800000#32] ∧ u.rng = 0x999FF73A#32 ∧ u.idx = 1#64 ∧
      u.lpY = 0x00000000#32 ∧ u.env = 0x00000000#32 ∧ u.hpX = u.hpY

/-! ### Corner cases that the spec's own formulas contradict (log entry 17); expected to fail -/

/-- 41_modulation.md R93, "for finite `t`, `am` lies in ...": a finite `t` can overflow the oscillator argument, and
`sinF` of an infinity is a NaN (log entry 17). -/
def Obligations.FiniteTimeGivesFiniteModulation : Prop :=
  ∀ t : F32, isFinite t = true → isNaN (am t) = false

/-- 41_modulation.md R90, "a positive subnormal `SR` gives `t = +Inf` for `i >= 1`, by overflow": the quotient of 1 by
a subnormal above `2^-128` does not overflow (at `2^-128` itself it does; log entry 17). -/
def Obligations.SubnormalRateGivesInfiniteTime : Prop :=
  ∀ (sr : F32) (i : BitVec 64), 0 < sr.toNat → sr.toNat < 2 ^ 23 → 1 ≤ i.toNat → sampleTime i sr = 0x7F800000#32

/-- 43_waveshaper.md R110, "for `|v| >= 2^24` ... the result is exactly `+-1.0`": at `2^24 + 2` the sum `1 + |v|` is a
tie that rounds up (log entry 17). -/
def Obligations.SoftClipSaturatesFromTwoPow24 : Prop :=
  ∀ v : F32, isFinite v = true → 0x4B800000 ≤ absBits v → absBits (softClip v) = 0x3F800000

/-! ### Calls and runs -/

/-- 40_commands.md section 6, R76 (marked there "derived: from rule R71, rule R72, rule R73 and rule R74"): a `CALL`
from IDLE, made by a host that offers each command and reads each word, ends in IDLE and emits exactly the words of
R72 in order: none if the rate is degenerate, else one per sample; the run is clean and its observation is that one
call (60_exceptions.md R174). The host's schedule is the model's choice (log entry 3), and so is how the observation
is split (log entry 24). -/
def Obligations.CallEmitsOneWordPerSample : Prop :=
  ∀ (s : State) (sr : F32) (xs : List F32), s.mode = .idle → s.port = [] → s.outq = [] → xs.length < 2 ^ 64 →
    ∃ t ws, Host.Core.run Sys2Proof.core (callTurns sr xs).length { s with turns := callTurns sr xs } = .next t ∧
      t.mode = .idle ∧ t.cause = s.cause ∧ t.port = [] ∧ t.outq = [] ∧ t.turns = [] ∧
      t.hostWords = s.hostWords ++ ws ∧
      ws = (if fle sr 0x00000000#32 then [] else callOutputs (s.openCall sr) xs) ∧
      ws.length = (if fle sr 0x00000000#32 then 0 else xs.length) ∧
      (s.rxBytes = [] → cleanRun s t ∧ observation s (callStream sr xs) t = some [ws])

/-- 40_commands.md section 6, R77 (marked there "derived: from rule R71, rule R72 and rule R75"), its three points:
the words a command stream emits are the same from any two states that agree on the call, so they do not depend on
earlier calls; a `NOP` anywhere in the stream changes none of them; and every step keeps the words emitted so far
followed by those the pending commands emit, whatever the host reads and whenever, so when it reads changes no word
either. The schedule of turns is the model's choice (log entry 3). -/
def Obligations.CallWordsDependOnTheCallOnly : Prop :=
  (∀ (is : List Instr) (s t : State), sameCall s t → commandWords is s = commandWords is t) ∧
  (∀ (is js : List Instr) (opnd : BitVec 32) (s : State),
    commandWords (is ++ .nop opnd :: js) s = commandWords (is ++ js) s) ∧
  (∀ (ws : List Word32) (s t : State), deliveryInv ws s → step s = .next t → deliveryInv ws t)

/-- 60_exceptions.md R166: stepping one instance leaves every other as it is, and steps of two instances commute. That
a system is a list of states, one stepped at a time, is the model's choice (log entry 19). -/
def Obligations.InstancesAreIndependent : Prop :=
  (∀ (k j : Nat) (sys sys' : List State), k ≠ j → stepInstance k sys = .next sys' →
    sys'.length = sys.length ∧ sys'[j]? = sys[j]?) ∧
  (∀ (k j : Nat) (sys a b ab : List State), k ≠ j → stepInstance k sys = .next a → stepInstance j sys = .next b →
    stepInstance j a = .next ab → stepInstance k b = .next ab)

/-- 30_encoding.md R62: the expansion of the pseudo-commands, as command words. -/
def Obligations.PseudoCommandsExpand : Prop :=
  (∀ (sr : F32) (xs : List F32),
    assembleLines [.call sr xs] =
      (0x00000001#32 ++ sr) :: (xs.map fun x => (0x00000002#32 ++ x)) ++ [0x0000000300000000#64]) ∧
  (∀ n : Nat, assembleLines [.pad n] = List.replicate n 0x0000000000000000#64)
end

