-- ==== Sys2Proof/Laws/Float.lean ====
section
/-! SUPPORT. What the binary32 primitives can do, said once: the fields of a packed pattern, rounding (exact on
representable values, monotone, within half a unit in the last place), and the NaN rules. -/

namespace Sys2Proof.Machine

/-! ### Rounding a fraction to an integer -/

theorem roundHalfEven_error (n d : Nat) (hd : 0 < d) :
    2 * (roundHalfEven n d * d) ≤ 2 * n + d ∧ 2 * n ≤ 2 * (roundHalfEven n d * d) + d := by
  have h := Nat.div_add_mod n d
  have hr := Nat.mod_lt n hd
  have hc : d * (n / d) = n / d * d := Nat.mul_comm _ _
  unfold roundHalfEven
  split
  · rename_i hs
    have : (n / d + 1) * d = n / d * d + d := by ring
    omega
  · omega

theorem roundHalfEven_mul (k d : Nat) (hd : 0 < d) : roundHalfEven (k * d) d = k := by
  simp [roundHalfEven, hd]
  omega

/-- A tie is rounded to an even integer. -/
theorem roundHalfEven_tie (n d : Nat) (hd : 0 < d)
    (h : 2 * n = 2 * (roundHalfEven n d * d) + d ∨ 2 * (roundHalfEven n d * d) = 2 * n + d) :
    roundHalfEven n d % 2 = 0 := by
  have hq := Nat.div_add_mod n d
  have hr := Nat.mod_lt n hd
  have hc : d * (n / d) = n / d * d := Nat.mul_comm _ _
  unfold roundHalfEven at h ⊢
  split at h <;> rename_i hs
  · have : (n / d + 1) * d = n / d * d + d := by ring
    rw [if_pos hs]; omega
  · rw [if_neg hs]; omega

theorem roundHalfEven_mono {n d n' d' : Nat} (hd : 0 < d) (hd' : 0 < d') (h : n * d' ≤ n' * d) :
    roundHalfEven n d ≤ roundHalfEven n' d' := by
  have hq : n / d ≤ n' / d' := by
    rw [Nat.le_div_iff_mul_le hd']
    have h1 : n / d * d ≤ n := Nat.div_mul_le_self n d
    have h2 : n / d * d' * d ≤ n' * d := by
      calc n / d * d' * d = n / d * d * d' := by ring
        _ ≤ n * d' := Nat.mul_le_mul_right _ h1
        _ ≤ n' * d := h
    exact Nat.le_of_mul_le_mul_right h2 hd
  rcases Nat.lt_or_eq_of_le hq with hlt | heq
  · have : roundHalfEven n d ≤ n / d + 1 := by unfold roundHalfEven; split <;> omega
    have : n' / d' ≤ roundHalfEven n' d' := by unfold roundHalfEven; split <;> omega
    omega
  · have e := Nat.div_add_mod n d
    have e' := Nat.div_add_mod n' d'
    have key : n % d * d' ≤ n' % d' * d := by
      have h1 : n * d' = d * (n / d) * d' + n % d * d' := by rw [← Nat.add_mul, e]
      have h2 : n' * d = d' * (n' / d') * d + n' % d' * d := by rw [← Nat.add_mul, e']
      have h3 : d * (n / d) * d' = d' * (n' / d') * d := by rw [heq]; ring
      omega
    unfold roundHalfEven
    rw [heq]
    split_ifs with h1 h2
    · exact le_refl _
    · exfalso
      apply h2
      rcases h1 with h1 | ⟨h1, hodd⟩
      · left
        by_contra hc
        have a : d * d' < 2 * (n % d) * d' := Nat.mul_lt_mul_of_pos_right h1 hd'
        have b : 2 * (n' % d') * d ≤ d' * d := Nat.mul_le_mul_right _ (not_lt.mp hc)
        nlinarith
      · by_cases hc : d' < 2 * (n' % d')
        · exact Or.inl hc
        · right
          refine ⟨?_, hodd⟩
          have a : d * d' = 2 * (n % d) * d' := by rw [h1]
          have b : d' * d ≤ 2 * (n' % d') * d := by nlinarith
          have := Nat.le_of_mul_le_mul_right b hd
          omega
    · omega
    · exact le_refl _

/-! ### The layout of a magnitude -/

theorem magOfBits_small {b : Nat} (h : b ≤ 2 ^ 24) : magOfBits b = b := by
  unfold magOfBits
  split
  · rfl
  · rename_i hne
    rcases Nat.lt_or_eq_of_le h with hlt | rfl
    · have : b / 2 ^ 23 = 1 := by omega
      rw [this]; omega
    · decide

/-- A significand `m` of 24 bits (or its carry `2^24`) with `e` low zero bits. -/
theorem magOfBits_scaled {e m : Nat} (h1 : 2 ^ 23 ≤ m) (h2 : m ≤ 2 ^ 24) :
    magOfBits (e * 2 ^ 23 + m) = m * 2 ^ e := by
  unfold magOfBits
  rcases Nat.lt_or_eq_of_le h2 with hlt | rfl
  · have hd : (e * 2 ^ 23 + m) / 2 ^ 23 = e + 1 := by omega
    have hm : (e * 2 ^ 23 + m) % 2 ^ 23 = m - 2 ^ 23 := by omega
    rw [hd, hm, if_neg (by omega), Nat.sub_add_cancel h1, Nat.add_sub_cancel]
  · have hd : (e * 2 ^ 23 + 2 ^ 24) / 2 ^ 23 = e + 2 := by omega
    have hm : (e * 2 ^ 23 + 2 ^ 24) % 2 ^ 23 = 0 := by omega
    rw [hd, hm, if_neg (by omega), show e + 2 - 1 = e + 1 by omega, pow_succ]; ring

/-- Every magnitude is a significand with some low zero bits. -/
theorem bits_split (b : Nat) :
    b < 2 ^ 23 ∨ ∃ e m, b = e * 2 ^ 23 + m ∧ 2 ^ 23 ≤ m ∧ m < 2 ^ 24 := by
  by_cases h : b < 2 ^ 23
  · exact Or.inl h
  · exact Or.inr ⟨b / 2 ^ 23 - 1, b % 2 ^ 23 + 2 ^ 23, by omega, by omega, by omega⟩

theorem magOfBits_succ_lt (b : Nat) : magOfBits b < magOfBits (b + 1) := by
  rcases bits_split b with h | ⟨e, m, rfl, h1, h2⟩
  · rw [magOfBits_small (by omega), magOfBits_small (by omega)]; omega
  · rw [Nat.add_assoc, magOfBits_scaled h1 (by omega), magOfBits_scaled (by omega) (by omega)]
    exact Nat.mul_lt_mul_of_pos_right (by omega) (by positivity)

theorem magOfBits_strictMono : StrictMono magOfBits := strictMono_nat_of_lt_succ magOfBits_succ_lt

theorem magOfBits_le_iff {a b : Nat} : magOfBits a ≤ magOfBits b ↔ a ≤ b :=
  magOfBits_strictMono.le_iff_le

@[simp] theorem magOfBits_zero : magOfBits 0 = 0 := by decide

/-! ### Rounding to binary32 -/

/-- The bits before the overflow to infinity. -/
theorem excess_spec (n d : Nat) :
    n / d < 2 ^ (excess n d + 24) ∧ (excess n d ≠ 0 → 2 ^ (excess n d + 23) ≤ n / d) := by
  unfold excess
  by_cases h0 : n / d = 0
  · simp [h0]
  · have hlt : n / d < 2 ^ (Nat.log2 (n / d) + 1) := Nat.lt_log2_self
    have hle : 2 ^ Nat.log2 (n / d) ≤ n / d := Nat.log2_self_le h0
    constructor
    · exact lt_of_lt_of_le hlt (Nat.pow_le_pow_right (by omega) (by omega))
    · intro hne
      rwa [Nat.sub_add_cancel (by omega)]

/-- The significand that rounding gives has 24 bits, or is the carry, or (no low bits dropped) is smaller. -/
theorem significand_bounds (n d : Nat) (hd : 0 < d) :
    roundHalfEven n (d * 2 ^ excess n d) ≤ 2 ^ 24 ∧
      (excess n d ≠ 0 → 2 ^ 23 ≤ roundHalfEven n (d * 2 ^ excess n d)) := by
  obtain ⟨hlt, hge⟩ := excess_spec n d
  generalize excess n d = e at *
  have hp : 0 < d * 2 ^ e := by positivity
  constructor
  · have h : n * (d * 2 ^ e) ≤ (2 ^ 24 * (d * 2 ^ e)) * (d * 2 ^ e) := by
      apply Nat.mul_le_mul_right
      have : n < 2 ^ (e + 24) * d := (Nat.div_lt_iff_lt_mul hd).mp hlt
      have : 2 ^ (e + 24) * d = 2 ^ 24 * (d * 2 ^ e) := by rw [pow_add]; ring
      omega
    have := roundHalfEven_mono hp hp h
    rwa [roundHalfEven_mul _ _ hp] at this
  · intro hne
    have h : (2 ^ 23 * (d * 2 ^ e)) * (d * 2 ^ e) ≤ n * (d * 2 ^ e) := by
      apply Nat.mul_le_mul_right
      have h1 : 2 ^ (e + 23) * d ≤ n := (Nat.le_div_iff_mul_le hd).mp (hge hne)
      have : 2 ^ (e + 23) * d = 2 ^ 23 * (d * 2 ^ e) := by rw [pow_add]; ring
      omega
    have := roundHalfEven_mono hp hp h
    rwa [roundHalfEven_mul _ _ hp] at this

/-- The magnitude of the rounded bits, overflow apart. -/
theorem magOfBits_rounded (n d : Nat) (hd : 0 < d) :
    magOfBits (excess n d * 2 ^ 23 + roundHalfEven n (d * 2 ^ excess n d)) =
      roundHalfEven n (d * 2 ^ excess n d) * 2 ^ excess n d := by
  obtain ⟨h1, h2⟩ := significand_bounds n d hd
  by_cases he : excess n d = 0
  · simp only [he, pow_zero, mul_one, zero_mul, zero_add] at *
    exact magOfBits_small h1
  · exact magOfBits_scaled (h2 he) h1

theorem roundBits_le_infBits (n d : Nat) : roundBits n d ≤ infBits := min_le_right _ _

/-- Rounding is monotone in the exact value. -/
theorem roundBits_mono {n d n' d' : Nat} (hd : 0 < d) (hd' : 0 < d') (h : n * d' ≤ n' * d) :
    roundBits n d ≤ roundBits n' d' := by
  unfold roundBits
  apply min_le_min_right
  have hq : n / d ≤ n' / d' := by
    rw [Nat.le_div_iff_mul_le hd']
    have h1 : n / d * d ≤ n := Nat.div_mul_le_self n d
    have h2 : n / d * d' * d ≤ n' * d := by
      calc n / d * d' * d = n / d * d * d' := by ring
        _ ≤ n * d' := Nat.mul_le_mul_right _ h1
        _ ≤ n' * d := h
    exact Nat.le_of_mul_le_mul_right h2 hd
  have he : excess n d ≤ excess n' d' := by
    by_contra hc
    have hc := not_le.mp hc
    have hne : excess n d ≠ 0 := by omega
    have a := (excess_spec n d).2 hne
    have b := (excess_spec n' d').1
    have : 2 ^ (excess n' d' + 24) ≤ 2 ^ (excess n d + 23) := Nat.pow_le_pow_right (by omega) (by omega)
    omega
  rcases Nat.lt_or_eq_of_le he with hlt | heq
  · have a := (significand_bounds n d hd).1
    have b := (significand_bounds n' d' hd').2 (by omega)
    omega
  · rw [heq]
    have : roundHalfEven n (d * 2 ^ excess n' d') ≤ roundHalfEven n' (d' * 2 ^ excess n' d') := by
      apply roundHalfEven_mono (by positivity) (by positivity)
      calc n * (d' * 2 ^ excess n' d') = n * d' * 2 ^ excess n' d' := by ring
        _ ≤ n' * d * 2 ^ excess n' d' := Nat.mul_le_mul_right _ h
        _ = n' * (d * 2 ^ excess n' d') := by ring
    omega

/-- A representable value is not changed by rounding. -/
theorem roundBits_exact {b d : Nat} (hb : b ≤ infBits) (hd : 0 < d) : roundBits (magOfBits b * d) d = b := by
  have hmag := magOfBits_rounded (magOfBits b * d) d hd
  have herr := roundHalfEven_error (magOfBits b * d) (d * 2 ^ excess (magOfBits b * d) d) (by positivity)
  have hsig := significand_bounds (magOfBits b * d) d hd
  have hex := excess_spec (magOfBits b * d) d
  rw [Nat.mul_div_cancel _ hd] at hex
  unfold roundBits
  suffices hs : excess (magOfBits b * d) d * 2 ^ 23 +
      roundHalfEven (magOfBits b * d) (d * 2 ^ excess (magOfBits b * d) d) = b by
    rw [hs]; exact min_eq_left hb
  apply magOfBits_strictMono.injective
  rw [hmag]
  generalize excess (magOfBits b * d) d = e at *
  by_cases he : e = 0
  · subst he
    simp only [pow_zero, mul_one]
    exact roundHalfEven_mul _ _ hd
  · have hge := hex.2 he
    rcases bits_split b with hb' | ⟨f, m, rfl, hm1, hm2⟩
    · rw [magOfBits_small (by omega)] at hge
      have : 2 ^ 23 ≤ 2 ^ (e + 23) := Nat.pow_le_pow_right (by omega) (by omega)
      omega
    · rw [magOfBits_scaled hm1 hm2.le] at hge hex ⊢
      have hef : e = f := by
        have l1 : m * 2 ^ f < 2 ^ (f + 24) := by
          rw [pow_add, mul_comm (2 ^ f)]; exact Nat.mul_lt_mul_of_pos_right hm2 (by positivity)
        have l2 : 2 ^ (f + 23) ≤ m * 2 ^ f := by
          rw [pow_add, mul_comm (2 ^ f)]; exact Nat.mul_le_mul_right _ hm1
        have a : e + 23 < f + 24 := (Nat.pow_lt_pow_iff_right (by omega)).mp (lt_of_le_of_lt hge l1)
        have c : f + 23 < e + 24 := (Nat.pow_lt_pow_iff_right (by omega)).mp (lt_of_le_of_lt l2 hex.1)
        omega
      subst hef
      rw [show m * 2 ^ e * d = m * (d * 2 ^ e) by ring, roundHalfEven_mul _ _ (by positivity)]

/-- A value at most a representable one rounds to at most it. -/
theorem roundBits_le {n d b : Nat} (hb : b ≤ infBits) (hd : 0 < d) (h : n ≤ magOfBits b * d) :
    roundBits n d ≤ b :=
  le_of_le_of_eq (roundBits_mono hd hd (Nat.mul_le_mul_right d h)) (roundBits_exact hb hd)

/-- A value at least a representable one rounds to at least it. -/
theorem le_roundBits {n d b : Nat} (hb : b ≤ infBits) (hd : 0 < d) (h : magOfBits b * d ≤ n) :
    b ≤ roundBits n d :=
  le_of_eq_of_le (roundBits_exact hb hd).symm (roundBits_mono hd hd (Nat.mul_le_mul_right d h))

/-- Rounding is within half a unit in the last place of the exact value, overflow apart. -/
theorem roundBits_error {n d : Nat} (hd : 0 < d) (h : roundBits n d < infBits) :
    2 * (magOfBits (roundBits n d) * d) ≤ 2 * n + d * 2 ^ excess n d ∧
      2 * n ≤ 2 * (magOfBits (roundBits n d) * d) + d * 2 ^ excess n d := by
  have heq : roundBits n d = excess n d * 2 ^ 23 + roundHalfEven n (d * 2 ^ excess n d) := by
    unfold roundBits at h ⊢
    rcases Nat.le_total (excess n d * 2 ^ 23 + roundHalfEven n (d * 2 ^ excess n d)) infBits with hle | hle
    · exact min_eq_left hle
    · rw [min_eq_right hle] at h; omega
  rw [heq, magOfBits_rounded n d hd]
  have := roundHalfEven_error n (d * 2 ^ excess n d) (by positivity)
  rwa [show roundHalfEven n (d * 2 ^ excess n d) * 2 ^ excess n d * d =
    roundHalfEven n (d * 2 ^ excess n d) * (d * 2 ^ excess n d) by ring]

/-- Below `2^24` units in the last place kept, the dropped part is at most half of `2^-23` of the value. -/
theorem excess_le_of_lt {n d k : Nat} (hd : 0 < d) (h : n < 2 ^ (k + 24) * d) : excess n d ≤ k := by
  by_contra hc
  have hc := not_le.mp hc
  have a := (excess_spec n d).2 (by omega)
  have b : n / d < 2 ^ (k + 24) := (Nat.div_lt_iff_lt_mul hd).mpr h
  have : 2 ^ (k + 24) ≤ 2 ^ (excess n d + 23) := Nat.pow_le_pow_right (by omega) (by omega)
  omega

@[simp] theorem roundBits_zero (d : Nat) (hd : 0 < d) : roundBits 0 d = 0 := by
  have h := roundBits_exact (b := 0) (d := d) (by decide) hd
  rwa [magOfBits_zero, Nat.zero_mul] at h

/-! ### The fields of a pattern -/

theorem absBits_lt (a : F32) : absBits a < 2 ^ 31 := Nat.mod_lt _ (by decide)

theorem signBit_eq (a : F32) : signBit a = decide (2 ^ 31 ≤ a.toNat) := by
  have h := a.isLt
  unfold signBit
  rw [BitVec.getLsbD, Nat.testBit_eq_decide_div_mod_eq]
  apply decide_eq_decide.mpr
  omega

/-- A pattern is its sign and its other bits. -/
theorem toNat_split (a : F32) : a.toNat = (if signBit a then 2 ^ 31 else 0) + absBits a := by
  have h := a.isLt
  rw [signBit_eq]
  unfold absBits
  by_cases hs : 2 ^ 31 ≤ a.toNat
  · rw [if_pos (by simpa using hs)]; omega
  · rw [if_neg (by simpa using hs)]; omega

theorem toNat_pack (neg : Bool) {bits : Nat} (h : bits < 2 ^ 31) :
    (pack neg bits).toNat = (if neg then 2 ^ 31 else 0) + bits := by
  unfold pack
  rw [BitVec.toNat_ofNat]
  apply Nat.mod_eq_of_lt
  split <;> omega

theorem absBits_pack (neg : Bool) {bits : Nat} (h : bits < 2 ^ 31) : absBits (pack neg bits) = bits := by
  unfold absBits
  rw [toNat_pack neg h]
  cases neg <;> simp <;> omega

theorem signBit_pack (neg : Bool) {bits : Nat} (h : bits < 2 ^ 31) : signBit (pack neg bits) = neg := by
  rw [signBit_eq, toNat_pack neg h]
  cases neg <;> simp; omega

/-- A pattern is packed from its fields. -/
theorem pack_fields (a : F32) : pack (signBit a) (absBits a) = a := by
  apply BitVec.eq_of_toNat_eq
  rw [toNat_pack _ (absBits_lt a), ← toNat_split]

/-- Two patterns with the same sign and the same other bits are equal. -/
theorem eq_of_fields {a b : F32} (hs : signBit a = signBit b) (hb : absBits a = absBits b) : a = b := by
  rw [← pack_fields a, ← pack_fields b, hs, hb]

theorem roundBits_lt (n d : Nat) : roundBits n d < 2 ^ 31 :=
  lt_of_le_of_lt (roundBits_le_infBits n d) (by decide)

@[simp] theorem absBits_pack_round (neg : Bool) (n d : Nat) :
    absBits (pack neg (roundBits n d)) = roundBits n d := absBits_pack neg (roundBits_lt n d)

@[simp] theorem signBit_pack_round (neg : Bool) (n d : Nat) :
    signBit (pack neg (roundBits n d)) = neg := signBit_pack neg (roundBits_lt n d)

/-- A rounded result is never a NaN. -/
@[simp] theorem isNaN_pack_round (neg : Bool) (n d : Nat) : isNaN (pack neg (roundBits n d)) = false := by
  simp [isNaN, roundBits_le_infBits]

theorem isFinite_iff (a : F32) : isFinite a = true ↔ isNaN a = false ∧ isInf a = false := by
  simp only [isFinite, isNaN, isInf, decide_eq_true_eq, decide_eq_false_iff_not]
  omega

theorem isZero_pack (neg : Bool) : isZero (pack neg 0) = true := by cases neg <;> decide

theorem value_pack (neg : Bool) {bits : Nat} (h : bits < 2 ^ 31) :
    value (pack neg bits) = if neg then -(magOfBits bits : Int) else (magOfBits bits : Int) := by
  simp [value, mag, absBits_pack neg h, signBit_pack neg h]

theorem natAbs_value (a : F32) : (value a).natAbs = mag a := by
  unfold value; split <;> simp

theorem signBit_fneg (a : F32) : signBit (fneg a) = !signBit a := by
  simp [signBit, fneg]

theorem toNat_fabs (a : F32) : (fabs a).toNat = absBits a := by
  have h : (0x7FFFFFFF#32).toNat = 2 ^ 31 - 1 := by decide
  rw [fabs, BitVec.toNat_and, h, Nat.and_two_pow_sub_one_eq_mod]
  rfl

theorem absBits_fabs (a : F32) : absBits (fabs a) = absBits a := by
  have h := absBits_lt a
  rw [absBits, toNat_fabs]; omega

theorem signBit_fabs (a : F32) : signBit (fabs a) = false := by
  have h := absBits_lt a
  rw [signBit_eq, toNat_fabs]; simp; omega

theorem absBits_fneg (a : F32) : absBits (fneg a) = absBits a := by
  rw [absBits, fneg, BitVec.toNat_xor, Nat.xor_mod_two_pow,
    show (0x80000000#32).toNat % 2 ^ 31 = 0 by decide, Nat.xor_zero]
  rfl

theorem value_fneg (a : F32) : value (fneg a) = -value a := by
  simp only [value, mag, absBits_fneg, signBit_fneg]
  cases signBit a <;> simp

/-! ### NaN results (R16) -/

theorem nanPattern_bits (bits : BitVec 24) :
    infBits + max 1 (bits.toNat % 2 ^ 23) < 2 ^ 31 := by
  have : bits.toNat % 2 ^ 23 < 2 ^ 23 := Nat.mod_lt _ (by decide)
  unfold infBits; omega

@[simp] theorem isNaN_nanPattern (bits : BitVec 24) : isNaN (nanPattern bits) = true := by
  unfold isNaN nanPattern
  rw [absBits_pack _ (nanPattern_bits bits)]
  simp

@[simp] theorem isNaN_nanResult (op : FpOp) (a b : F32) : isNaN (nanResult op a b) = true := isNaN_nanPattern _

@[simp] theorem isNaN_nanOut : isNaN nanOut = true := isNaN_nanPattern _

/-- Every NaN pattern is one that the free values can name. -/
theorem exists_nanPattern {a : F32} (h : isNaN a = true) : ∃ bits, nanPattern bits = a := by
  have hn : infBits < absBits a := by simpa [isNaN] using h
  have hlt := absBits_lt a
  have hi : infBits = 0x7F800000 := rfl
  let b : BitVec 24 := BitVec.ofNat 24 ((if signBit a then 2 ^ 23 else 0) + (absBits a - infBits))
  have hb : b.toNat = (if signBit a then 2 ^ 23 else 0) + (absBits a - infBits) := by
    apply (BitVec.toNat_ofNat _ _).trans
    apply Nat.mod_eq_of_lt
    split <;> omega
  refine ⟨b, eq_of_fields ?_ ?_⟩
  · rw [nanPattern, signBit_pack _ (nanPattern_bits b), BitVec.getLsbD, Nat.testBit_eq_decide_div_mod_eq, hb]
    by_cases hs : signBit a = true
    · have : (2 ^ 23 + (absBits a - infBits)) / 2 ^ 23 = 1 := by omega
      simp only [hs, if_true, this]; decide
    · have : (0 + (absBits a - infBits)) / 2 ^ 23 = 0 := by omega
      simp only [hs, Bool.false_eq_true, if_false, this]; decide
  · rw [nanPattern, absBits_pack _ (nanPattern_bits b), hb]
    split <;> omega

/-! ### NaN in, NaN out (R16) -/

theorem isNaN_fadd (a b : F32) (h : (isNaN a || isNaN b) = true) : isNaN (fadd a b) = true := by
  simp [fadd, sumAs, h]

theorem isNaN_fneg (a : F32) : isNaN (fneg a) = isNaN a := by simp [isNaN, absBits_fneg]

theorem isNaN_fabs (a : F32) : isNaN (fabs a) = isNaN a := by simp [isNaN, absBits_fabs]

theorem isNaN_fsub (a b : F32) (h : (isNaN a || isNaN b) = true) : isNaN (fsub a b) = true := by
  simp [fsub, sumAs, isNaN_fneg, h]

theorem isNaN_fmul (a b : F32) (h : (isNaN a || isNaN b) = true) : isNaN (fmul a b) = true := by
  simp [fmul, h]

theorem isNaN_fdiv (a b : F32) (h : (isNaN a || isNaN b) = true) : isNaN (fdiv a b) = true := by
  simp [fdiv, h]

theorem isNaN_fround (a : F32) (h : isNaN a = true) : isNaN (fround a) = true := by
  simp [fround, h]

/-! ### The operations on finite operands, as one rounding of the exact result -/

theorem fadd_finite {a b : F32} (ha : isFinite a = true) (hb : isFinite b = true) :
    fadd a b = roundInt (signBit a && signBit b) (value a + value b) := by
  obtain ⟨a1, a2⟩ := (isFinite_iff a).mp ha
  obtain ⟨b1, b2⟩ := (isFinite_iff b).mp hb
  simp [fadd, sumAs, a1, a2, b1, b2]

theorem isFinite_fneg (a : F32) : isFinite (fneg a) = isFinite a := by simp [isFinite, absBits_fneg]

theorem isFinite_fabs (a : F32) : isFinite (fabs a) = isFinite a := by simp [isFinite, absBits_fabs]

theorem fsub_finite {a b : F32} (ha : isFinite a = true) (hb : isFinite b = true) :
    fsub a b = roundInt (signBit a && !signBit b) (value a - value b) := by
  obtain ⟨a1, a2⟩ := (isFinite_iff a).mp ha
  obtain ⟨b1, b2⟩ := (isFinite_iff (fneg b)).mp ((isFinite_fneg b).trans hb)
  simp [fsub, sumAs, a1, a2, b1, b2, signBit_fneg, value_fneg, Int.sub_eq_add_neg]

theorem fmul_finite {a b : F32} (ha : isFinite a = true) (hb : isFinite b = true) :
    fmul a b = pack (signBit a != signBit b) (roundBits (mag a * mag b) unit) := by
  obtain ⟨a1, a2⟩ := (isFinite_iff a).mp ha
  obtain ⟨b1, b2⟩ := (isFinite_iff b).mp hb
  simp [fmul, a1, a2, b1, b2]

theorem fdiv_finite {a b : F32} (ha : isFinite a = true) (hb : isFinite b = true) (h0 : isZero b = false) :
    fdiv a b = pack (signBit a != signBit b) (roundBits (mag a * unit) (mag b)) := by
  obtain ⟨a1, a2⟩ := (isFinite_iff a).mp ha
  obtain ⟨b1, b2⟩ := (isFinite_iff b).mp hb
  simp [fdiv, a1, a2, b1, b2, h0]

/-- An exact value that is representable is the result, with no rounding. -/
theorem value_roundInt {zeroNeg : Bool} {v : Int} {bits : Nat} (hb : bits ≤ infBits)
    (h : v.natAbs = magOfBits bits) : value (roundInt zeroNeg v) = v := by
  have hr : roundBits v.natAbs 1 = bits := by
    have := roundBits_exact (b := bits) (d := 1) hb (by decide)
    rwa [Nat.mul_one, ← h] at this
  have hlt : bits < 2 ^ 31 := lt_of_le_of_lt hb (by decide)
  rw [roundInt, hr, value_pack _ hlt, ← h]
  by_cases h0 : v = 0
  · simp [h0]
  · simp only [h0, if_false, decide_eq_true_eq]
    split <;> omega

/-- The exact magnitudes a finite pattern can have. -/
theorem mag_pos_of_not_isZero {a : F32} (h : isZero a = false) : 0 < mag a := by
  have h0 : absBits a ≠ 0 := by simpa [isZero] using h
  have := magOfBits_strictMono (Nat.pos_of_ne_zero h0)
  rwa [magOfBits_zero] at this

end Sys2Proof.Machine
end

