-- ==== Sys2Proof/Laws/Bounds.lean ====
section
/-! SUPPORT. Bounds through the binary32 operations: a bound that is itself a binary32 value survives the rounding
(00_scope.md R12), so an interval of exact results is an interval of rounded ones. -/

namespace Sys2Proof.Machine

theorem absBits_lt_infBits {a : F32} (h : isFinite a = true) : absBits a < infBits := by
  simpa [isFinite] using h

theorem isFinite_pack {neg : Bool} {bits : Nat} (h : bits < infBits) : isFinite (pack neg bits) = true := by
  have hlt : bits < 2 ^ 31 := lt_trans h (by decide)
  simpa [isFinite, absBits_pack neg hlt] using h

theorem mag_le_iff {a b : F32} : mag a ≤ mag b ↔ absBits a ≤ absBits b := magOfBits_le_iff

theorem value_of_sign {a : F32} (h : signBit a = false) : value a = mag a := by simp [value, h]

theorem value_of_sign_neg {a : F32} (h : signBit a = true) : value a = -(mag a : Int) := by simp [value, h]

/-- The order of the patterns is the order of the values. -/
theorem value_le_iff_ordKey (a b : F32) : value a ≤ value b ↔ ordKey a ≤ ordKey b := by
  have e1 : mag a ≤ mag b ↔ absBits a ≤ absBits b := mag_le_iff
  have e2 : mag b ≤ mag a ↔ absBits b ≤ absBits a := mag_le_iff
  have z : ∀ c : F32, mag c = 0 ↔ absBits c = 0 := by
    intro c
    constructor
    · intro h
      by_contra hc
      have := magOfBits_strictMono (Nat.pos_of_ne_zero hc)
      rw [magOfBits_zero] at this
      exact absurd h (Nat.pos_iff_ne_zero.mp this)
    · intro h; rw [mag, h, magOfBits_zero]
  have za := z a
  have zb := z b
  unfold value ordKey
  cases signBit a <;> cases signBit b <;> simp <;> omega

theorem value_lt_iff_ordKey (a b : F32) : value a < value b ↔ ordKey a < ordKey b := by
  have h := value_le_iff_ordKey b a
  omega

/-- An exact integer value between two finite values rounds to a finite value between them. -/
theorem roundInt_between {zeroNeg : Bool} {v : Int} {l h : F32} (hl : isFinite l = true) (hh : isFinite h = true)
    (h1 : value l ≤ v) (h2 : v ≤ value h) :
    isFinite (roundInt zeroNeg v) = true ∧ value l ≤ value (roundInt zeroNeg v) ∧
      value (roundInt zeroNeg v) ≤ value h := by
  have ll := absBits_lt_infBits hl
  have lh := absBits_lt_infBits hh
  have bound : ∀ c : F32, absBits c < infBits → v.natAbs ≤ mag c → roundBits v.natAbs 1 ≤ absBits c := by
    intro c hc hv
    exact roundBits_le hc.le (by decide) (by simpa [mag] using hv)
  have bound' : ∀ c : F32, absBits c < infBits → mag c ≤ v.natAbs → absBits c ≤ roundBits v.natAbs 1 := by
    intro c hc hv
    exact le_roundBits hc.le (by decide) (by simpa [mag] using hv)
  have hfin : roundBits v.natAbs 1 < infBits := by
    by_cases hn : v.natAbs ≤ mag l
    · exact lt_of_le_of_lt (bound l ll hn) ll
    · refine lt_of_le_of_lt (bound h lh ?_) lh
      have := natAbs_value l
      have := natAbs_value h
      unfold value at h1 h2
      split at h1 <;> split at h2 <;> omega
  have hlt : roundBits v.natAbs 1 < 2 ^ 31 := roundBits_lt _ _
  refine ⟨isFinite_pack hfin, ?_, ?_⟩
  · rw [roundInt, value_pack _ hlt]
    by_cases hv : v = 0
    · subst hv
      simp only [Int.natAbs_zero, if_true, roundBits_zero 1 (by decide), magOfBits_zero]
      split <;> simpa using h1
    · simp only [hv, if_false, decide_eq_true_eq]
      split
      · have hs : value l = -(mag l : Int) := by
          unfold value at h1 ⊢; split at h1 <;> [simp_all; omega]
        have : roundBits v.natAbs 1 ≤ absBits l := bound l ll (by omega)
        have := magOfBits_le_iff.mpr this
        rw [hs]; unfold mag; omega
      · unfold value at h1 ⊢
        split at h1
        · rename_i hs; rw [if_pos hs]; omega
        · rename_i hs
          rw [if_neg hs]
          have : absBits l ≤ roundBits v.natAbs 1 := bound' l ll (by omega)
          have := magOfBits_le_iff.mpr this
          unfold mag; omega
  · rw [roundInt, value_pack _ hlt]
    by_cases hv : v = 0
    · subst hv
      simp only [Int.natAbs_zero, if_true, roundBits_zero 1 (by decide), magOfBits_zero]
      split <;> simpa using h2
    · simp only [hv, if_false, decide_eq_true_eq]
      split
      · unfold value at h2 ⊢
        split at h2
        · rename_i hs
          rw [if_pos hs]
          have : absBits h ≤ roundBits v.natAbs 1 := bound' h lh (by omega)
          have := magOfBits_le_iff.mpr this
          unfold mag; omega
        · rename_i hs; rw [if_neg hs]; omega
      · have hs : value h = (mag h : Int) := by
          unfold value at h2 ⊢; split at h2 <;> [omega; simp_all]
        have : roundBits v.natAbs 1 ≤ absBits h := bound h lh (by omega)
        have := magOfBits_le_iff.mpr this
        rw [hs]; unfold mag; omega

/-- A sum between two finite values is a finite value between them. -/
theorem fadd_between {a b l h : F32} (ha : isFinite a = true) (hb : isFinite b = true) (hl : isFinite l = true)
    (hh : isFinite h = true) (h1 : value l ≤ value a + value b) (h2 : value a + value b ≤ value h) :
    isFinite (fadd a b) = true ∧ value l ≤ value (fadd a b) ∧ value (fadd a b) ≤ value h := by
  rw [fadd_finite ha hb]; exact roundInt_between hl hh h1 h2

/-- A product of magnitude at most a finite value's has at most that magnitude. -/
theorem fmul_absBits_le {a b c : F32} (ha : isFinite a = true) (hb : isFinite b = true) (hc : isFinite c = true)
    (h : mag a * mag b ≤ mag c * unit) : absBits (fmul a b) ≤ absBits c := by
  rw [fmul_finite ha hb, absBits_pack_round]
  exact roundBits_le (absBits_lt_infBits hc).le (by decide) h

/-- A quotient of magnitude at most a finite value's has at most that magnitude. -/
theorem fdiv_absBits_le {a b c : F32} (ha : isFinite a = true) (hb : isFinite b = true) (h0 : isZero b = false)
    (hc : isFinite c = true) (h : mag a * unit ≤ mag c * mag b) : absBits (fdiv a b) ≤ absBits c := by
  rw [fdiv_finite ha hb h0, absBits_pack_round]
  exact roundBits_le (absBits_lt_infBits hc).le (mag_pos_of_not_isZero h0) h

/-- A result of magnitude at most a finite value's is finite. -/
theorem isFinite_of_absBits_le {a c : F32} (hc : isFinite c = true) (h : absBits a ≤ absBits c) :
    isFinite a = true := by
  have := absBits_lt_infBits hc
  simp only [isFinite, decide_eq_true_eq]; omega

/-- The sine is within `[-1, 1]` on finite operands (00_scope.md R15). -/
theorem absBits_sinF_le {a : F32} (h : isFinite a = true) : absBits (sinF a) ≤ oneBits := by
  obtain ⟨h1, h2⟩ := (isFinite_iff a).mp h
  unfold sinF
  simp only [h1, h2, Bool.or_self, Bool.false_eq_true, if_false]
  split
  · rename_i hz
    have : absBits a = 0 := by simpa [isZero] using hz
    omega
  · split
    · assumption
    · decide

end Sys2Proof.Machine
end

