-- ==== Sys2Proof/Laws/Decode.lean ====
section
/-! SUPPORT. The fields of an assembled word (30_encoding.md R55), and the word that eight bytes carry. -/

namespace Sys2Proof

@[simp] theorem rsv_assembleWord (opc : BitVec 8) (opnd : BitVec 32) : (assembleWord opc opnd).rsv = 0#24 := by
  apply BitVec.eq_of_getLsbD_eq
  intro i hi
  rw [assembleWord, CmdWord.rsv, BitVec.getLsbD_extractLsb', BitVec.getLsbD_append, BitVec.getLsbD_append]
  simp only [hi, decide_true, Bool.true_and, BitVec.getLsbD_zero]
  rw [if_neg (by omega), if_neg (by omega)]

@[simp] theorem opc_assembleWord (opc : BitVec 8) (opnd : BitVec 32) : (assembleWord opc opnd).opc = opc := by
  apply BitVec.eq_of_getLsbD_eq
  intro i hi
  rw [assembleWord, CmdWord.opc, BitVec.getLsbD_extractLsb', BitVec.getLsbD_append, BitVec.getLsbD_append]
  simp [hi]

@[simp] theorem opnd_assembleWord (opc : BitVec 8) (opnd : BitVec 32) : (assembleWord opc opnd).opnd = opnd := by
  apply BitVec.eq_of_getLsbD_eq
  intro i hi
  rw [assembleWord, CmdWord.opnd, BitVec.getLsbD_extractLsb', BitVec.getLsbD_append, BitVec.getLsbD_append]
  simp [hi]

end Sys2Proof
end

