-- ==== Sys2Proof/Laws/PerInstr.lean ====
section
/-! SUPPORT. The family EncodedWord: every command's word is a well-formed command word with that command's opcode
(30_encoding.md R55, R57), one lemma per constructor. -/

namespace Sys2Proof

/-- The opcode of a command (R57). -/
def Laws.EncodedWord.opcodeOf : Instr → BitVec 8
  | .nop _ => 0x00#8
  | .beginCall _ => 0x01#8
  | .sample _ => 0x02#8
  | .endCall => 0x03#8

/-- The word of `i` is well-formed and carries its opcode. -/
def Laws.EncodedWord.Statement (i : Instr) : Prop :=
  i.wellFormed = true ∧ CmdWord.wellFormed (encode i) = true ∧
    CmdWord.opc (encode i) = Laws.EncodedWord.opcodeOf i

theorem Laws.EncodedWord.nop (opnd : BitVec 32) : Laws.EncodedWord.Statement (.nop opnd) := by
  refine ⟨rfl, ?_, opc_assembleWord _ _⟩
  simp [encode, CmdWord.wellFormed, CmdWord.opcodeDefined, CmdWord.reservedClear, CmdWord.endOperandClear]

theorem Laws.EncodedWord.beginCall (sr : F32) : Laws.EncodedWord.Statement (.beginCall sr) := by
  refine ⟨rfl, ?_, opc_assembleWord _ _⟩
  simp [encode, CmdWord.wellFormed, CmdWord.opcodeDefined, CmdWord.reservedClear, CmdWord.endOperandClear]

theorem Laws.EncodedWord.sample (x : F32) : Laws.EncodedWord.Statement (.sample x) := by
  refine ⟨rfl, ?_, opc_assembleWord _ _⟩
  simp [encode, CmdWord.wellFormed, CmdWord.opcodeDefined, CmdWord.reservedClear, CmdWord.endOperandClear]

theorem Laws.EncodedWord.endCall : Laws.EncodedWord.Statement .endCall := by
  refine ⟨rfl, ?_, opc_assembleWord _ _⟩
  simp [encode, CmdWord.wellFormed, CmdWord.opcodeDefined, CmdWord.reservedClear, CmdWord.endOperandClear]

end Sys2Proof
end

