-- ==== Sys2Proof/Laws/State.lean ====
section
/-! SUPPORT. One lemma per field per update of the state, so that no later proof unfolds a record update; then the
operations that compute what they write (opening a call, processing a sample). -/

namespace Sys2Proof.Machine

/-! ### accepting the word at the head of the port (20_memory.md R41) -/

@[simp] theorem State.accept_hpY (s : State) : s.accept.hpY = s.hpY := rfl
@[simp] theorem State.accept_hpX (s : State) : s.accept.hpX = s.hpX := rfl
@[simp] theorem State.accept_lpY (s : State) : s.accept.lpY = s.lpY := rfl
@[simp] theorem State.accept_rng (s : State) : s.accept.rng = s.rng := rfl
@[simp] theorem State.accept_env (s : State) : s.accept.env = s.env := rfl
@[simp] theorem State.accept_idx (s : State) : s.accept.idx = s.idx := rfl
@[simp] theorem State.accept_sr (s : State) : s.accept.sr = s.sr := rfl
@[simp] theorem State.accept_hpA (s : State) : s.accept.hpA = s.hpA := rfl
@[simp] theorem State.accept_lpA (s : State) : s.accept.lpA = s.lpA := rfl
@[simp] theorem State.accept_mode (s : State) : s.accept.mode = s.mode := rfl
@[simp] theorem State.accept_cause (s : State) : s.accept.cause = s.cause := rfl
@[simp] theorem State.accept_outq (s : State) : s.accept.outq = s.outq := rfl
@[simp] theorem State.accept_port (s : State) : s.accept.port = s.port.tail := rfl
@[simp] theorem State.accept_rxBytes (s : State) : s.accept.rxBytes = s.rxBytes := rfl
@[simp] theorem State.accept_hostWords (s : State) : s.accept.hostWords = s.hostWords := rfl
@[simp] theorem State.accept_hostStatus (s : State) : s.accept.hostStatus = s.hostStatus := rfl
@[simp] theorem State.accept_turns (s : State) : s.accept.turns = s.turns := rfl
@[simp] theorem State.accept_resets (s : State) : s.accept.resets = s.resets := rfl

/-! ### `raise Fault(c)` (60_exceptions.md R152) -/

@[simp] theorem State.raise_hpY (s : State) (c : Cause) : (s.raise c).hpY = s.hpY := rfl
@[simp] theorem State.raise_hpX (s : State) (c : Cause) : (s.raise c).hpX = s.hpX := rfl
@[simp] theorem State.raise_lpY (s : State) (c : Cause) : (s.raise c).lpY = s.lpY := rfl
@[simp] theorem State.raise_rng (s : State) (c : Cause) : (s.raise c).rng = s.rng := rfl
@[simp] theorem State.raise_env (s : State) (c : Cause) : (s.raise c).env = s.env := rfl
@[simp] theorem State.raise_idx (s : State) (c : Cause) : (s.raise c).idx = s.idx := rfl
@[simp] theorem State.raise_sr (s : State) (c : Cause) : (s.raise c).sr = s.sr := rfl
@[simp] theorem State.raise_hpA (s : State) (c : Cause) : (s.raise c).hpA = s.hpA := rfl
@[simp] theorem State.raise_lpA (s : State) (c : Cause) : (s.raise c).lpA = s.lpA := rfl
@[simp] theorem State.raise_mode (s : State) (c : Cause) : (s.raise c).mode = .halted := rfl
@[simp] theorem State.raise_cause (s : State) (c : Cause) : (s.raise c).cause = if s.cause = 0#8 then c.code else s.cause := rfl
@[simp] theorem State.raise_outq (s : State) (c : Cause) : (s.raise c).outq = s.outq := rfl
@[simp] theorem State.raise_port (s : State) (c : Cause) : (s.raise c).port = s.port := rfl
@[simp] theorem State.raise_rxBytes (s : State) (c : Cause) : (s.raise c).rxBytes = s.rxBytes := rfl
@[simp] theorem State.raise_hostWords (s : State) (c : Cause) : (s.raise c).hostWords = s.hostWords := rfl
@[simp] theorem State.raise_hostStatus (s : State) (c : Cause) : (s.raise c).hostStatus = s.hostStatus := rfl
@[simp] theorem State.raise_turns (s : State) (c : Cause) : (s.raise c).turns = s.turns := rfl
@[simp] theorem State.raise_resets (s : State) (c : Cause) : (s.raise c).resets = s.resets := rfl

/-! ### a protocol fault taken (60_exceptions.md R152) -/

@[simp] theorem State.takeFault_hpY (s : State) (c : Cause) : (s.takeFault c).hpY = s.hpY := rfl
@[simp] theorem State.takeFault_hpX (s : State) (c : Cause) : (s.takeFault c).hpX = s.hpX := rfl
@[simp] theorem State.takeFault_lpY (s : State) (c : Cause) : (s.takeFault c).lpY = s.lpY := rfl
@[simp] theorem State.takeFault_rng (s : State) (c : Cause) : (s.takeFault c).rng = s.rng := rfl
@[simp] theorem State.takeFault_env (s : State) (c : Cause) : (s.takeFault c).env = s.env := rfl
@[simp] theorem State.takeFault_idx (s : State) (c : Cause) : (s.takeFault c).idx = s.idx := rfl
@[simp] theorem State.takeFault_sr (s : State) (c : Cause) : (s.takeFault c).sr = s.sr := rfl
@[simp] theorem State.takeFault_hpA (s : State) (c : Cause) : (s.takeFault c).hpA = s.hpA := rfl
@[simp] theorem State.takeFault_lpA (s : State) (c : Cause) : (s.takeFault c).lpA = s.lpA := rfl
@[simp] theorem State.takeFault_mode (s : State) (c : Cause) : (s.takeFault c).mode = .halted := rfl
@[simp] theorem State.takeFault_cause (s : State) (c : Cause) : (s.takeFault c).cause = if s.cause = 0#8 then c.code else s.cause := rfl
@[simp] theorem State.takeFault_outq (s : State) (c : Cause) : (s.takeFault c).outq = s.outq := rfl
@[simp] theorem State.takeFault_port (s : State) (c : Cause) : (s.takeFault c).port = s.port.tail := rfl
@[simp] theorem State.takeFault_rxBytes (s : State) (c : Cause) : (s.takeFault c).rxBytes = s.rxBytes := rfl
@[simp] theorem State.takeFault_hostWords (s : State) (c : Cause) : (s.takeFault c).hostWords = s.hostWords := rfl
@[simp] theorem State.takeFault_hostStatus (s : State) (c : Cause) : (s.takeFault c).hostStatus = s.hostStatus := rfl
@[simp] theorem State.takeFault_turns (s : State) (c : Cause) : (s.takeFault c).turns = s.turns := rfl
@[simp] theorem State.takeFault_resets (s : State) (c : Cause) : (s.takeFault c).resets = s.resets := rfl

/-! ### `emit(v)` (20_memory.md R44) -/

@[simp] theorem State.emit_hpY (s : State) (v : F32) : (s.emit v).hpY = s.hpY := rfl
@[simp] theorem State.emit_hpX (s : State) (v : F32) : (s.emit v).hpX = s.hpX := rfl
@[simp] theorem State.emit_lpY (s : State) (v : F32) : (s.emit v).lpY = s.lpY := rfl
@[simp] theorem State.emit_rng (s : State) (v : F32) : (s.emit v).rng = s.rng := rfl
@[simp] theorem State.emit_env (s : State) (v : F32) : (s.emit v).env = s.env := rfl
@[simp] theorem State.emit_idx (s : State) (v : F32) : (s.emit v).idx = s.idx := rfl
@[simp] theorem State.emit_sr (s : State) (v : F32) : (s.emit v).sr = s.sr := rfl
@[simp] theorem State.emit_hpA (s : State) (v : F32) : (s.emit v).hpA = s.hpA := rfl
@[simp] theorem State.emit_lpA (s : State) (v : F32) : (s.emit v).lpA = s.lpA := rfl
@[simp] theorem State.emit_mode (s : State) (v : F32) : (s.emit v).mode = s.mode := rfl
@[simp] theorem State.emit_cause (s : State) (v : F32) : (s.emit v).cause = s.cause := rfl
@[simp] theorem State.emit_outq (s : State) (v : F32) : (s.emit v).outq = s.outq ++ [outWord v] := rfl
@[simp] theorem State.emit_port (s : State) (v : F32) : (s.emit v).port = s.port := rfl
@[simp] theorem State.emit_rxBytes (s : State) (v : F32) : (s.emit v).rxBytes = s.rxBytes := rfl
@[simp] theorem State.emit_hostWords (s : State) (v : F32) : (s.emit v).hostWords = s.hostWords := rfl
@[simp] theorem State.emit_hostStatus (s : State) (v : F32) : (s.emit v).hostStatus = s.hostStatus := rfl
@[simp] theorem State.emit_turns (s : State) (v : F32) : (s.emit v).turns = s.turns := rfl
@[simp] theorem State.emit_resets (s : State) (v : F32) : (s.emit v).resets = s.resets := rfl

/-! ### `IDX <- IDX + 1` (10_state.md R21) -/

@[simp] theorem State.nextIndex_hpY (s : State) : s.nextIndex.hpY = s.hpY := rfl
@[simp] theorem State.nextIndex_hpX (s : State) : s.nextIndex.hpX = s.hpX := rfl
@[simp] theorem State.nextIndex_lpY (s : State) : s.nextIndex.lpY = s.lpY := rfl
@[simp] theorem State.nextIndex_rng (s : State) : s.nextIndex.rng = s.rng := rfl
@[simp] theorem State.nextIndex_env (s : State) : s.nextIndex.env = s.env := rfl
@[simp] theorem State.nextIndex_idx (s : State) : s.nextIndex.idx = s.idx + 1#64 := rfl
@[simp] theorem State.nextIndex_sr (s : State) : s.nextIndex.sr = s.sr := rfl
@[simp] theorem State.nextIndex_hpA (s : State) : s.nextIndex.hpA = s.hpA := rfl
@[simp] theorem State.nextIndex_lpA (s : State) : s.nextIndex.lpA = s.lpA := rfl
@[simp] theorem State.nextIndex_mode (s : State) : s.nextIndex.mode = s.mode := rfl
@[simp] theorem State.nextIndex_cause (s : State) : s.nextIndex.cause = s.cause := rfl
@[simp] theorem State.nextIndex_outq (s : State) : s.nextIndex.outq = s.outq := rfl
@[simp] theorem State.nextIndex_port (s : State) : s.nextIndex.port = s.port := rfl
@[simp] theorem State.nextIndex_rxBytes (s : State) : s.nextIndex.rxBytes = s.rxBytes := rfl
@[simp] theorem State.nextIndex_hostWords (s : State) : s.nextIndex.hostWords = s.hostWords := rfl
@[simp] theorem State.nextIndex_hostStatus (s : State) : s.nextIndex.hostStatus = s.hostStatus := rfl
@[simp] theorem State.nextIndex_turns (s : State) : s.nextIndex.turns = s.turns := rfl
@[simp] theorem State.nextIndex_resets (s : State) : s.nextIndex.resets = s.resets := rfl

/-! ### a read of `STATUS` (10_state.md R26) -/

@[simp] theorem State.readStatus_hpY (s : State) : s.readStatus.hpY = s.hpY := rfl
@[simp] theorem State.readStatus_hpX (s : State) : s.readStatus.hpX = s.hpX := rfl
@[simp] theorem State.readStatus_lpY (s : State) : s.readStatus.lpY = s.lpY := rfl
@[simp] theorem State.readStatus_rng (s : State) : s.readStatus.rng = s.rng := rfl
@[simp] theorem State.readStatus_env (s : State) : s.readStatus.env = s.env := rfl
@[simp] theorem State.readStatus_idx (s : State) : s.readStatus.idx = s.idx := rfl
@[simp] theorem State.readStatus_sr (s : State) : s.readStatus.sr = s.sr := rfl
@[simp] theorem State.readStatus_hpA (s : State) : s.readStatus.hpA = s.hpA := rfl
@[simp] theorem State.readStatus_lpA (s : State) : s.readStatus.lpA = s.lpA := rfl
@[simp] theorem State.readStatus_mode (s : State) : s.readStatus.mode = s.mode := rfl
@[simp] theorem State.readStatus_cause (s : State) : s.readStatus.cause = s.cause := rfl
@[simp] theorem State.readStatus_outq (s : State) : s.readStatus.outq = s.outq := rfl
@[simp] theorem State.readStatus_port (s : State) : s.readStatus.port = s.port := rfl
@[simp] theorem State.readStatus_rxBytes (s : State) : s.readStatus.rxBytes = s.rxBytes := rfl
@[simp] theorem State.readStatus_hostWords (s : State) : s.readStatus.hostWords = s.hostWords := rfl
@[simp] theorem State.readStatus_hostStatus (s : State) : s.readStatus.hostStatus = s.hostStatus ++ [s.status] := rfl
@[simp] theorem State.readStatus_turns (s : State) : s.readStatus.turns = s.turns := rfl
@[simp] theorem State.readStatus_resets (s : State) : s.readStatus.resets = s.resets := rfl

/-! ### a word offered (20_memory.md R41) -/

@[simp] theorem State.offer_hpY (s : State) (w : CmdWord) : (s.offer w).hpY = s.hpY := rfl
@[simp] theorem State.offer_hpX (s : State) (w : CmdWord) : (s.offer w).hpX = s.hpX := rfl
@[simp] theorem State.offer_lpY (s : State) (w : CmdWord) : (s.offer w).lpY = s.lpY := rfl
@[simp] theorem State.offer_rng (s : State) (w : CmdWord) : (s.offer w).rng = s.rng := rfl
@[simp] theorem State.offer_env (s : State) (w : CmdWord) : (s.offer w).env = s.env := rfl
@[simp] theorem State.offer_idx (s : State) (w : CmdWord) : (s.offer w).idx = s.idx := rfl
@[simp] theorem State.offer_sr (s : State) (w : CmdWord) : (s.offer w).sr = s.sr := rfl
@[simp] theorem State.offer_hpA (s : State) (w : CmdWord) : (s.offer w).hpA = s.hpA := rfl
@[simp] theorem State.offer_lpA (s : State) (w : CmdWord) : (s.offer w).lpA = s.lpA := rfl
@[simp] theorem State.offer_mode (s : State) (w : CmdWord) : (s.offer w).mode = s.mode := rfl
@[simp] theorem State.offer_cause (s : State) (w : CmdWord) : (s.offer w).cause = s.cause := rfl
@[simp] theorem State.offer_outq (s : State) (w : CmdWord) : (s.offer w).outq = s.outq := rfl
@[simp] theorem State.offer_port (s : State) (w : CmdWord) : (s.offer w).port = s.port ++ [w] := rfl
@[simp] theorem State.offer_rxBytes (s : State) (w : CmdWord) : (s.offer w).rxBytes = s.rxBytes := rfl
@[simp] theorem State.offer_hostWords (s : State) (w : CmdWord) : (s.offer w).hostWords = s.hostWords := rfl
@[simp] theorem State.offer_hostStatus (s : State) (w : CmdWord) : (s.offer w).hostStatus = s.hostStatus := rfl
@[simp] theorem State.offer_turns (s : State) (w : CmdWord) : (s.offer w).turns = s.turns := rfl
@[simp] theorem State.offer_resets (s : State) (w : CmdWord) : (s.offer w).resets = s.resets := rfl

/-! ### a turn taken (20_memory.md R50) -/

@[simp] theorem State.dropTurn_hpY (s : State) : s.dropTurn.hpY = s.hpY := rfl
@[simp] theorem State.dropTurn_hpX (s : State) : s.dropTurn.hpX = s.hpX := rfl
@[simp] theorem State.dropTurn_lpY (s : State) : s.dropTurn.lpY = s.lpY := rfl
@[simp] theorem State.dropTurn_rng (s : State) : s.dropTurn.rng = s.rng := rfl
@[simp] theorem State.dropTurn_env (s : State) : s.dropTurn.env = s.env := rfl
@[simp] theorem State.dropTurn_idx (s : State) : s.dropTurn.idx = s.idx := rfl
@[simp] theorem State.dropTurn_sr (s : State) : s.dropTurn.sr = s.sr := rfl
@[simp] theorem State.dropTurn_hpA (s : State) : s.dropTurn.hpA = s.hpA := rfl
@[simp] theorem State.dropTurn_lpA (s : State) : s.dropTurn.lpA = s.lpA := rfl
@[simp] theorem State.dropTurn_mode (s : State) : s.dropTurn.mode = s.mode := rfl
@[simp] theorem State.dropTurn_cause (s : State) : s.dropTurn.cause = s.cause := rfl
@[simp] theorem State.dropTurn_outq (s : State) : s.dropTurn.outq = s.outq := rfl
@[simp] theorem State.dropTurn_port (s : State) : s.dropTurn.port = s.port := rfl
@[simp] theorem State.dropTurn_rxBytes (s : State) : s.dropTurn.rxBytes = s.rxBytes := rfl
@[simp] theorem State.dropTurn_hostWords (s : State) : s.dropTurn.hostWords = s.hostWords := rfl
@[simp] theorem State.dropTurn_hostStatus (s : State) : s.dropTurn.hostStatus = s.hostStatus := rfl
@[simp] theorem State.dropTurn_turns (s : State) : s.dropTurn.turns = s.turns.tail := rfl
@[simp] theorem State.dropTurn_resets (s : State) : s.dropTurn.resets = s.resets := rfl

/-! ### The reset event (70_reset_and_hazards.md R180): what the spec states of it -/

@[simp] theorem State.resetEvent_mode (s : State) (a : Option CmdWord) : (s.resetEvent a).mode = .idle := rfl
@[simp] theorem State.resetEvent_cause (s : State) (a : Option CmdWord) : (s.resetEvent a).cause = 0#8 := rfl
@[simp] theorem State.resetEvent_outq (s : State) (a : Option CmdWord) : (s.resetEvent a).outq = [] := rfl
@[simp] theorem State.resetEvent_port (s : State) (a : Option CmdWord) : (s.resetEvent a).port = [] := rfl
@[simp] theorem State.resetEvent_rxBytes (s : State) (a : Option CmdWord) : (s.resetEvent a).rxBytes = [] := rfl
@[simp] theorem State.resetEvent_hostWords (s : State) (a : Option CmdWord) : (s.resetEvent a).hostWords = s.hostWords := rfl
@[simp] theorem State.resetEvent_hostStatus (s : State) (a : Option CmdWord) : (s.resetEvent a).hostStatus = s.hostStatus := rfl
@[simp] theorem State.resetEvent_turns (s : State) (a : Option CmdWord) : (s.resetEvent a).turns = s.turns := rfl

/-! ### Two updates that leave the state whole -/

@[simp] theorem State.writeStatus_eq (v : Word32) (s : State) : s.writeStatus v = s := rfl
theorem State.takeFault_eq (c : Cause) (s : State) : s.takeFault c = (s.raise c).accept := rfl

/-! ### Processing a sample (40_commands.md R72): everything it can do -/

/-- The registers, the emitted word and nothing else. -/
theorem State.processSample_eq (x : F32) (s : State) :
    ∃ biased hp lp env y,
      biased = modulate x (sampleTime s.idx s.sr) ∧
      hp = hpStep s.hpA s.hpY s.hpX biased ∧
      lp = lpStep s.lpA s.lpY hp ∧
      env = decayedEnv (triggeredEnv (lcgNext (lcgNext s.rng)) s.env) ∧
      y = combine (shape lp) (rumble (sampleTime s.idx s.sr)) (hissOf (lcgNext s.rng))
        (crackleOf (lcgNext (lcgNext (lcgNext s.rng))) env) ∧
      s.processSample x =
        { s with
          hpX := biased
          hpY := hp
          lpY := lp
          rng := lcgNext (lcgNext (lcgNext s.rng))
          env := env
          outq := s.outq ++ [outWord (clampOut (quantize y))]
          idx := s.idx + 1#64 } :=
  ⟨_, _, _, _, _, rfl, rfl, rfl, rfl, rfl, rfl⟩

/-! ### Opening a call (40_commands.md R71): everything it can do -/

theorem State.openCall_degenerate {sr : F32} (s : State) (h : isDegenerateRate sr = true) :
    s.openCall sr =
      { s with
        sr := sr, hpY := posZero, hpX := posZero, lpY := posZero, env := posZero
        rng := RNG_SEED, idx := 0#64, mode := .degenerate } := by
  simp [State.openCall, h]

theorem State.openCall_active {sr : F32} (s : State) (h : isDegenerateRate sr = false) :
    s.openCall sr =
      { s with
        sr := sr, hpY := posZero, hpX := posZero, lpY := posZero, env := posZero
        rng := RNG_SEED, idx := 0#64, hpA := coef FC_HP sr, lpA := coef FC_LP sr, mode := .active } := by
  simp [State.openCall, h]

end Sys2Proof.Machine
end

