-- ==== Sys2Proof/Laws/Safety.lean ====
section
/-! SUPPORT. The terms of Safety.lean: the observation of a run loses no word (60_exceptions.md R174), and the words that
turns deliver, turn by turn (20_memory.md R41, R45, R46). -/

namespace Sys2Proof.Safety
open Sys2Proof Sys2Proof.Machine

/-! ### The observation -/

/-- The pieces of a sequence, joined, are the sequence. -/
theorem splitCounts_flatten (ns : List Nat) (ws : List Word32) : (splitCounts ns ws).flatten = ws := by
  induction ns generalizing ws with
  | nil => cases ws <;> simp [splitCounts]
  | cons n ns ih => simp [splitCounts, ih]

/-- The observation of a clean run, its calls joined, is everything the host read since the run began. -/
theorem observation_flatten {start s : State} {stream : List Instr} {calls : List (List Word32)}
    (h : observation start stream s = some calls) :
    cleanRun start s ∧ calls.flatten = s.hostWords.drop start.hostWords.length := by
  unfold observation at h
  split at h
  · rename_i hc
    cases h
    exact ⟨hc, splitCounts_flatten _ _⟩
  · cases h

/-! ### The words that turns deliver -/

@[simp] theorem arriving_nil (bs : List Byte) : arriving bs [] = [] := by cases bs <;> rfl

@[simp] theorem arriving_offer (bs : List Byte) (w : CmdWord) (ts : List Turn) :
    arriving bs (.offer w :: ts) = w :: arriving bs ts := by cases bs <;> rfl

@[simp] theorem arriving_accept (bs : List Byte) (ts : List Turn) : arriving bs (.accept :: ts) = arriving bs ts := by
  cases bs <;> rfl

@[simp] theorem arriving_readOut (bs : List Byte) (ts : List Turn) : arriving bs (.readOut :: ts) = arriving bs ts := by
  cases bs <;> rfl

@[simp] theorem arriving_readStatus (bs : List Byte) (ts : List Turn) :
    arriving bs (.readStatus :: ts) = arriving bs ts := by cases bs <;> rfl

@[simp] theorem arriving_writeStatus (bs : List Byte) (v : Word32) (ts : List Turn) :
    arriving bs (.writeStatus v :: ts) = arriving bs ts := by cases bs <;> rfl

/-- A word that waits and the words to come are pending, whether a byte completes the word now or later. -/
theorem pendingWords_offerByte (b : Byte) (s : State) :
    pendingWords (s.offerByte b) = s.port ++ arriving s.rxBytes (.offerByte b :: s.turns) := by
  have h : arriving s.rxBytes (.offerByte b :: s.turns) =
      match takeCmd (s.rxBytes ++ [b]) with
      | some (w, rest) => w :: arriving rest s.turns
      | none => arriving (s.rxBytes ++ [b]) s.turns := by cases s.rxBytes <;> rfl
  rw [h]
  unfold State.offerByte pendingWords
  cases takeCmd (s.rxBytes ++ [b]) <;> simp

end Sys2Proof.Safety
end

