-- ==== Sys2Proof/Laws/Step.lean ====
section
/-! SUPPORT. What a step can do, said once: the cases of an accept step (60_exceptions.md R157), of a turn
(20_memory.md R50), and of the two operations that look before they write (an output read, a byte delivered). -/

namespace Sys2Proof.Machine

/-! ### The operations -/

theorem State.readOutput_none {s : State} : s.readOutput = none ↔ s.outq = [] := by
  unfold State.readOutput
  split <;> simp_all

theorem State.readOutput_some {s t : State} (h : s.readOutput = some t) :
    ∃ w rest, s.outq = w :: rest ∧ t = { s with outq := rest, hostWords := s.hostWords ++ [w] } := by
  unfold State.readOutput at h
  split at h
  · cases h
  · rename_i w rest hq
    exact ⟨w, rest, hq, (Option.some.inj h).symm⟩

theorem takeCmd_none {bs : List Byte} : takeCmd bs = none ↔ bs.length < 8 := by
  unfold takeCmd
  split
  · simp
  · rename_i h
    simp only [true_iff]
    by_contra hc
    iterate 8
      rcases bs with _ | ⟨_, bs⟩
      · simp at hc
    exact h _ _ _ _ _ _ _ _ _ rfl

theorem takeCmd_some {bs rest : List Byte} {w : CmdWord} (h : takeCmd bs = some (w, rest)) :
    bs.length = rest.length + 8 := by
  unfold takeCmd at h
  split at h
  · cases h; simp
  · cases h

/-- A delivered byte either waits for the rest of its word or completes it. -/
theorem State.offerByte_cases (b : Byte) (s : State) :
    ((s.rxBytes ++ [b]).length < 8 ∧ s.offerByte b = { s with rxBytes := s.rxBytes ++ [b] }) ∨
    ∃ w rest, takeCmd (s.rxBytes ++ [b]) = some (w, rest) ∧
      s.offerByte b = { s with port := s.port ++ [w], rxBytes := rest } := by
  unfold State.offerByte
  cases h : takeCmd (s.rxBytes ++ [b]) with
  | none => exact Or.inl ⟨takeCmd_none.mp h, rfl⟩
  | some p => exact Or.inr ⟨p.1, p.2, rfl, rfl⟩

/-! ### The four commands -/

theorem exec_nop (opnd : BitVec 32) (s : State) : exec (.nop opnd) s = .next s.accept := rfl

theorem exec_begin_cases (sr : F32) (s : State) :
    (s.mode = .halted ∧ exec (.beginCall sr) s = .next s.accept) ∨
    (s.mode = .idle ∧ exec (.beginCall sr) s = .next (s.openCall sr).accept) ∨
    ((s.mode = .active ∨ s.mode = .degenerate) ∧
      exec (.beginCall sr) s = .next (s.takeFault .beginInsideCall)) := by
  cases h : s.mode <;> simp [exec, execBegin, h, sampleRateOperand]

theorem exec_sample_cases (x : F32) (s : State) :
    ((s.mode = .halted ∨ s.mode = .degenerate) ∧ exec (.sample x) s = .next s.accept) ∨
    (s.mode = .idle ∧ exec (.sample x) s = .next (s.takeFault .sampleOutsideCall)) ∨
    (s.mode = .active ∧ s.idx = IDX_MAX ∧ exec (.sample x) s = .next (s.takeFault .indexOverflow)) ∨
    (s.mode = .active ∧ s.idx ≠ IDX_MAX ∧ s.outq.length = Config.outDepth ∧ exec (.sample x) s = .next s) ∨
    (s.mode = .active ∧ s.idx ≠ IDX_MAX ∧ s.outq.length ≠ Config.outDepth ∧
      exec (.sample x) s = .next (s.processSample x).accept) := by
  cases h : s.mode
  · simp [exec, execSample, h]
  · by_cases hi : s.idx = IDX_MAX
    · simp [exec, execSample, h, hi]
    · by_cases ho : s.outq.length = Config.outDepth
      · simp [exec, execSample, h, hi, State.outFull, ho]
      · simp [exec, execSample, h, hi, State.outFull, ho, sampleOperand]
  · simp [exec, execSample, h]
  · simp [exec, execSample, h]

theorem exec_end_cases (s : State) :
    (s.mode = .halted ∧ exec .endCall s = .next s.accept) ∨
    (s.mode = .idle ∧ exec .endCall s = .next (s.takeFault .endOutsideCall)) ∨
    ((s.mode = .active ∨ s.mode = .degenerate) ∧
      exec .endCall s = .next (State.accept { s with mode := .idle })) := by
  cases h : s.mode <;> simp [exec, execEnd, h]

/-- Everything a command can do. -/
theorem exec_cases {i : Instr} {s t : State} (h : exec i s = .next t) :
    t = s.accept ∨
    (∃ c, s.mode ≠ .halted ∧ t = s.takeFault c) ∨
    (∃ sr, i = .beginCall sr ∧ s.mode = .idle ∧ t = (s.openCall sr).accept) ∨
    (∃ x, i = .sample x ∧ s.mode = .active ∧ s.outq.length = Config.outDepth ∧ t = s) ∨
    (∃ x, i = .sample x ∧ s.mode = .active ∧ s.idx ≠ IDX_MAX ∧ s.outq.length ≠ Config.outDepth ∧
      t = (s.processSample x).accept) ∨
    (i = .endCall ∧ (s.mode = .active ∨ s.mode = .degenerate) ∧ t = State.accept { s with mode := .idle }) := by
  cases i with
  | nop opnd => rw [exec_nop] at h; cases h; exact Or.inl rfl
  | beginCall sr =>
    rcases exec_begin_cases sr s with ⟨_, he⟩ | ⟨hm, he⟩ | ⟨hm, he⟩ <;> rw [he] at h <;> cases h
    · exact Or.inl rfl
    · exact Or.inr (Or.inr (Or.inl ⟨sr, rfl, hm, rfl⟩))
    · exact Or.inr (Or.inl ⟨_, by rcases hm with hm | hm <;> simp [hm], rfl⟩)
  | sample x =>
    rcases exec_sample_cases x s with ⟨_, he⟩ | ⟨hm, he⟩ | ⟨hm, _, he⟩ | ⟨hm, _, hf, he⟩ | ⟨hm, hi, hf, he⟩ <;>
      rw [he] at h <;> cases h
    · exact Or.inl rfl
    · exact Or.inr (Or.inl ⟨_, by simp [hm], rfl⟩)
    · exact Or.inr (Or.inl ⟨_, by simp [hm], rfl⟩)
    · exact Or.inr (Or.inr (Or.inr (Or.inl ⟨x, rfl, hm, hf, rfl⟩)))
    · exact Or.inr (Or.inr (Or.inr (Or.inr (Or.inl ⟨x, rfl, hm, hi, hf, rfl⟩))))
  | endCall =>
    rcases exec_end_cases s with ⟨_, he⟩ | ⟨hm, he⟩ | ⟨hm, he⟩ <;> rw [he] at h <;> cases h
    · exact Or.inl rfl
    · exact Or.inr (Or.inl ⟨_, by simp [hm], rfl⟩)
    · exact Or.inr (Or.inr (Or.inr (Or.inr (Or.inr ⟨rfl, hm, rfl⟩))))

/-- A command always answers a next state. -/
theorem exec_next (i : Instr) (s : State) : ∃ t, exec i s = .next t := by
  cases i with
  | nop opnd => exact ⟨_, rfl⟩
  | beginCall sr =>
    rcases exec_begin_cases sr s with ⟨_, he⟩ | ⟨_, he⟩ | ⟨_, he⟩ <;> exact ⟨_, he⟩
  | sample x =>
    rcases exec_sample_cases x s with ⟨_, he⟩ | ⟨_, he⟩ | ⟨_, _, he⟩ | ⟨_, _, _, he⟩ | ⟨_, _, _, he⟩ <;>
      exact ⟨_, he⟩
  | endCall => rcases exec_end_cases s with ⟨_, he⟩ | ⟨_, he⟩ | ⟨_, he⟩ <;> exact ⟨_, he⟩

/-! ### The accept step and the turn -/

theorem acceptStep_idle {s : State} (h : s.port = []) : acceptStep s = .next s := by
  simp [acceptStep, State.fetch, h]

theorem acceptStep_command {s : State} {w : CmdWord} {rest : List CmdWord} {i : Instr} (h : s.port = w :: rest)
    (hd : decode w = .command i) : acceptStep s = exec i s := by
  simp [acceptStep, State.fetch, h, hd]

/-- Everything an accept step can do. -/
theorem acceptStep_cases {s t : State} (h : acceptStep s = .next t) :
    t = s ∨ t = s.accept ∨
    (∃ c, s.mode ≠ .halted ∧ t = s.takeFault c) ∨
    (∃ sr, s.mode = .idle ∧ t = (s.openCall sr).accept) ∨
    (∃ x, s.mode = .active ∧ s.idx ≠ IDX_MAX ∧ s.outq.length ≠ Config.outDepth ∧
      t = (s.processSample x).accept) ∨
    ((s.mode = .active ∨ s.mode = .degenerate) ∧ t = State.accept { s with mode := .idle }) := by
  unfold acceptStep at h
  cases hf : s.fetch with
  | none => simp only [hf] at h; cases h; exact Or.inl rfl
  | some w =>
    simp only [hf] at h
    have reject : ∀ c, Host.Outcome.next (φ := Fault) (ρ := Refusal) (s.rejectWord c) = .next t →
        t = s.accept ∨ ∃ c, s.mode ≠ .halted ∧ t = s.takeFault c := by
      intro c hc
      cases hc
      unfold State.rejectWord
      split
      · exact Or.inl rfl
      · rename_i hm; exact Or.inr ⟨c, hm, rfl⟩
    cases hd : decode w with
    | illegalOpcode =>
      simp only [hd] at h
      rcases reject _ h with h | h
      · exact Or.inr (Or.inl h)
      · exact Or.inr (Or.inr (Or.inl h))
    | reservedBits =>
      simp only [hd] at h
      rcases reject _ h with h | h
      · exact Or.inr (Or.inl h)
      · exact Or.inr (Or.inr (Or.inl h))
    | command i =>
      simp only [hd] at h
      rcases exec_cases h with h | h | ⟨sr, _, h⟩ | ⟨x, _, _, _, h⟩ | ⟨x, _, h⟩ | ⟨_, h⟩
      · exact Or.inr (Or.inl h)
      · exact Or.inr (Or.inr (Or.inl h))
      · exact Or.inr (Or.inr (Or.inr (Or.inl ⟨sr, h⟩)))
      · exact Or.inl h
      · exact Or.inr (Or.inr (Or.inr (Or.inr (Or.inl ⟨x, h⟩))))
      · exact Or.inr (Or.inr (Or.inr (Or.inr (Or.inr h))))

/-- An accept step always answers a next state. -/
theorem acceptStep_next (s : State) : ∃ t, acceptStep s = .next t := by
  unfold acceptStep
  split
  · exact ⟨_, rfl⟩
  · split
    · exact ⟨_, rfl⟩
    · exact ⟨_, rfl⟩
    · exact exec_next _ _

/-- Everything a step can do: the block's accept step, with or without a turn taken, or one of the host's turns. -/
theorem step_cases {s t : State} (h : step s = .next t) :
    ((s.turns = [] ∨ ∃ ts, s.turns = .readOut :: ts ∧ s.outq = []) ∧ acceptStep s = .next t) ∨
    (∃ ts, s.turns = .accept :: ts ∧ acceptStep s.dropTurn = .next t) ∨
    (∃ w ts, s.turns = .offer w :: ts ∧ t = s.dropTurn.offer w) ∨
    (∃ b ts, s.turns = .offerByte b :: ts ∧ t = s.dropTurn.offerByte b) ∨
    (∃ ts u, s.turns = .readOut :: ts ∧ s.readOutput = some u ∧ t = u.dropTurn) ∨
    (∃ ts, s.turns = .readStatus :: ts ∧ t = s.dropTurn.readStatus) ∨
    (∃ v ts, s.turns = .writeStatus v :: ts ∧ t = s.dropTurn) ∨
    (∃ a ts, s.turns = .reset a :: ts ∧ t = s.dropTurn.resetEvent a) := by
  unfold step takeTurn at h
  split at h
  · rename_i ht; exact Or.inl ⟨Or.inl ht, h⟩
  · rename_i ts ht; exact Or.inr (Or.inl ⟨ts, ht, h⟩)
  · rename_i w ts ht; cases h; exact Or.inr (Or.inr (Or.inl ⟨w, ts, ht, rfl⟩))
  · rename_i b ts ht; cases h; exact Or.inr (Or.inr (Or.inr (Or.inl ⟨b, ts, ht, rfl⟩)))
  · rename_i ts ht
    split at h
    · rename_i u hu; cases h; exact Or.inr (Or.inr (Or.inr (Or.inr (Or.inl ⟨ts, u, ht, hu, rfl⟩))))
    · rename_i hu; exact Or.inl ⟨Or.inr ⟨ts, ht, State.readOutput_none.mp hu⟩, h⟩
  · rename_i ts ht; cases h; exact Or.inr (Or.inr (Or.inr (Or.inr (Or.inr (Or.inl ⟨ts, ht, rfl⟩)))))
  · rename_i v ts ht; cases h; exact Or.inr (Or.inr (Or.inr (Or.inr (Or.inr (Or.inr (Or.inl ⟨v, ts, ht, rfl⟩))))))
  · rename_i a ts ht; cases h; exact Or.inr (Or.inr (Or.inr (Or.inr (Or.inr (Or.inr (Or.inr ⟨a, ts, ht, rfl⟩))))))

end Sys2Proof.Machine
end

