-- ==== Sys2Proof/Machine/Adapter.lean ====
section
/-! DEFINITION. The host buffer adapter and the Wet parameter (60_exceptions.md R172, R173): OUTSIDE the block
(00_scope.md R6), pure functions on samples that no step of the machine calls. -/

namespace Sys2Proof.Machine

/-- `0.5`. -/
def half : F32 := 0x3F000000#32
/-- `1000.0`. -/
def thousand : F32 := 0x447A0000#32

/-- The mono input of a stereo pair: `fmul(fadd(L, R), 0.5)` (R172 b). -/
def monoOf (l r : F32) : F32 := fmul (fadd l r) half

/-- The wet amount of parameter value `k/10`: `k/1000` (R173), as the nearest binary32 value (log entry 21). -/
def wetOf (k : Nat) : F32 := fdiv (u2f k) thousand

/-- The blend of one sample of one channel (R172 d). -/
def blend (wet dry processed : F32) : F32 := fadd (fmul dry (fsub one wet)) (fmul processed wet)

/-- The mono input of a stereo processing block (R172 a, b). R172 does not speak of channels of unequal lengths: MODEL'S
CHOICE, the result has the length of the shorter (log entry 27). -/
def monoBlock (left right : List F32) : List F32 := List.zipWith monoOf left right

/-- One channel of a processing block written back (R172 d, e): samples are blended "at the same index". R172 does not say
what is written back where the call gave fewer words than the channel has samples, as a degenerate call does, which gives
none: MODEL'S CHOICE, the result has the length of the shorter list, so no such sample is given (log entry 27). -/
def blendBlock (wet : F32) (dry processed : List F32) : List F32 := List.zipWith (blend wet) dry processed

end Sys2Proof.Machine
end

