-- ==== Sys2Proof/Tests/Slice0.lean ====
section
/-! SUPPORT. The model's own tests. Every expected value is the spec's: the table or vector named in the comment above a
test. Then one witness per statement that has hypotheses: a state and operands that meet all of them. -/

namespace Sys2Proof.Tests
open Sys2Proof Sys2Proof.Machine Sys2Proof.Safety

/-! ### States of the tests -/

/-- After reset, in a given mode, with the words of a stream on the port. -/
def inMode (m : Mode) (port : List CmdWord) : State := { State.reset with mode := m, port := port }

/-- An active call at an infinite rate right after its `BEGIN` (V11, V30). -/
def activeInf (port : List CmdWord) : State :=
  { State.reset with
    mode := .active, sr := 0x7F800000#32, hpA := 0x3F800000#32, lpA := 0x3F800000#32, rng := 0x1234ABCD#32, port := port }

/-- The same with `OUTQ` full. -/
def activeFull (port : List CmdWord) : State :=
  { activeInf port with outq := List.replicate Config.outDepth 0#32 }

/-- What a check sees of the state that a step gives. -/
def seen {α : Type} (f : State → α) (o : Host.Outcome State Fault Refusal) : Option α :=
  match o with
  | .next t => some (f t)
  | .fault _ => none
  | .refused _ => none

/-! ### Well-formedness: an ill-formed word for each check, and each command -/

theorem test_ill_formed_opcode : CmdWord.opcodeDefined 0x0000000400000000#64 = false ∧
    CmdWord.wellFormed 0x0000000400000000#64 = false := by decide

theorem test_ill_formed_reserved : CmdWord.reservedClear 0x0000010200000000#64 = false ∧
    CmdWord.wellFormed 0x0000010200000000#64 = false := by decide

theorem test_ill_formed_end_operand : CmdWord.endOperandClear 0x0000000300000001#64 = false ∧
    CmdWord.wellFormed 0x0000000300000001#64 = false := by decide

theorem test_well_formed_end : CmdWord.wellFormed 0x0000000300000000#64 = true ∧ Instr.wellFormed .endCall = true := by
  decide

/-! ### Decoding: words written out from 30_encoding.md R55 and R57 (V1, V2) -/

theorem test_decode_nop : decode 0x00000000DEADBEEF#64 = .command (.nop 0xDEADBEEF#32) := by decide

theorem test_decode_begin : decode 0x00000001472C4400#64 = .command (.beginCall 0x472C4400#32) := by decide

theorem test_decode_sample : decode 0x00000002FF800001#64 = .command (.sample 0xFF800001#32) := by decide

theorem test_decode_end : decode 0x0000000300000000#64 = .command .endCall := by decide

theorem test_decode_priority : decode 0xFF000005FFFFFFFF#64 = .illegalOpcode ∧
    decode 0x8000000000000000#64 = .reservedBits ∧ decode 0x0000000380000000#64 = .reservedBits := by decide

theorem test_decode_bytes :
    decodeBytes [0xCD#8, 0xCC#8, 0x4C#8, 0x3F#8, 0x02#8, 0x00#8, 0x00#8, 0x00#8, 0xFF#8] =
      some (.command (.sample 0x3F4CCCCD#32), [0xFF#8]) := by decide

theorem test_decode_table_word : decodeTableWord 64 0x0000000147000000 = some (.beginCall 0x47000000#32) ∧
    decodeTableWord 64 0x0000000300000000 = some .endCall ∧ decodeTableWord 64 0x0000000400000000 = none := by decide

/-! ### The assembler (30_encoding.md R61, R62) -/

theorem test_parse_begin :
    parseLine ['B', 'E', 'G', 'I', 'N', ' ', '4', '4', '1', '0', '0', '.', '0', ' ', ';', 'x'] =
      some (some (.beginCall 0x472C4400#32)) := by decide +kernel

theorem test_parse_call :
    parseLine ['C', 'A', 'L', 'L', ' ', 'i', 'n', 'f', ',', ' ', '-', '0', '.', '0'] =
      some (some (.call 0x7F800000#32 [0x80000000#32])) := by decide +kernel

/-! ### Constants (00_scope.md R9) -/

/-- Each literal is the nearest binary32 value. -/
theorem test_literals :
    [decimalBits false 35 2, decimalBits false 5 2, decimalBits false 15 3, decimalBits false 2 2, decimalBits false 14 1,
      decimalBits false 3 3, decimalBits false 15 4, decimalBits false 4 3, decimalBits false 995 3,
      decimalBits false 94 2, decimalBits false 8 2] =
    [F_WOW, A_WOW, A_FLUT, DC_BIAS, G_ASYM, A_R1, A_R2, A_HISS, T_CRK, D_CRK, A_CRK] := by decide +kernel

/-- The product rows. -/
theorem test_products :
    [fmul TWO_PI F_WOW, fmul TWO_PI F_FLUT, fmul TWO_PI F_R1, fmul TWO_PI F_R2, fmul (fneg TWO_PI) FC_HP,
      fmul (fneg TWO_PI) FC_LP] = [W_WOW, W_FLUT, W_R1, W_R2, 0xC524EF02#32, 0xC6756FDB#32] := by decide +kernel

/-! ### The stages, on the spec's vectors -/

/-- V13, V14. -/
theorem test_modulation : sampleTime 11025#64 0x472C4400#32 = 0x3E800000#32 ∧
    modulate 0x3F4CCCCD#32 0#32 = 0x3F51EB85#32 ∧ modulate 0x80000000#32 0#32 = 0x3CA3D70A#32 := by decide +kernel

/-- V18 row 2, V19 row 2, V32. -/
theorem test_filters :
    hpStep 0x3F000000#32 0x3E800000#32 0x3F800000#32 0#32 = 0xBEC00000#32 ∧
    lpStep 0x3F000000#32 0x3E800000#32 0xBEC00000#32 = 0xBD800000#32 ∧
    lpStep 0x3F334978#32 0#32 0x3F45BA14#32 = 0x3E6D00E5#32 ∧
    fdiv 0xC6756FDB#32 0x472C4400#32 = 0xBEB65E7E#32 := by decide +kernel

/-- V24, V25. -/
theorem test_waveshaper : asymClip 0xBF000000#32 = 0xBECCCCCD#32 ∧ shape 0xBD800000#32 = 0xBE13CB38#32 ∧
    shape 0x3E6D00E5#32 = 0x3E9D2EB5#32 := by decide +kernel

/-- V26 rows 2 and 18, V28. -/
theorem test_generator : lcgNext 0xEC945AC8#32 = 0x39AB3F87#32 ∧ drawValue 0xEF7DF197#32 = 0x3F5EFBE0#32 ∧
    triggersCrackle (drawValue 0xFF5C29FF#32) = false ∧ triggersCrackle (drawValue 0xFF5C2A00#32) = true := by
  decide +kernel

/-- V29. -/
theorem test_decay : decayedEnv^[6] one = 0x3F309B4E#32 := by decide +kernel

/-- V33, V35. -/
theorem test_quantizer : quantize 0x3BA00000#32 = 0x3BC00000#32 ∧ quantize 0x80000000#32 = 0x80000000#32 ∧
    clampOut 0x3FC00000#32 = 0x3F800000#32 ∧ clampOut 0xFF800000#32 = 0xBF800000#32 := by decide +kernel

/-- R172: the mean of 1.0 and 0.5, and a full wet amount. -/
theorem test_adapter : monoOf 0x3F800000#32 0x3F000000#32 = 0x3F400000#32 ∧ wetOf 1000 = 0x3F800000#32 ∧
    blend (wetOf 1000) 0x3F800000#32 0x3F000000#32 = 0x3F000000#32 := by decide +kernel

/-! ### One step of each command -/

/-- R75. -/
theorem test_nop_step : step (inMode .active [0x00000000DEADBEEF#64]) = .next (inMode .active []) := rfl

/-- V10, V11: `BEGIN inf`, then its coefficients. -/
theorem test_begin_active :
    seen (fun t => (t.status, t.hpA, t.lpA, t.rng)) (step (inMode .idle [0x000000017F800000#64])) =
      some (0x00000001#32, 0x3F800000#32, 0x3F800000#32, 0x1234ABCD#32) := by decide +kernel

/-- V10: `BEGIN -0.0`. -/
theorem test_begin_degenerate :
    seen (fun t => (t.status, t.sr)) (step (inMode .idle [0x0000000180000000#64])) =
      some (0x00000002#32, 0x80000000#32) := by decide +kernel

/-- V30: the first sample of a call at an infinite rate. -/
theorem test_sample_first :
    seen (fun t => (t.outq, t.rng, t.idx, t.hpY, t.hpX)) (step (activeInf [0x0000000200000000#64])) =
      some ([0x3B800000#32], 0x999FF73A#32, 1#64, 0x3CA3D70A#32, 0x3CA3D70A#32) := by decide +kernel

/-- V31, sample 3: the quantized zero keeps its sign. -/
theorem test_sample_negative_zero :
    seen (fun t => (t.outq, t.rng)) (step { activeInf [0x0000000200000000#64] with rng := 0x88011370#32, idx := 3#64 }) =
      some ([0x80000000#32], 0x201FA719#32) := by decide +kernel

/-- R74. -/
theorem test_end_step : step (inMode .degenerate [0x0000000300000000#64]) = .next (inMode .idle []) := rfl

/-- V36: `END` in IDLE. -/
theorem test_end_fault : seen State.status (step (inMode .idle [0x0000000300000000#64])) = some 0x00000403#32 := by
  decide

/-- V36: an illegal word, and `RESERVED_BITS` before the mode fault. -/
theorem test_word_faults : seen State.status (step (inMode .idle [0xFF000005FFFFFFFF#64])) = some 0x00000103#32 ∧
    seen State.status (step (inMode .idle [0x0000000300000001#64])) = some 0x00000203#32 := by decide

/-- V37. -/
theorem test_index_overflow :
    seen (fun t => (t.status, t.idx, t.outq))
      (step { activeInf [0x0000000200000000#64] with idx := 0xFFFFFFFFFFFFFFFF#64 }) =
      some (0x00000603#32, 0xFFFFFFFFFFFFFFFF#64, []) := by decide

/-- The first instruction after reset, as the host places it. -/
theorem test_with_fetch_word :
    seen (fun t => (t.mode, t.port, t.turns)) (step (State.reset.withFetchWord 64 0x0000000100000000)) =
      some (.degenerate, [], []) := by decide

/-- R174: the observation of a clean run that ends in an open call is the whole sequence read (V30's word). -/
theorem test_observation_open_call :
    observation State.reset [.beginCall 0x7F800000#32, .sample 0#32]
      { activeInf [] with hostWords := [0x3B800000#32] } = some [[0x3B800000#32]] := by decide

/-- R174, I21: a run that a reset interrupts has no observation. -/
theorem test_observation_interrupted :
    observation State.reset [.beginCall 0x7F800000#32] { activeInf [] with resets := 1 } = none := by decide

/-! ### Witnesses: the hypotheses of each statement, met together -/

theorem test_witness_verdict_fields :
    (3 < opcField 0x0000000400000000#64) ∧
    (opcField 0x0000010200000000#64 ≤ 3 ∧ rsvField 0x0000010200000000#64 ≠ 0) ∧
    (opcField 0x0000000300000001#64 = 3 ∧ opndField 0x0000000300000001#64 ≠ 0) ∧
    (opcField 0#64 = 0 ∧ rsvField 0#64 = 0) ∧
    (opcField 0x00000001FFFFFFFF#64 = 1 ∧ rsvField 0x00000001FFFFFFFF#64 = 0) ∧
    (opcField 0x0000000200000000#64 = 2 ∧ rsvField 0x0000000200000000#64 = 0) ∧
    (opcField 0x0000000300000000#64 = 3 ∧ rsvField 0x0000000300000000#64 = 0 ∧ opndField 0x0000000300000000#64 = 0) := by
  decide

theorem test_witness_offer :
    { inMode .active [7#64] with turns := [.offer 0#64] }.turns = .offer 0#64 :: [] := rfl

theorem test_witness_bytes : State.reset.rxBytes = [] ∧ (7 : Nat) < 8 ∧ ([] : List Byte).length < 8 := by decide

theorem test_witness_decoded_step :
    (inMode .idle [0#64]).port = 0#64 :: [] ∧ decode 0#64 = .command (.nop 0#32) ∧ (inMode .idle [0#64]).turns = [] ∧
      { inMode .idle [0#64] with turns := [.readOut] }.outq = [] := by decide

/-- One state and word for each clause of the check order: halted, each of the six faults, the hold, and execution. -/
theorem test_witness_check_order :
    checkOrder (inMode .idle []) 0x0000000400000000#64 = some .illegalOpcode ∧
    checkOrder (inMode .idle []) 0x0000000300000001#64 = some .reservedBits ∧
    checkOrder (inMode .idle []) 0x0000000200000000#64 = some .sampleOutsideCall ∧
    checkOrder (inMode .idle []) 0x0000000300000000#64 = some .endOutsideCall ∧
    checkOrder (inMode .degenerate []) 0x000000017F800000#64 = some .beginInsideCall ∧
    checkOrder { activeInf [] with idx := 0xFFFFFFFFFFFFFFFF#64 } 0x0000000200000000#64 = some .indexOverflow ∧
    checkOrder (activeInf []) 0x0000000200000000#64 = none ∧
    (inMode .halted [0#64]).mode = .halted ∧ (inMode .halted [0#64]).port = 0#64 :: [] := by decide

theorem test_witness_hold :
    holds (activeFull []) 0x0000000200000000#64 ∧ checkOrder (activeFull []) 0x0000000200000000#64 = none ∧
      blockTurn (activeFull []) ∧ ¬ holds (activeInf []) 0x0000000200000000#64 := by
  refine ⟨⟨by decide, rfl, by simp [activeFull]⟩, by decide, Or.inl rfl, ?_⟩
  rintro ⟨-, -, h⟩
  exact absurd h (by decide)

theorem test_witness_hold_read :
    (activeFull []).outq.length = Config.outDepth ∧ (activeFull []).mode = .active ∧
      (activeFull []).idx.toNat ≠ 2 ^ 64 - 1 ∧ (activeFull []).turns.head? ≠ some .readOut ∧
      ¬ resetTurn (activeFull []) := by
  refine ⟨by simp [activeFull], rfl, by decide, by decide, ?_⟩
  rintro ⟨w, h⟩
  cases h

theorem test_witness_hold_port :
    (activeFull [0x0000000200000000#64]).port = encode (.sample 0#32) :: [] ∧
      { activeFull [0x0000000200000000#64] with turns := [.readOut] }.turns = .readOut :: [] := by
  exact ⟨by decide, rfl⟩

theorem test_witness_modes :
    (inMode .idle []).mode = .idle ∧ (inMode .active []).mode = .active ∧ (inMode .degenerate []).mode = .degenerate ∧
      (inMode .halted []).mode = .halted ∧ ¬ resetTurn (inMode .halted []) := by
  refine ⟨rfl, rfl, rfl, rfl, ?_⟩
  rintro ⟨w, h⟩
  cases h

theorem test_witness_index_overflow :
    { activeInf [] with idx := 0xFFFFFFFFFFFFFFFF#64 }.idx.toNat = 2 ^ 64 - 1 ∧ (activeInf []).mode = .active ∧
      { inMode .degenerate [] with idx := 0xFFFFFFFFFFFFFFFF#64 }.idx.toNat = 2 ^ 64 - 1 := by decide

theorem test_witness_output_read :
    { State.reset with turns := [.readOut], outq := [7#32] }.outq = 7#32 :: [] ∧
      { State.reset with turns := [.readOut] }.outq = [] ∧
      { State.reset with turns := [.readStatus, .readStatus] }.turns = .readStatus :: .readStatus :: [] ∧
      { State.reset with turns := [.writeStatus 1#32] }.turns = .writeStatus 1#32 :: [] ∧
      { State.reset with turns := [.reset (some 0#64)] }.turns = .reset (some 0#64) :: [] := by decide

theorem test_witness_begin_rates :
    fle 0x80000000#32 0#32 = true ∧ fle 0x7F800000#32 0#32 = false ∧ isNaN 0x7FC00000#32 = true ∧
      (isNaN 0xFF800000#32 = false ∧ signBit 0xFF800000#32 = true) ∧
      (0 < (0x007FFFFF#32 : F32).toNat ∧ (0x007FFFFF#32 : F32).toNat < 2 ^ 23) ∧
      (0 < (1#32 : F32).toNat ∧ (1#32 : F32).toNat < 2 ^ 23) := by decide

theorem test_witness_sample :
    (activeInf []).mode = .active ∧ (activeInf []).idx.toNat ≠ 2 ^ 64 - 1 ∧
      (activeInf []).outq.length ≠ Config.outDepth := by
  exact ⟨rfl, by decide, by simp [activeInf, State.reset, Config.outDepth]⟩

theorem test_witness_nan_rate :
    (activeInf []).mode = .active ∧ isNaN { activeInf [] with sr := 0x7FC00000#32 }.sr = true ∧
      isNaN 0xFF800001#32 = true := by decide

theorem test_witness_end_words :
    opcField 0x0000000300000000#64 = 3 ∧ opcField 0x0000000300000001#64 = 3 ∧ opndField 0x0000000300000001#64 ≠ 0 := by
  decide

theorem test_witness_writers :
    step (inMode .idle [0x000000017F800000#64]) = .next ((inMode .idle []).openCall 0x7F800000#32) ∧
      ¬ resetTurn (inMode .idle [0x000000017F800000#64]) := by
  refine ⟨rfl, ?_⟩
  rintro ⟨w, h⟩
  cases h

/-- The three ways `MODE` changes without a reset, and the empty port. -/
theorem test_witness_mode_writers :
    (inMode .idle [0x000000017F800000#64]).port = encode (.beginCall 0x7F800000#32) :: [] ∧
      (inMode .degenerate [0x0000000300000000#64]).port = encode .endCall :: [] ∧
      checkOrder (inMode .idle [0x0000000300000000#64]) 0x0000000300000000#64 = some .endOutsideCall ∧
      (activeInf []).port = [] ∧ blockTurn (activeInf []) ∧ step (activeInf []) = .next (activeInf []) := by
  refine ⟨by decide, by decide, by decide, rfl, Or.inl rfl, rfl⟩

theorem test_witness_invariants : statusInv State.reset ∧ boundsInv State.reset ∧ envInv State.reset ∧
    callInv State.reset ∧ step State.reset = .next State.reset := by
  refine ⟨by unfold statusInv; decide, ⟨by decide, by decide⟩, ?_, ?_, rfl⟩
  · intro h; cases h
  · intro h; cases h

/-- The call invariant in an active state: it is not met by the other modes only. -/
theorem test_witness_active_invariants : callInv (activeInf []) ∧ envInv (activeInf []) ∧ (activeInf []).mode = .active := by
  refine ⟨fun _ => ⟨rfl, ?_, ?_, ?_⟩, fun _ => by decide, rfl⟩ <;> decide +kernel

theorem test_witness_emitted : (∀ w ∈ emitted { activeInf [] with outq := [0x80000000#32] }, outputWord w) ∧
    ∀ w ∈ emitted { activeInf [] with outq := [0x3B800000#32] }, outputWord w := by
  constructor
  · intro w hw
    simp [emitted, activeInf, State.reset] at hw
    subst hw
    exact Or.inr ⟨0, by decide, by decide, by decide, by decide⟩
  · intro w hw
    simp [emitted, activeInf, State.reset] at hw
    subst hw
    exact Or.inr ⟨2, by decide, by decide, by decide, by decide⟩

theorem test_witness_poison :
    poisoned { activeInf [] with hpX := 0x7FC00000#32 } ∧ poisoned { activeInf [] with lpY := 0xFF800001#32 } ∧
      isInf (modulate 0x7F800000#32 (sampleTime (activeInf []).idx (activeInf []).sr)) = true := by
  refine ⟨Or.inr (Or.inl (by decide)), Or.inr (Or.inr (by decide)), by decide +kernel⟩

/-- A processed sample moves `IDX`. -/
theorem test_witness_poison_step :
    seen (fun t => t.idx != (activeInf []).idx) (exec (.sample 0x7F800000#32) (activeInf [])) = some true := by
  decide +kernel

theorem test_witness_classes :
    isFinite 0x007FFFFF#32 = true ∧ isFinite 0xFF7FFFFF#32 = true ∧ isZero 0x80000000#32 = true ∧
      isZero 0x00000001#32 = false ∧ isInf 0xFF800000#32 = true ∧ isInf 0x7F800000#32 = true ∧
      signBit 0xFF800000#32 ≠ signBit 0x7F800000#32 ∧ isNaN 0xFF800001#32 = true ∧
      isNaN 0x7FFFFFFF#32 = true := by decide

theorem test_witness_time :
    (isNaN 0x00000001#32 = false ∧ signBit 0x00000001#32 = false ∧ isZero 0x00000001#32 = false) ∧
      isFinite (fmul 0x41E231D6#32 0x3F800000#32) = true ∧ isFinite (fmul 0x43ACC9A0#32 0x80000000#32) = true ∧
      isFinite 0x7F800000#32 = false := by decide +kernel

theorem test_witness_shapes :
    isFinite (fmul 0x7EFFFFFF#32 0x40000000#32) = true ∧ (0x4C000000 ≤ absBits 0x7F7FFFFF#32) ∧
      (0x4C000000 ≤ absBits 0x4C000000#32) ∧ (0x4B800000 ≤ absBits 0x4B800001#32) := by decide +kernel

theorem test_witness_draws :
    (0x000001FF#32 : Word32).toNat / 2 ^ 9 = 0 ∧ (0x80000000#32 : Word32).toNat / 2 ^ 9 = 2 ^ 22 ∧
      (0xFFFFFFFF#32 : Word32).toNat / 2 ^ 9 = 2 ^ 23 - 1 ∧ (0x3F800000#32 : F32).toNat ≤ 0x3F800000 := by decide

theorem test_witness_artifacts :
    drawValue 0x80000000#32 = 0x00000000#32 ∧ (0x3F70A3D7#32 : F32).toNat ≤ 0x3F70A3D7 ∧ isNaN 0x7FC00000#32 = true ∧
      isFinite (fmul 0x7EFFFFFF#32 0x40000000#32) = true ∧ isFinite (fmul 0x43ACC9A0#32 0x3F800000#32) = true := by
  decide +kernel

theorem test_witness_quantizer :
    (mag 0xBF7FFFFF#32 < 2 ^ 149 ∧ isFinite 0xBF7FFFFF#32 = true) ∧
      (signBit 0xBA7FFFFF#32 = true ∧ 2 ^ 10 * mag 0xBA7FFFFF#32 < 2 ^ 149) := by decide +kernel

theorem test_witness_call : State.reset.mode = .idle ∧ State.reset.port = [] ∧ State.reset.outq = [] ∧
    ([0#32] : List F32).length < 2 ^ 64 := by decide

/-- Words still to come on the port and in the turns, a word in `OUTQ`, and reads among the turns. -/
theorem test_witness_delivery :
    deliveryInv ([5#32] ++ commandWords [.sample 0#32, .endCall] (activeInf []))
      { activeInf [0x0000000200000000#64] with
        outq := [5#32], turns := [.readOut, .offer 0x0000000300000000#64, .accept] } := by
  refine ⟨fun a h => by simp at h, [.sample 0#32, .endCall], by decide, rfl⟩

theorem test_witness_same_call : sameCall State.reset { State.reset with rng := 1#32, env := 0x7FC00000#32 } :=
  ⟨rfl, fun h => by cases h⟩

theorem test_witness_instances : (0 : Nat) ≠ 1 ∧
    stepInstance 0 [State.reset, State.reset] = .next [State.reset, State.reset] ∧
    stepInstance 1 [State.reset, State.reset] = .next [State.reset, State.reset] := ⟨by decide, rfl, rfl⟩

end Sys2Proof.Tests
end

section
/-! The proofs of the statements about the binary32 primitives (00_scope.md section 4, R12 to R17): correct rounding, the
special values, the comparisons, rounding to an integral value, and the properties of `sinF` and `expF`. -/

namespace Sys2Proof.Machine
open Sys2Proof.Safety

/-! ### Correct rounding (R12) -/

/-- `roundHalfEven n d` is an integer nearest to `n / d`, and an even one when another integer is as near. -/
theorem roundHalfEven_nearest (n d k : Nat) (hd : 0 < d) :
    (((roundHalfEven n d * d : Nat) : Int) - n).natAbs ≤ (((k * d : Nat) : Int) - n).natAbs ∧
      ((((k * d : Nat) : Int) - n).natAbs = (((roundHalfEven n d * d : Nat) : Int) - n).natAbs →
        k ≠ roundHalfEven n d → roundHalfEven n d % 2 = 0) := by
  obtain ⟨herr1, herr2⟩ := roundHalfEven_error n d hd
  have htie := roundHalfEven_tie n d hd
  generalize roundHalfEven n d = q at *
  rcases lt_trichotomy k q with hlt | rfl | hgt
  · have : k * d + d ≤ q * d := Nat.succ_mul k d ▸ Nat.mul_le_mul_right d hlt
    refine ⟨by omega, fun he _ => htie (by omega)⟩
  · exact ⟨le_rfl, fun _ hne => absurd rfl hne⟩
  · have : q * d + d ≤ k * d := Nat.succ_mul q d ▸ Nat.mul_le_mul_right d hgt
    refine ⟨by omega, fun he _ => htie (by omega)⟩

/-- From the binade of `e` dropped bits on, every magnitude is a multiple of `2 ^ e`. -/
theorem exists_magOfBits_eq_mul {e c : Nat} (h : e = 0 ∨ e * 2 ^ 23 + 2 ^ 23 ≤ c) :
    ∃ k, magOfBits c = k * 2 ^ e := by
  rcases bits_split c with hc | ⟨f, m, rfl, h1, h2⟩
  · have he : e = 0 := by omega
    exact ⟨magOfBits c, by simp [he]⟩
  · have hle : e ≤ f := by omega
    refine ⟨m * 2 ^ (f - e), ?_⟩
    rw [magOfBits_scaled h1 h2.le, mul_assoc, ← pow_add, Nat.sub_add_cancel hle]

/-- Below the binade of `e` dropped bits, every magnitude is below that binade's first one. -/
theorem magOfBits_lt_binade {e c : Nat} (h : c < e * 2 ^ 23 + 2 ^ 23) : magOfBits c < 2 ^ 23 * 2 ^ e :=
  (magOfBits_strictMono h).trans_eq (magOfBits_scaled le_rfl (by decide))

theorem roundBits_eq_of_lt_infBits {n d : Nat} (h : roundBits n d < infBits) :
    roundBits n d = excess n d * 2 ^ 23 + roundHalfEven n (d * 2 ^ excess n d) :=
  min_eq_left ((min_lt_iff.mp h).resolve_right (lt_irrefl _)).le

/-- The rounded magnitude is nearest to the exact one, its low bit clear on a tie. -/
theorem distance_roundBits_le {n d c : Nat} (hd : 0 < d) (h : roundBits n d < infBits) :
    distance n d (roundBits n d) ≤ distance n d c ∧
      (distance n d c = distance n d (roundBits n d) → c ≠ roundBits n d → roundBits n d % 2 = 0) := by
  have hbits := roundBits_eq_of_lt_infBits h
  have hmag := magOfBits_rounded n d hd
  rw [← hbits] at hmag
  have hexact : excess n d ≠ 0 → 2 ^ 23 * 2 ^ excess n d * d ≤ n := fun he => by
    have hge := (Nat.le_div_iff_mul_le hd).mp ((excess_spec n d).2 he)
    rwa [pow_add, mul_comm (2 ^ _) (2 ^ 23)] at hge
  have hnear := fun k => roundHalfEven_nearest n (d * 2 ^ excess n d) k (by positivity)
  generalize excess n d = e at *
  generalize roundHalfEven n (d * 2 ^ e) = q at *
  have hdist : ∀ b k, magOfBits b = k * 2 ^ e →
      distance n d b = (((k * (d * 2 ^ e) : Nat) : Int) - n).natAbs := fun b k hb => by
    rw [distance, ← Nat.cast_mul, hb, mul_assoc, mul_comm (2 ^ e) d]
  rw [hdist _ _ hmag]
  by_cases hc : e = 0 ∨ e * 2 ^ 23 + 2 ^ 23 ≤ c
  · obtain ⟨k, hk⟩ := exists_magOfBits_eq_mul hc
    obtain ⟨hle, htie⟩ := hnear k
    rw [hdist _ _ hk]
    refine ⟨hle, fun heq hne => ?_⟩
    have hkq : k ≠ q := fun hkq => hne (magOfBits_strictMono.injective (by rw [hk, hmag, hkq]))
    have := htie heq hkq
    omega
  · have hlow : magOfBits c * d < 2 ^ 23 * 2 ^ e * d :=
      Nat.mul_lt_mul_of_pos_right (magOfBits_lt_binade (by omega)) hd
    have hn := hexact (by omega)
    have hfar : (((2 ^ 23 * (d * 2 ^ e) : Nat) : Int) - n).natAbs < distance n d c := by
      rw [distance, ← Nat.cast_mul, mul_comm d, ← mul_assoc]
      omega
    have hlt := lt_of_le_of_lt (hnear (2 ^ 23)).1 hfar
    exact ⟨hlt.le, fun heq => absurd heq hlt.ne'⟩

/-- Rounding overflows exactly from half a unit beyond the largest finite magnitude on. -/
theorem roundBits_eq_infBits_iff {n d : Nat} (hd : 0 < d) :
    roundBits n d = infBits ↔ (2 ^ 25 - 1) * 2 ^ 253 * d ≤ 2 * n := by
  constructor
  · intro h
    by_contra hlt
    have hlt := not_le.mp hlt
    have he : excess n d ≤ 253 := excess_le_of_lt hd (by omega)
    have hq := (significand_bounds n d hd).1
    have hinf : infBits ≤ excess n d * 2 ^ 23 + roundHalfEven n (d * 2 ^ excess n d) :=
      h.symm.le.trans (min_le_left _ _)
    have hi : infBits = 253 * 2 ^ 23 + 2 ^ 24 := by decide
    have he' : excess n d = 253 := by omega
    have herr := (roundHalfEven_error n (d * 2 ^ excess n d) (by positivity)).1
    rw [he'] at hinf herr hq
    have hq' : roundHalfEven n (d * 2 ^ 253) = 2 ^ 24 := by omega
    rw [hq'] at herr
    omega
  · intro h
    refine le_antisymm (roundBits_le_infBits n d) ?_
    have hmid : roundBits ((2 ^ 25 - 1) * 2 ^ 253) 2 = infBits := by decide +kernel
    rw [← hmid]
    exact roundBits_mono (by decide) hd (by omega)

/-- Rounding is correct, whatever the sign. -/
theorem nearest_pack_roundBits (neg : Bool) (n : Nat) {d : Nat} (hd : 0 < d) :
    nearest n d (pack neg (roundBits n d)) := by
  refine ⟨isNaN_pack_round neg n d, ?_, fun hfin c _ => ?_⟩
  · simp only [isInf, absBits_pack_round, decide_eq_true_eq]
    exact roundBits_eq_infBits_iff hd
  · rw [absBits_pack_round]
    exact distance_roundBits_le hd (by simpa using absBits_lt_infBits hfin)

theorem nearest_roundInt (zeroNeg : Bool) (v : Int) : nearest v.natAbs 1 (roundInt zeroNeg v) :=
  nearest_pack_roundBits _ _ (by decide)

theorem signBit_roundInt (zeroNeg : Bool) (v : Int) :
    signBit (roundInt zeroNeg v) = if v = 0 then zeroNeg else decide (v < 0) :=
  signBit_pack_round _ _ _

/-- Settles O35: on finite operands each operation is one `roundBits` of the exact result, which is correctly rounded. -/
theorem arithmeticRoundsToNearestEven : Obligations.ArithmeticRoundsToNearestEven := by
  intro a b ha hb
  refine ⟨?_, ?_, ?_, fun h0 => ?_⟩
  · rw [fadd_finite ha hb]
    exact ⟨nearest_roundInt _ _, signBit_roundInt _ _⟩
  · rw [fsub_finite ha hb]
    exact ⟨nearest_roundInt _ _, signBit_roundInt _ _⟩
  · rw [fmul_finite ha hb]
    exact ⟨nearest_pack_roundBits _ _ (by decide), signBit_pack_round _ _ _⟩
  · rw [fdiv_finite ha hb h0]
    exact ⟨nearest_pack_roundBits _ _ (mag_pos_of_not_isZero h0), signBit_pack_round _ _ _⟩

/-! ### The comparisons (R12) -/

theorem isNaN_of_isFinite {a : F32} (h : isFinite a = true) : isNaN a = false := ((isFinite_iff a).mp h).1

theorem isInf_of_isFinite {a : F32} (h : isFinite a = true) : isInf a = false := ((isFinite_iff a).mp h).2

theorem absBits_of_isInf {a : F32} (h : isInf a = true) : absBits a = infBits := by simpa [isInf] using h

theorem isNaN_of_isInf {a : F32} (h : isInf a = true) : isNaN a = false := by
  simp [isNaN, absBits_of_isInf h]

theorem ordered_of_not_isNaN {a b : F32} (ha : isNaN a = false) (hb : isNaN b = false) : ordered a b = true := by
  simp [ordered, ha, hb]

/-- On operands that are not NaN the comparisons are those of the keys. -/
theorem compare_iff_ordKey {a b : F32} (ha : isNaN a = false) (hb : isNaN b = false) :
    (fgt a b = true ↔ ordKey b < ordKey a) ∧ (fge a b = true ↔ ordKey b ≤ ordKey a) ∧
      (fle a b = true ↔ ordKey a ≤ ordKey b) ∧ (flt a b = true ↔ ordKey a < ordKey b) := by
  simp [fgt, fge, fle, flt, ordered_of_not_isNaN ha hb]

theorem compare_isNaN {a b : F32} (h : isNaN a = true ∨ isNaN b = true) :
    fgt a b = false ∧ fge a b = false ∧ fle a b = false ∧ flt a b = false := by
  have hu : ordered a b = false := by simpa [ordered, imp_iff_not_or] using h
  simp [fgt, fge, fle, flt, hu]

/-- A magnitude bounds the key on both sides. -/
theorem ordKey_bounds (a : F32) : -(absBits a : Int) ≤ ordKey a ∧ ordKey a ≤ absBits a := by
  unfold ordKey; split <;> omega

theorem ordKey_of_isInf {a : F32} (h : isInf a = true) :
    ordKey a = if signBit a then -(infBits : Int) else infBits := by
  rw [ordKey, absBits_of_isInf h]

/-- An operand whose key is below the other's compares as less, and in no other way. -/
theorem compare_of_ordKey_lt {a b : F32} (ha : isNaN a = false) (hb : isNaN b = false) (h : ordKey a < ordKey b) :
    (flt a b = true ∧ fle a b = true ∧ fgt a b = false ∧ fge a b = false) ∧
      (fgt b a = true ∧ fge b a = true ∧ flt b a = false ∧ fle b a = false) := by
  simp [fgt, fge, fle, flt, ordered_of_not_isNaN ha hb, ordered_of_not_isNaN hb ha, h, h.le]

/-- The key of a finite operand lies strictly between the keys of the infinities. -/
theorem ordKey_finite_between {a : F32} (h : isFinite a = true) :
    ordKey 0xFF800000#32 < ordKey a ∧ ordKey a < ordKey 0x7F800000#32 := by
  have hlt := absBits_lt_infBits h
  obtain ⟨h1, h2⟩ := ordKey_bounds a
  rw [show ordKey 0xFF800000#32 = -(infBits : Int) by decide, show ordKey 0x7F800000#32 = infBits by decide]
  omega

/-- Settles O37: off NaN the comparisons are those of the keys, which order the finite values and place the infinities
beyond them. -/
theorem comparisonsAreOrdered : Obligations.ComparisonsAreOrdered := by
  refine ⟨fun a b h => compare_isNaN h, fun a b ha hb => ?_, fun a ha => ?_, fun a b ha hb => ?_,
    by decide, by decide⟩
  · simp only [value_lt_iff_ordKey, value_le_iff_ordKey]
    exact compare_iff_ordKey (isNaN_of_isFinite ha) (isNaN_of_isFinite hb)
  · obtain ⟨hneg, hpos⟩ := ordKey_finite_between ha
    have hn := isNaN_of_isFinite ha
    obtain ⟨ltPos, gtPos⟩ := compare_of_ordKey_lt hn (by decide) hpos
    obtain ⟨ltNeg, gtNeg⟩ := compare_of_ordKey_lt (by decide) hn hneg
    exact ⟨ltPos, gtPos, gtNeg, ltNeg⟩
  · obtain ⟨hgt, hge, hle, hlt⟩ := compare_iff_ordKey (isNaN_of_isInf ha) (isNaN_of_isInf hb)
    rw [hgt, hge, hle, hlt, ordKey_of_isInf ha, ordKey_of_isInf hb]
    cases signBit a <;> cases signBit b <;> decide

/-! ### Special values (R12, R16) -/

theorem isInf_fneg (a : F32) : isInf (fneg a) = isInf a := by simp [isInf, absBits_fneg]

theorem isZero_of_isInf {a : F32} (h : isInf a = true) : isZero a = false := by
  simp [isZero, absBits_of_isInf h, infBits]

theorem isFinite_of_isZero {a : F32} (h : isZero a = true) : isFinite a = true := by
  have h0 : absBits a = 0 := by simpa [isZero] using h
  simp [isFinite, h0, infBits]

theorem isInf_pack_infBits (neg : Bool) : isInf (pack neg infBits) = true := by cases neg <;> decide

theorem signBit_pack_infBits (neg : Bool) : signBit (pack neg infBits) = neg := signBit_pack neg (by decide)

theorem signBit_pack_zero (neg : Bool) : signBit (pack neg 0) = neg := signBit_pack neg (by decide)

/-- A sum with an infinite first operand: that operand, but a NaN beside the opposite infinity. -/
theorem sumAs_isInf_left {op : FpOp} {a b : F32} (ha : isInf a = true) (hb : isNaN b = false) :
    sumAs op a b = if isInf b && (signBit a != signBit b) then nanResult op a b else a := by
  simp [sumAs, isNaN_of_isInf ha, hb, ha]

theorem sumAs_isInf_right {op : FpOp} {a b : F32} (ha : isFinite a = true) (hb : isInf b = true) :
    sumAs op a b = b := by
  simp [sumAs, isNaN_of_isFinite ha, isNaN_of_isInf hb, isInf_of_isFinite ha, hb]

theorem fmul_isInf {a b : F32} (ha : isNaN a = false) (hb : isNaN b = false) (h : isInf a = true ∨ isInf b = true)
    (za : isZero a = false) (zb : isZero b = false) : fmul a b = pack (signBit a != signBit b) infBits := by
  simp [fmul, ha, hb, h, za, zb]

/-- Infinity times zero is invalid, in either order. -/
theorem isNaN_fmul_isInf_isZero {a b : F32} (ha : isInf a = true) (hb : isZero b = true) :
    isNaN (fmul a b) = true ∧ isNaN (fmul b a) = true := by
  simp [fmul, ha, hb]

/-- Infinity by infinity and zero by zero are invalid. -/
theorem isNaN_fdiv_invalid {a b : F32}
    (h : (isInf a = true ∧ isInf b = true) ∨ (isZero a = true ∧ isZero b = true)) : isNaN (fdiv a b) = true := by
  simp [fdiv, h]

theorem fdiv_isInf_left {a b : F32} (ha : isInf a = true) (hb : isFinite b = true) :
    fdiv a b = pack (signBit a != signBit b) infBits := by
  simp [fdiv, isNaN_of_isInf ha, isNaN_of_isFinite hb, isInf_of_isFinite hb, isZero_of_isInf ha, ha]

theorem fdiv_isInf_right {a b : F32} (ha : isFinite a = true) (hb : isInf b = true) :
    fdiv a b = pack (signBit a != signBit b) 0 := by
  simp [fdiv, isNaN_of_isFinite ha, isNaN_of_isInf hb, isInf_of_isFinite ha, isZero_of_isInf hb, hb]

theorem fdiv_isZero_right {a b : F32} (ha : isFinite a = true) (za : isZero a = false) (hb : isZero b = true) :
    fdiv a b = pack (signBit a != signBit b) infBits := by
  have hfb := isFinite_of_isZero hb
  simp [fdiv, isNaN_of_isFinite ha, isNaN_of_isFinite hfb, isInf_of_isFinite ha, za, hb]

theorem isNaN_arithmetic {a b : F32} (h : isNaN a = true ∨ isNaN b = true) :
    isNaN (fadd a b) = true ∧ isNaN (fsub a b) = true ∧ isNaN (fmul a b) = true ∧ isNaN (fdiv a b) = true := by
  have h' : (isNaN a || isNaN b) = true := by simpa using h
  exact ⟨isNaN_fadd a b h', isNaN_fsub a b h', isNaN_fmul a b h', isNaN_fdiv a b h'⟩

/-- The sum and the difference of two infinities: the first one, or a NaN where they would cancel. -/
theorem sum_isInf_isInf {a b : F32} (ha : isInf a = true) (hb : isInf b = true) :
    (signBit a ≠ signBit b → isNaN (fadd a b) = true ∧ fsub a b = a) ∧
      (signBit a = signBit b → fadd a b = a ∧ isNaN (fsub a b) = true) := by
  have hb' : isInf (fneg b) = true := (isInf_fneg b).trans hb
  simp only [fadd, fsub, sumAs_isInf_left ha (isNaN_of_isInf hb), sumAs_isInf_left ha (isNaN_of_isInf hb'), hb, hb',
    signBit_fneg]
  cases signBit a <;> cases signBit b <;> simp

/-- The sums and differences of an infinity and a finite operand, in either order. -/
theorem sum_isInf_isFinite {a b : F32} (ha : isInf a = true) (hb : isFinite b = true) :
    fadd a b = a ∧ fadd b a = a ∧ fsub a b = a ∧ fsub b a = fneg a := by
  have hb' : isFinite (fneg b) = true := (isFinite_fneg b).trans hb
  refine ⟨?_, sumAs_isInf_right hb ha, ?_, sumAs_isInf_right hb ((isInf_fneg a).trans ha)⟩
  · simp [fadd, sumAs_isInf_left ha (isNaN_of_isFinite hb), isInf_of_isFinite hb]
  · simp [fsub, sumAs_isInf_left ha (isNaN_of_isFinite hb'), isInf_of_isFinite hb']

/-- Settles O36: NaN operands, two infinities, one infinity beside a finite operand, division by zero. -/
theorem arithmeticSpecialValues : Obligations.ArithmeticSpecialValues := by
  refine ⟨fun a b h => isNaN_arithmetic h, fun a b ha hb => ?_, fun a b ha hb => ?_,
    fun a b ha hb => ⟨fun za => ?_, fun za => ?_⟩⟩
  · obtain ⟨hne, heq⟩ := sum_isInf_isInf ha hb
    rw [fmul_isInf (isNaN_of_isInf ha) (isNaN_of_isInf hb) (.inl ha) (isZero_of_isInf ha) (isZero_of_isInf hb)]
    exact ⟨isNaN_fdiv_invalid (.inl ⟨ha, hb⟩), hne, heq, isInf_pack_infBits _, signBit_pack_infBits _⟩
  · obtain ⟨h1, h2, h3, h4⟩ := sum_isInf_isFinite ha hb
    have na := isNaN_of_isInf ha
    have nb := isNaN_of_isFinite hb
    refine ⟨h1, h2, h3, h4, isNaN_fmul_isInf_isZero ha, fun zb => ?_, ?_⟩
    · rw [fmul_isInf na nb (.inl ha) (isZero_of_isInf ha) zb, fmul_isInf nb na (.inr ha) zb (isZero_of_isInf ha),
        bne_comm (a := signBit b)]
      exact ⟨isInf_pack_infBits _, rfl, signBit_pack_infBits _⟩
    · rw [fdiv_isInf_left ha hb, fdiv_isInf_right hb ha, bne_comm (a := signBit b)]
      exact ⟨isInf_pack_infBits _, signBit_pack_infBits _, isZero_pack _, signBit_pack_zero _⟩
  · exact isNaN_fdiv_invalid (.inr ⟨za, hb⟩)
  · rw [fdiv_isZero_right ha za hb]
    exact ⟨isInf_pack_infBits _, signBit_pack_infBits _⟩

/-! ### Rounding to an integral value (R14) -/

/-- A significand of at most `2 ^ 24` with `e` low zero bits is the magnitude of a pattern. -/
theorem exists_magOfBits_scaled (e : Nat) {k : Nat} (hk : k ≤ 2 ^ 24) : ∃ b, magOfBits b = k * 2 ^ e := by
  induction e generalizing k with
  | zero => exact ⟨k, by simp [magOfBits_small hk]⟩
  | succ e ih =>
    by_cases h : 2 ^ 23 ≤ k
    · exact ⟨(e + 1) * 2 ^ 23 + k, magOfBits_scaled h hk⟩
    · obtain ⟨b, hb⟩ := ih (k := 2 * k) (by omega)
      exact ⟨b, by rw [hb, pow_succ]; ring⟩

/-- From `2 ^ 23` on every binary32 value is an integer; below, it is less than `2 ^ 23`. -/
theorem magOfBits_integral_or_lt (b : Nat) :
    (∃ k, magOfBits b = k * unit) ∨ magOfBits b < 2 ^ 23 * unit := by
  by_cases h : 149 * 2 ^ 23 + 2 ^ 23 ≤ b
  · exact .inl (exists_magOfBits_eq_mul (.inr h))
  · exact .inr (magOfBits_lt_binade (by omega))

theorem roundHalfAway_mul_unit (k : Nat) : roundHalfAway (k * unit) = k := by
  unfold roundHalfAway unit; omega

/-- The integral value that rounding a finite value gives is itself a finite binary32 value. -/
theorem exists_magOfBits_eq_roundHalfAway {a : F32} (h : isFinite a = true) :
    ∃ b, b < infBits ∧ magOfBits b = roundHalfAway (mag a) * unit := by
  rcases magOfBits_integral_or_lt (absBits a) with ⟨k, hk⟩ | hlt
  · have hm : mag a = k * unit := hk
    exact ⟨absBits a, absBits_lt_infBits h, by rw [hm, roundHalfAway_mul_unit, hk]⟩
  · have hk : roundHalfAway (mag a) ≤ 2 ^ 23 := by
      have hm : mag a < 2 ^ 23 * unit := hlt
      unfold roundHalfAway unit at *; omega
    obtain ⟨b, hb⟩ := exists_magOfBits_scaled 149 (hk.trans (by decide : 2 ^ 23 ≤ 2 ^ 24))
    refine ⟨b, magOfBits_strictMono.lt_iff_lt.mp ?_, hb⟩
    have hinf : magOfBits infBits = 2 ^ 24 * 2 ^ 253 := magOfBits_scaled (e := 253) (by decide) le_rfl
    rw [hb, hinf]
    omega

/-- Rounding a finite value keeps the sign and rounds the magnitude exactly: no second rounding happens. -/
theorem fround_finite {a : F32} (h : isFinite a = true) :
    signBit (fround a) = signBit a ∧ isFinite (fround a) = true ∧ mag (fround a) = roundHalfAway (mag a) * unit := by
  obtain ⟨b, hb, hmag⟩ := exists_magOfBits_eq_roundHalfAway h
  have hr : roundBits (roundHalfAway (mag a) * unit) 1 = b := by
    simpa [hmag] using roundBits_exact hb.le one_pos
  have hf : fround a = pack (signBit a) b := by
    simp [fround, isNaN_of_isFinite h, isInf_of_isFinite h, hr]
  have hlt : b < 2 ^ 31 := hb.trans (by decide)
  rw [hf, signBit_pack _ hlt, mag, absBits_pack _ hlt]
  exact ⟨rfl, isFinite_pack hb, hmag⟩

theorem fround_isInf {a : F32} (h : isInf a = true) : fround a = a := by
  simp [fround, h, isNaN_of_isInf h]

/-- `floor(m + 1/2)` with the half cleared by doubling. -/
theorem roundHalfAway_eq (m : Nat) : roundHalfAway m = (2 * m + 2 ^ 149) / (2 * 2 ^ 149) := by
  unfold roundHalfAway unit; omega

/-- Settles O38: the rounded magnitude is representable, so `fround` returns it exactly. -/
theorem roundIsHalfAwayFromZero : Obligations.RoundIsHalfAwayFromZero := by
  refine ⟨isNaN_fround, fun a h => fround_isInf h, fun a h => ?_, ?_⟩
  · rw [← roundHalfAway_eq]
    exact fround_finite h
  · decide +kernel

/-! ### The configuration functions (R15) -/

/-- A magnitude of at most 1.0 lies in `[-1, 1]`. -/
theorem between_one_of_absBits_le {a : F32} (h : absBits a ≤ oneBits) :
    fle 0xBF800000#32 a = true ∧ fle a 0x3F800000#32 = true := by
  have hn : isNaN a = false := by
    have : oneBits < infBits := by decide
    simp only [isNaN, decide_eq_false_iff_not]; omega
  obtain ⟨h1, h2⟩ := ordKey_bounds a
  obtain ⟨_, _, hlo, _⟩ := compare_iff_ordKey (show isNaN 0xBF800000#32 = false by decide) hn
  obtain ⟨_, _, hhi, _⟩ := compare_iff_ordKey hn (show isNaN 0x3F800000#32 = false by decide)
  rw [hlo, hhi, show ordKey 0xBF800000#32 = -(oneBits : Int) by decide, show ordKey 0x3F800000#32 = oneBits by decide]
  omega

/-- A pattern of at most the bits of `+Inf` lies in `[+0, +Inf]`. -/
theorem between_zero_inf_of_toNat_le {a : F32} (h : a.toNat ≤ infBits) :
    fle 0x00000000#32 a = true ∧ fle a 0x7F800000#32 = true := by
  have hi : infBits = 0x7F800000 := rfl
  have habs : absBits a = a.toNat := Nat.mod_eq_of_lt (by omega)
  have hkey : ordKey a = a.toNat := by
    have hs : signBit a = false := by simp only [signBit_eq, decide_eq_false_iff_not]; omega
    simp [ordKey, hs, habs]
  have hn : isNaN a = false := by simpa [isNaN, habs] using h
  obtain ⟨_, _, hlo, _⟩ := compare_iff_ordKey (show isNaN 0x00000000#32 = false by decide) hn
  obtain ⟨_, _, hhi, _⟩ := compare_iff_ordKey hn (show isNaN 0x7F800000#32 = false by decide)
  rw [hlo, hhi, hkey, show ordKey 0x00000000#32 = 0 by decide, show ordKey 0x7F800000#32 = infBits by decide]
  omega

theorem isNaN_sinF {a : F32} (h : isNaN a = true ∨ isInf a = true) : isNaN (sinF a) = true := by
  simp [sinF, h]

theorem sinF_isZero {a : F32} (h : isZero a = true) : sinF a = a := by
  have hf := isFinite_of_isZero h
  simp [sinF, isNaN_of_isFinite hf, isInf_of_isFinite hf, h]

theorem isNaN_expF {a : F32} (h : isNaN a = true) : isNaN (expF a) = true := by
  simp [expF, h]

theorem expF_isInf {a : F32} (h : isInf a = true) :
    expF a = if signBit a then 0#32 else pack false infBits := by
  simp [expF, isNaN_of_isInf h, h]

theorem expF_isZero {a : F32} (h : isZero a = true) : expF a = pack false oneBits := by
  have hf := isFinite_of_isZero h
  simp [expF, isNaN_of_isFinite hf, isInf_of_isFinite hf, h]

/-- The exponential is within `[+0, +Inf]` off NaN: each branch of `expF` gives such a pattern. -/
theorem toNat_expF_le {a : F32} (h : isNaN a = false) : (expF a).toNat ≤ infBits := by
  unfold expF
  rw [if_neg (by simp [h])]
  split
  · split <;> decide
  · split
    · decide
    · split
      · assumption
      · decide

/-- Settles O39: the guards of `sinF` and `expF` give each property of R15, whatever the free values are. -/
theorem sineAndExponentialProperties : Obligations.SineAndExponentialProperties := by
  refine ⟨sinF_isZero (by decide), sinF_isZero (by decide), isNaN_sinF (.inr (by decide)),
    isNaN_sinF (.inr (by decide)), fun a h => isNaN_sinF (.inl h), ?_, ?_, ?_, ?_, fun a h => isNaN_expF h,
    fun a h => between_one_of_absBits_le (absBits_sinF_le h),
    fun a h => between_zero_inf_of_toNat_le (toNat_expF_le (isNaN_of_isFinite h))⟩
  · exact (expF_isZero (by decide)).trans (by decide)
  · exact (expF_isZero (by decide)).trans (by decide)
  · exact expF_isInf (by decide)
  · exact (expF_isInf (by decide)).trans (by decide)

end Sys2Proof.Machine
end

section
/-! What one step can do, with the word it accepts and the fault it takes: the verdict on a word by its fields
(30_encoding.md R58), the fault of the check order (60_exceptions.md R157), the effect of an accept step, and what the
host's turns leave unchanged (20_memory.md R50). The statements about the state (10_state.md) are settled from these. -/

namespace Sys2Proof.Machine
open Sys2Proof.Safety

/-! ### The fields of a word (30_encoding.md R55, R58) -/

theorem opcField_eq (w : CmdWord) : opcField w = w.opc.toNat := by
  simp [opcField, CmdWord.opc, Nat.shiftRight_eq_div_pow]

theorem rsvField_eq (w : CmdWord) : rsvField w = w.rsv.toNat := by
  have hlt : w.toNat / 2 ^ 40 < 2 ^ 24 := by have := w.isLt; omega
  simp only [rsvField, CmdWord.rsv, BitVec.extractLsb'_toNat, Nat.shiftRight_eq_div_pow, Nat.mod_eq_of_lt hlt]

theorem opndField_eq (w : CmdWord) : opndField w = w.opnd.toNat := by
  simp [opndField, CmdWord.opnd]

/-- A word is its three fields. -/
theorem toNat_eq_fields (w : CmdWord) : w.toNat = rsvField w * 2 ^ 40 + opcField w * 2 ^ 32 + opndField w := by
  unfold rsvField opcField opndField
  omega

theorem eq_of_fields_eq {w v : CmdWord} (hr : w.rsv = v.rsv) (hc : w.opc = v.opc) (ho : w.opnd = v.opnd) : w = v := by
  apply BitVec.eq_of_toNat_eq
  simp only [toNat_eq_fields, rsvField_eq, opcField_eq, opndField_eq, hr, hc, ho]

/-- The word put together from the fields of a legal command is that command's. -/
theorem encode_commandOf {opc : BitVec 8} {opnd : BitVec 32} (hc : opc.toNat ≤ 3) (he : opc = 3#8 → opnd = 0#32) :
    encode (commandOf opc opnd) = assembleWord opc opnd := by
  unfold commandOf
  split_ifs with h0 h1 h2
  · rw [h0]; rfl
  · rw [h1]; rfl
  · rw [h2]; rfl
  · have h3 : opc = 3#8 := by bv_omega
    rw [h3, he h3]; rfl

/-- Everything the decoder can answer, by the fields of the word. -/
theorem decode_cases (w : CmdWord) :
    (3 < opcField w ∧ decode w = .illegalOpcode) ∨
    (opcField w ≤ 3 ∧ (rsvField w ≠ 0 ∨ (opcField w = 3 ∧ opndField w ≠ 0)) ∧ decode w = .reservedBits) ∨
    ∃ i, w = encode i ∧ decode w = .command i := by
  have hz : rsvField w = 0 ↔ w.rsv = 0#24 := by rw [rsvField_eq, BitVec.toNat_eq]; rfl
  have hend : opcField w = 3 ↔ w.opc = 3#8 := by rw [opcField_eq, BitVec.toNat_eq]; rfl
  have hop : opndField w = 0 ↔ w.opnd = 0#32 := by rw [opndField_eq, BitVec.toNat_eq]; rfl
  have hlt : 3 < opcField w ↔ 3#8 < w.opc := by rw [opcField_eq, BitVec.lt_def]; rfl
  rw [ne_eq, ne_eq, hz, hend, hop]
  unfold decode
  split_ifs with hc hr ho
  · exact .inl ⟨hlt.mpr hc, rfl⟩
  · exact .inr (.inl ⟨not_lt.mp (mt hlt.mp hc), .inl hr, rfl⟩)
  · exact .inr (.inl ⟨not_lt.mp (mt hlt.mp hc), .inr ho, rfl⟩)
  · refine .inr (.inr ⟨_, ?_, rfl⟩)
    have hle : w.opc.toNat ≤ 3 := opcField_eq w ▸ not_lt.mp (mt hlt.mp hc)
    rw [encode_commandOf hle (fun h3 => not_not.mp fun h => ho ⟨h3, h⟩)]
    exact eq_of_fields_eq (by simpa using hr) (by simp) (by simp)

/-! ### The fault of the check order (60_exceptions.md R157) -/

theorem checkOrder_illegalOpcode (s : State) {w : CmdWord} (h : 3 < opcField w) :
    checkOrder s w = some .illegalOpcode := if_pos h

theorem checkOrder_reservedBits (s : State) {w : CmdWord} (hc : opcField w ≤ 3)
    (hr : rsvField w ≠ 0 ∨ (opcField w = 3 ∧ opndField w ≠ 0)) : checkOrder s w = some .reservedBits := by
  rw [checkOrder, if_neg (not_lt.mpr hc), if_pos hr]

@[simp] theorem rsvField_assembleWord (opc : BitVec 8) (opnd : BitVec 32) : rsvField (assembleWord opc opnd) = 0 := by
  simp [rsvField_eq]

@[simp] theorem opcField_assembleWord (opc : BitVec 8) (opnd : BitVec 32) :
    opcField (assembleWord opc opnd) = opc.toNat := by
  simp [opcField_eq]

@[simp] theorem opndField_assembleWord (opc : BitVec 8) (opnd : BitVec 32) :
    opndField (assembleWord opc opnd) = opnd.toNat := by
  simp [opndField_eq]

theorem checkOrder_sample_idle {s : State} (x : F32) (h : s.mode = .idle) :
    checkOrder s (encode (.sample x)) = some .sampleOutsideCall := by
  simp [checkOrder, encode, h]

theorem checkOrder_end_idle {s : State} (h : s.mode = .idle) :
    checkOrder s (encode .endCall) = some .endOutsideCall := by
  simp [checkOrder, encode, h]

theorem checkOrder_begin_open {s : State} (sr : F32) (h : s.mode ≠ .idle) :
    checkOrder s (encode (.beginCall sr)) = some .beginInsideCall := by
  simp [checkOrder, encode, h]

theorem checkOrder_sample_overflow {s : State} (x : F32) (hm : s.mode = .active) (hi : s.idx = IDX_MAX) :
    checkOrder s (encode (.sample x)) = some .indexOverflow := by
  simp [checkOrder, encode, hm, hi, IDX_MAX]

/-! ### What an accept step can do -/

/-- What an accept step can do to `s`, with the word at the head of the port that makes it do so. -/
inductive AcceptEffect (s : State) : State → Prop
  /-- No word is on the port (R168). -/
  | idle : s.port = [] → AcceptEffect s s
  /-- The word is accepted and has no effect: a `NOP`, a `SAMPLE` of a degenerate call, any word in HALTED. -/
  | ignored (w : CmdWord) (rest : List CmdWord) : s.port = w :: rest → AcceptEffect s s.accept
  /-- The word's fault is taken (R152). -/
  | fault (w : CmdWord) (rest : List CmdWord) (c : Cause) : s.port = w :: rest → s.mode ≠ .halted →
      checkOrder s w = some c → AcceptEffect s (s.takeFault c)
  /-- A `BEGIN` opens a call (R71). -/
  | opened (sr : F32) (rest : List CmdWord) : s.port = encode (.beginCall sr) :: rest → s.mode = .idle →
      AcceptEffect s (s.openCall sr).accept
  /-- A `SAMPLE` is held (20_memory.md R42). -/
  | held (x : F32) (rest : List CmdWord) : s.port = encode (.sample x) :: rest → s.mode = .active →
      s.outq.length = Config.outDepth → AcceptEffect s s
  /-- A `SAMPLE` is processed (R72). -/
  | processed (x : F32) (rest : List CmdWord) : s.port = encode (.sample x) :: rest → s.mode = .active →
      s.idx ≠ IDX_MAX → s.outq.length ≠ Config.outDepth → AcceptEffect s (s.processSample x).accept
  /-- An `END` closes the call (R74). -/
  | closed (rest : List CmdWord) : s.port = encode .endCall :: rest → s.mode = .active ∨ s.mode = .degenerate →
      AcceptEffect s (State.accept { s with mode := .idle })

/-- A command whose word is at the head of the port. -/
theorem exec_effect {i : Instr} {s t : State} {rest : List CmdWord} (hp : s.port = encode i :: rest)
    (h : exec i s = .next t) : AcceptEffect s t := by
  cases i with
  | nop opnd =>
    cases h
    exact .ignored _ _ hp
  | beginCall sr =>
    rcases exec_begin_cases sr s with ⟨_, he⟩ | ⟨hm, he⟩ | ⟨hm, he⟩ <;> rw [he] at h <;> cases h
    · exact .ignored _ _ hp
    · exact .opened _ _ hp hm
    · exact .fault _ _ _ hp (by rcases hm with hm | hm <;> simp [hm])
        (checkOrder_begin_open sr (by rcases hm with hm | hm <;> simp [hm]))
  | sample x =>
    rcases exec_sample_cases x s with ⟨_, he⟩ | ⟨hm, he⟩ | ⟨hm, hi, he⟩ | ⟨hm, _, hf, he⟩ | ⟨hm, hi, hf, he⟩ <;>
      rw [he] at h <;> cases h
    · exact .ignored _ _ hp
    · exact .fault _ _ _ hp (by simp [hm]) (checkOrder_sample_idle x hm)
    · exact .fault _ _ _ hp (by simp [hm]) (checkOrder_sample_overflow x hm hi)
    · exact .held _ _ hp hm hf
    · exact .processed _ _ hp hm hi hf
  | endCall =>
    rcases exec_end_cases s with ⟨_, he⟩ | ⟨hm, he⟩ | ⟨hm, he⟩ <;> rw [he] at h <;> cases h
    · exact .ignored _ _ hp
    · exact .fault _ _ _ hp (by simp [hm]) (checkOrder_end_idle hm)
    · exact .closed _ hp hm

/-- A word that is no command is ignored in HALTED, and else its fault is taken. -/
theorem rejectWord_effect {s : State} {w : CmdWord} {rest : List CmdWord} {c : Cause} (hp : s.port = w :: rest)
    (hc : checkOrder s w = some c) : AcceptEffect s (s.rejectWord c) := by
  unfold State.rejectWord
  split_ifs with hm
  · exact .ignored _ _ hp
  · exact .fault _ _ _ hp hm hc

theorem acceptStep_effect {s t : State} (h : acceptStep s = .next t) : AcceptEffect s t := by
  cases hp : s.port with
  | nil =>
    rw [acceptStep_idle hp] at h
    cases h
    exact .idle hp
  | cons w rest =>
    rcases decode_cases w with ⟨hc, hd⟩ | ⟨hc, hr, hd⟩ | ⟨i, rfl, hd⟩
    · simp only [acceptStep, State.fetch, hp, List.head?_cons, hd] at h
      cases h
      exact rejectWord_effect hp (checkOrder_illegalOpcode s hc)
    · simp only [acceptStep, State.fetch, hp, List.head?_cons, hd] at h
      cases h
      exact rejectWord_effect hp (checkOrder_reservedBits s hc hr)
    · rw [acceptStep_command hp hd] at h
      exact exec_effect hp h

/-! ### What a step can do -/

/-- What a turn of the host other than a reset leaves: every register, the words emitted so far, and the bounds of the
buffers. -/
structure HostEffect (s t : State) : Prop where
  frame : t = { s with
    outq := t.outq, port := t.port, rxBytes := t.rxBytes, hostWords := t.hostWords, hostStatus := t.hostStatus
    turns := t.turns }
  emitted_eq : emitted t = emitted s
  outq_le : t.outq.length ≤ s.outq.length
  rxBytes_lt : s.rxBytes.length < 8 → t.rxBytes.length < 8

theorem offerByte_hostEffect (b : Byte) (s : State) : HostEffect s (s.dropTurn.offerByte b) := by
  rcases State.offerByte_cases b s.dropTurn with ⟨hlt, he⟩ | ⟨w, rest, htake, he⟩ <;> rw [he]
  · exact ⟨rfl, rfl, le_rfl, fun _ => hlt⟩
  · have hlen := takeCmd_some htake
    refine ⟨rfl, rfl, le_rfl, fun hs => ?_⟩
    simp only [List.length_append, List.length_singleton, State.dropTurn_rxBytes] at hlen ⊢
    omega

theorem readOutput_hostEffect {s u : State} (h : s.readOutput = some u) : HostEffect s u.dropTurn := by
  obtain ⟨w, rest, hq, rfl⟩ := State.readOutput_some h
  exact ⟨rfl, by simp [emitted, hq], by simp [hq], id⟩

/-- A step is an accept step, a turn of the host that touches no register, or a reset. -/
theorem step_effect {s t : State} (h : step s = .next t) :
    (∃ ts, AcceptEffect { s with turns := ts } t) ∨ HostEffect s t ∨
      (resetTurn s ∧ ∃ a, t = s.dropTurn.resetEvent a) := by
  rcases step_cases h with ⟨_, h⟩ | ⟨ts, _, h⟩ | ⟨w, ts, _, rfl⟩ | ⟨b, ts, _, rfl⟩ | ⟨ts, u, _, hu, rfl⟩ |
    ⟨ts, _, rfl⟩ | ⟨v, ts, _, rfl⟩ | ⟨a, ts, ht, rfl⟩
  · exact .inl ⟨s.turns, acceptStep_effect h⟩
  · exact .inl ⟨s.turns.tail, acceptStep_effect h⟩
  · exact .inr (.inl ⟨rfl, rfl, le_rfl, id⟩)
  · exact .inr (.inl (offerByte_hostEffect b s))
  · exact .inr (.inl (readOutput_hostEffect hu))
  · exact .inr (.inl ⟨rfl, rfl, le_rfl, id⟩)
  · exact .inr (.inl ⟨rfl, rfl, le_rfl, id⟩)
  · exact .inr (.inr ⟨⟨a, by rw [ht]; rfl⟩, a, rfl⟩)

end Sys2Proof.Machine
end

section
/-! The proofs of the statements about the state (10_state.md): the invariants that every step keeps, `STATUS`, who
writes which register, and the state after reset. -/

namespace Sys2Proof.Machine
open Sys2Proof.Safety

/-! ### What opening a call and processing a sample write (40_commands.md R71, R72) -/

@[simp] theorem State.openCall_mode (sr : F32) (s : State) :
    (s.openCall sr).mode = if isDegenerateRate sr then .degenerate else .active := by
  unfold State.openCall; split <;> simp [*]

@[simp] theorem State.openCall_cause (sr : F32) (s : State) : (s.openCall sr).cause = s.cause := by
  unfold State.openCall; split <;> rfl

@[simp] theorem State.openCall_outq (sr : F32) (s : State) : (s.openCall sr).outq = s.outq := by
  unfold State.openCall; split <;> rfl

@[simp] theorem State.openCall_rxBytes (sr : F32) (s : State) : (s.openCall sr).rxBytes = s.rxBytes := by
  unfold State.openCall; split <;> rfl

@[simp] theorem State.openCall_sr (sr : F32) (s : State) : (s.openCall sr).sr = sr := by
  unfold State.openCall; split <;> rfl

@[simp] theorem State.openCall_idx (sr : F32) (s : State) : (s.openCall sr).idx = 0#64 := by
  unfold State.openCall; split <;> rfl

@[simp] theorem State.openCall_rng (sr : F32) (s : State) : (s.openCall sr).rng = RNG_SEED := by
  unfold State.openCall; split <;> rfl

theorem State.openCall_memories (sr : F32) (s : State) :
    (s.openCall sr).hpY = posZero ∧ (s.openCall sr).hpX = posZero ∧ (s.openCall sr).lpY = posZero ∧
      (s.openCall sr).env = posZero := by
  unfold State.openCall; split <;> exact ⟨rfl, rfl, rfl, rfl⟩

@[simp] theorem State.processSample_mode (x : F32) (s : State) : (s.processSample x).mode = s.mode := rfl
@[simp] theorem State.processSample_cause (x : F32) (s : State) : (s.processSample x).cause = s.cause := rfl
@[simp] theorem State.processSample_rxBytes (x : F32) (s : State) : (s.processSample x).rxBytes = s.rxBytes := rfl
@[simp] theorem State.processSample_idx (x : F32) (s : State) : (s.processSample x).idx = s.idx + 1#64 := rfl
@[simp] theorem State.processSample_sr (x : F32) (s : State) : (s.processSample x).sr = s.sr := rfl
@[simp] theorem State.processSample_hpA (x : F32) (s : State) : (s.processSample x).hpA = s.hpA := rfl
@[simp] theorem State.processSample_lpA (x : F32) (s : State) : (s.processSample x).lpA = s.lpA := rfl

@[simp] theorem State.processSample_rng (x : F32) (s : State) :
    (s.processSample x).rng = lcgNext (lcgNext (lcgNext s.rng)) := rfl

/-- One word is emitted. -/
theorem State.length_outq_processSample (x : F32) (s : State) :
    (s.processSample x).outq.length = s.outq.length + 1 := List.length_append

/-- The index of a sample that is processed does not wrap (60_exceptions.md R164). -/
theorem toNat_add_one_of_ne_IDX_MAX {i : BitVec 64} (h : i ≠ IDX_MAX) : (i + 1#64).toNat = i.toNat + 1 := by
  unfold IDX_MAX at h
  bv_omega

theorem coef_FC_HP (sr : F32) : coef FC_HP sr = expF (fdiv 0xC524EF02#32 sr) := by
  have h : fmul (fneg TWO_PI) FC_HP = 0xC524EF02#32 := by decide +kernel
  rw [coef, h]

theorem coef_FC_LP (sr : F32) : coef FC_LP sr = expF (fdiv 0xC6756FDB#32 sr) := by
  have h : fmul (fneg TWO_PI) FC_LP = 0xC6756FDB#32 := by decide +kernel
  rw [coef, h]

/-! ### Every step keeps `MODE` and `CAUSE` in agreement (R24, R25) -/

theorem cause_code_bounds (c : Cause) : c.code ≠ 0#8 ∧ c.code.toNat ≤ 6 := by
  cases c <;> decide

theorem statusInv_takeFault {s : State} (c : Cause) (h : statusInv s) : statusInv (s.takeFault c) := by
  obtain ⟨_, hle⟩ := h
  obtain ⟨hne, hcode⟩ := cause_code_bounds c
  unfold statusInv
  rw [State.takeFault_cause, State.takeFault_mode]
  split_ifs with h0
  · simp [hne, hcode]
  · simp [h0, hle]

/-- Without a fault the invariant asks only that HALTED is neither entered nor left. -/
theorem statusInv_of_cause_eq {s t : State} (hc : t.cause = s.cause) (hm : t.mode = .halted ↔ s.mode = .halted)
    (h : statusInv s) : statusInv t := by
  unfold statusInv
  rw [hc, ne_eq, hm]
  exact h

theorem AcceptEffect.keeps_statusInv {s t : State} (h : AcceptEffect s t) (hs : statusInv s) : statusInv t := by
  cases h with
  | idle | held | ignored | processed => exact hs
  | fault _ _ c => exact statusInv_takeFault c hs
  | opened sr _ _ hm =>
    refine statusInv_of_cause_eq (by simp) ?_ hs
    by_cases hd : isDegenerateRate sr <;> simp [hm, hd]
  | closed _ _ hm =>
    refine statusInv_of_cause_eq (s := s) rfl ?_ hs
    rcases hm with hm | hm <;> simp [hm]

/-- Settles O29: a fault records a code of R151 and halts, a reset clears both, and no other effect enters or leaves
HALTED or writes `CAUSE`. -/
theorem everyStepKeepsTheStatusInvariant : Obligations.EveryStepKeepsTheStatusInvariant := by
  intro s t hs hstep
  rcases step_effect hstep with ⟨ts, h⟩ | h | ⟨_, a, rfl⟩
  · exact h.keeps_statusInv hs
  · rw [h.frame]
    exact hs
  · simp [statusInv]

/-! ### Every step keeps the bounds of the buffers (R28, 20_memory.md R46) -/

theorem AcceptEffect.keeps_boundsInv {s t : State} (h : AcceptEffect s t) (hs : boundsInv s) : boundsInv t := by
  cases h with
  | idle | held | ignored | fault | closed => exact hs
  | opened => simpa [boundsInv] using hs
  | processed x _ _ _ _ hroom =>
    obtain ⟨hq, hrx⟩ := hs
    refine ⟨?_, hrx⟩
    rw [State.accept_outq, State.length_outq_processSample]
    omega

/-- Settles O30: a `SAMPLE` is processed only while `OUTQ` has room, and an eighth byte completes its word. -/
theorem everyStepKeepsTheBufferBounds : Obligations.EveryStepKeepsTheBufferBounds := by
  intro s t hs hstep
  rcases step_effect hstep with ⟨ts, h⟩ | h | ⟨_, a, rfl⟩
  · exact h.keeps_boundsInv hs
  · obtain ⟨hq, hrx⟩ := hs
    exact ⟨h.outq_le.trans hq, h.rxBytes_lt hrx⟩
  · simp [boundsInv]

/-! ### Every step keeps the invariant of an active call (R32) -/

theorem callInv_of_mode_ne {s : State} (h : s.mode ≠ .active) : callInv s := fun hm => absurd hm h

/-- The invariant does not speak of the port. -/
theorem callInv_accept {s : State} : callInv s.accept ↔ callInv s := Iff.rfl

/-- A `BEGIN` establishes the invariant. -/
theorem callInv_openCall (sr : F32) (s : State) : callInv (s.openCall sr) := by
  by_cases hd : isDegenerateRate sr = true
  · exact callInv_of_mode_ne (by simp [hd])
  · have hd : isDegenerateRate sr = false := by simpa using hd
    rw [State.openCall_active s hd]
    exact fun _ => ⟨rfl, rfl, rfl, hd⟩

/-- Three more draws are those of one more sample. -/
theorem callInv_processSample {s : State} (x : F32) (hi : s.idx ≠ IDX_MAX) (h : callInv s) :
    callInv (s.processSample x) := by
  intro hm
  obtain ⟨hrng, hcoef⟩ := h hm
  refine ⟨?_, hcoef⟩
  have hdraws : 3 * (s.idx.toNat + 1) = 3 * s.idx.toNat + 1 + 1 + 1 := by ring
  rw [State.processSample_rng, State.processSample_idx, toNat_add_one_of_ne_IDX_MAX hi, hrng, hdraws,
    Function.iterate_succ_apply', Function.iterate_succ_apply', Function.iterate_succ_apply']

theorem AcceptEffect.keeps_callInv {s t : State} (h : AcceptEffect s t) (hs : callInv s) : callInv t := by
  cases h with
  | idle | held | ignored => exact hs
  | fault => exact callInv_of_mode_ne (by simp)
  | opened sr => exact callInv_accept.mpr (callInv_openCall sr s)
  | processed x _ _ _ hi => exact callInv_accept.mpr (callInv_processSample x hi hs)
  | closed => exact callInv_of_mode_ne (by simp)

/-- Settles O32: a `BEGIN` establishes the invariant, a processed `SAMPLE` draws three times and counts one, and no
other effect leaves the block in an active call with those registers changed. -/
theorem everyStepKeepsTheCallInvariant : Obligations.EveryStepKeepsTheCallInvariant := by
  intro s t hs hstep
  rcases step_effect hstep with ⟨ts, h⟩ | h | ⟨_, a, rfl⟩
  · exact h.keeps_callInv hs
  · rw [h.frame]
    exact hs
  · exact callInv_of_mode_ne (by simp)

/-! ### `STATUS` (R26) -/

theorem toNat_status (s : State) : s.status.toNat = s.cause.toNat * 2 ^ 8 + s.mode.code.toNat := by
  have hc := s.cause.isLt
  have hm := s.mode.code.isLt
  simp only [State.status, BitVec.toNat_append]
  rw [← Nat.shiftLeft_add_eq_or_of_lt hm]
  simp only [BitVec.toNat_ofNat, Nat.zero_mod, Nat.zero_mul, Nat.zero_or, Nat.or_zero, Nat.shiftLeft_eq]
  omega

/-- Settles O16: the fields are read off `CAUSE * 2^8 + MODE`. -/
theorem statusRegister : Obligations.StatusRegister := by
  refine ⟨fun s => ?_, rfl, fun s ts h => ?_, fun s ts v h => ?_⟩
  · have hc := s.cause.isLt
    have hm := s.mode.code.isLt
    rw [toNat_status]
    refine ⟨?_, by omega, by omega, by omega, fun hs => ?_⟩
    · have hcode : (s.cause.toNat * 2 ^ 8 + s.mode.code.toNat) % 4 = s.mode.code.toNat := by omega
      rw [hcode]
      cases s.mode <;> rfl
    · obtain ⟨_, hle⟩ := hs
      omega
  · simp [step, takeTurn, h, State.dropTurn, State.readStatus, State.status]
  · simp [step, takeTurn, h, State.dropTurn]

/-! ### Who writes which register (R20 to R25) -/

theorem step_effect_of_not_resetTurn {s t : State} (h : step s = .next t) (hr : ¬ resetTurn s) :
    (∃ ts, AcceptEffect { s with turns := ts } t) ∨ HostEffect s t :=
  (step_effect h).imp_right fun h => h.resolve_right fun h => hr h.1

/-- Settles O26: of the effects of a step only an opened call writes `SR`, `HP_A` or `LP_A`. -/
theorem rateAndCoefficientsAreWrittenByBeginOnly : Obligations.RateAndCoefficientsAreWrittenByBeginOnly := by
  intro s t hstep hr
  rcases step_effect_of_not_resetTurn hstep hr with ⟨ts, h⟩ | h
  · cases h with
    | idle | held | ignored | fault | processed | closed => exact .inl ⟨rfl, rfl, rfl⟩
    | opened sr rest hp hm =>
      refine .inr ⟨sr, rest, hp, hm, by simp, ?_⟩
      cases hd : isDegenerateRate sr with
      | true =>
        rw [State.openCall_degenerate _ hd]
        exact .inl ⟨hd, rfl, rfl, rfl⟩
      | false =>
        rw [State.openCall_active _ hd]
        exact .inr ⟨hd, rfl, coef_FC_HP sr, coef_FC_LP sr⟩
  · rw [h.frame]
    exact .inl ⟨rfl, rfl, rfl⟩

/-- Settles O27: of the effects of a step only an opened call and a processed sample write `IDX`, and a sample is
processed only below `IDX_MAX`. -/
theorem indexCountsProcessedSamples : Obligations.IndexCountsProcessedSamples := by
  intro s t hstep hr
  rcases step_effect_of_not_resetTurn hstep hr with ⟨ts, h⟩ | h
  · cases h with
    | idle | held | ignored | fault | closed => exact .inl rfl
    | opened sr rest hp hm => exact .inr (.inl ⟨sr, rest, hp, hm, by simp⟩)
    | processed x rest hp hm hi => exact .inr (.inr ⟨x, rest, hp, hm, toNat_add_one_of_ne_IDX_MAX hi⟩)
  · rw [h.frame]
    exact .inl rfl

/-- With no word on the port the accept step changes nothing (60_exceptions.md R168). -/
theorem AcceptEffect.eq_of_port_nil {s t : State} (h : AcceptEffect s t) (hp : s.port = []) : t = s := by
  cases h with
  | idle | held => rfl
  | ignored _ _ hw | fault _ _ _ hw | opened _ _ hw | processed _ _ hw | closed _ hw => simp [hp] at hw

theorem step_of_blockTurn_of_port_nil {s : State} (hb : blockTurn s) (hp : s.port = []) :
    step s = .next { s with turns := s.turns.tail } := by
  rcases hb with ht | ht
  · have h : step s = acceptStep s := by simp [step, takeTurn, ht]
    rw [h, acceptStep_idle hp, ht, List.tail_nil, ← ht]
  · obtain ⟨ts, ht⟩ := List.head?_eq_some_iff.mp ht
    have h : step s = acceptStep s.dropTurn := by simp [step, takeTurn, ht]
    exact h.trans (acceptStep_idle hp)

/-- Settles O28: each clause by the effects of a step; only an opened call and a processed sample write the running
state, and only an opened or closed call and a fault write `MODE` or `CAUSE`. -/
theorem runningStateAndModeWriters : Obligations.RunningStateAndModeWriters := by
  refine ⟨fun s t hstep hr => ?_, fun s t hstep hr => ?_, fun s t hstep hr hp => ?_,
    fun s => step_of_blockTurn_of_port_nil⟩
  · rcases step_effect_of_not_resetTurn hstep hr with ⟨ts, h⟩ | h
    · cases h with
      | idle | held | ignored | fault | closed => exact .inl ⟨rfl, rfl, rfl, rfl, rfl⟩
      | opened sr rest hp hm =>
        obtain ⟨hhpY, hhpX, hlpY, henv⟩ := State.openCall_memories sr { s with turns := ts }
        exact .inr (.inl ⟨sr, rest, hp, hm, hhpY, hhpX, hlpY, henv, State.openCall_rng _ _⟩)
      | processed x rest hp hm => exact .inr (.inr ⟨x, rest, hp, hm, hm, rfl⟩)
    · rw [h.frame]
      exact .inl ⟨rfl, rfl, rfl, rfl, rfl⟩
  · rcases step_effect_of_not_resetTurn hstep hr with ⟨ts, h⟩ | h
    · cases h with
      | idle | held | ignored | processed => exact .inl ⟨rfl, rfl⟩
      | opened sr rest hp hm =>
        exact .inr (.inl ⟨sr, rest, hp, hm, State.openCall_cause _ _, State.openCall_mode _ _⟩)
      | closed rest hp hm => exact .inr (.inr (.inl ⟨rest, hp, hm, rfl, rfl⟩))
      | fault w rest c hp hm hc => exact .inr (.inr (.inr ⟨w, rest, c, hp, hm, hc, rfl, rfl⟩))
    · rw [h.frame]
      exact .inl ⟨rfl, rfl⟩
  · rcases step_effect_of_not_resetTurn hstep hr with ⟨ts, h⟩ | h
    · rw [h.eq_of_port_nil hp]
      exact ⟨rfl, rfl⟩
    · exact ⟨h.frame, h.emitted_eq⟩

/-- Settles O20: the spec's values are those of `State.reset`, and in IDLE with empty buffers every invariant holds. -/
theorem resetStateMeetsTheInvariants : Obligations.ResetStateMeetsTheInvariants := by
  refine ⟨rfl, rfl, rfl, rfl, ?_, ?_, ?_, callInv_of_mode_ne (by decide), ?_⟩
  · simp [statusInv, State.reset]
  · simp [boundsInv, State.reset]
  · intro h; cases h
  · intro w hw; cases hw

end Sys2Proof.Machine
end

section
/-! What a step is, turn by turn (20_memory.md R41 to R50), and what the block's accept step does to the ports: the layer
under the statements about the interface (20_memory.md). -/

namespace Sys2Proof.Machine
open Sys2Proof.Safety

/-! ### The step, by the turn at the head of the schedule (R50) -/

theorem step_of_turns_nil {s : State} (h : s.turns = []) : step s = acceptStep s := by
  simp [step, takeTurn, h]

theorem step_of_turns_accept {s : State} {ts : List Turn} (h : s.turns = .accept :: ts) :
    step s = acceptStep { s with turns := ts } := by
  simp [step, takeTurn, h, State.dropTurn]

theorem step_of_turns_offer {s : State} {w : CmdWord} {ts : List Turn} (h : s.turns = .offer w :: ts) :
    step s = .next { s with turns := ts, port := s.port ++ [w] } := by
  simp [step, takeTurn, h, State.dropTurn, State.offer]

theorem step_of_turns_offerByte {s : State} {b : Byte} {ts : List Turn} (h : s.turns = .offerByte b :: ts) :
    step s = .next (State.offerByte b { s with turns := ts }) := by
  simp [step, takeTurn, h, State.dropTurn]

theorem step_of_turns_readOut {s : State} {ts : List Turn} {v : Word32} {q : List Word32}
    (h : s.turns = .readOut :: ts) (hq : s.outq = v :: q) :
    step s = .next { s with turns := ts, outq := q, hostWords := s.hostWords ++ [v] } := by
  simp [step, takeTurn, h, State.readOutput, hq, State.dropTurn]

/-- A read of an empty `OUTQ` waits while the block takes its accept step (R43). -/
theorem step_of_turns_readOut_waiting {s : State} {ts : List Turn} (h : s.turns = .readOut :: ts)
    (hq : s.outq = []) : step s = acceptStep s := by
  simp [step, takeTurn, h, State.readOutput_none.mpr hq]

theorem step_of_turns_readStatus {s : State} {ts : List Turn} (h : s.turns = .readStatus :: ts) :
    step s = .next { s with turns := ts, hostStatus := s.hostStatus ++ [s.status] } := by
  simp [step, takeTurn, h, State.dropTurn, State.readStatus, State.status]

/-- In the block's turn the step is its accept step, whether the turn is in the schedule or the schedule is empty. -/
theorem step_of_blockTurn {s : State} (h : blockTurn s) : step s = acceptStep { s with turns := s.turns.tail } := by
  rcases h with h | h
  · rw [step_of_turns_nil h, h, List.tail_nil, ← h]
  · obtain ⟨ts, h⟩ := List.head?_eq_some_iff.mp h
    rw [step_of_turns_accept h, h, List.tail_cons]

/-! ### What a call opened, a sample processed, a word rejected and a byte delivered do to the ports -/

@[simp] theorem State.openCall_port (sr : F32) (s : State) : (s.openCall sr).port = s.port := by
  unfold State.openCall; split <;> rfl

@[simp] theorem State.openCall_hostWords (sr : F32) (s : State) : (s.openCall sr).hostWords = s.hostWords := by
  unfold State.openCall; split <;> rfl

@[simp] theorem State.openCall_turns (sr : F32) (s : State) : (s.openCall sr).turns = s.turns := by
  unfold State.openCall; split <;> rfl

@[simp] theorem State.processSample_port (x : F32) (s : State) : (s.processSample x).port = s.port := rfl

@[simp] theorem State.rejectWord_port (c : Cause) (s : State) : (s.rejectWord c).port = s.port.tail := by
  unfold State.rejectWord; split <;> rfl

@[simp] theorem State.offerByte_outq (b : Byte) (s : State) : (s.offerByte b).outq = s.outq := by
  unfold State.offerByte; split <;> rfl

/-- What a byte puts on the port is what its turn delivers (R45, R46). -/
theorem State.offerByte_eq (b : Byte) (s : State) :
    s.offerByte b = { s with
      port := s.port ++ arriving s.rxBytes [.offerByte b], rxBytes := (s.offerByte b).rxBytes } := by
  cases h : takeCmd (s.rxBytes ++ [b]) <;> simp [State.offerByte, arriving, h]

/-! ### The hold (R42) -/

theorem eq_IDX_MAX_iff {i : BitVec 64} : i = IDX_MAX ↔ i.toNat = 2 ^ 64 - 1 := BitVec.toNat_eq

theorem decode_encode_sample (x : F32) : decode (encode (.sample x)) = .command (.sample x) := by
  simp [decode, encode, commandOf]

theorem exec_sample_held {s : State} (x : F32) (hm : s.mode = .active) (hi : s.idx ≠ IDX_MAX)
    (hf : s.outq.length = Config.outDepth) : exec (.sample x) s = .next s := by
  simpa [hm, hi, hf] using exec_sample_cases x s

theorem exec_sample_processed {s : State} (x : F32) (hm : s.mode = .active) (hi : s.idx ≠ IDX_MAX)
    (hf : s.outq.length ≠ Config.outDepth) : exec (.sample x) s = .next (s.processSample x).accept := by
  simpa [hm, hi, hf] using exec_sample_cases x s

theorem acceptStep_held {s : State} {x : F32} {rest : List CmdWord} (hp : s.port = encode (.sample x) :: rest)
    (hm : s.mode = .active) (hi : s.idx ≠ IDX_MAX) (hf : s.outq.length = Config.outDepth) :
    acceptStep s = .next s :=
  (acceptStep_command hp (decode_encode_sample x)).trans (exec_sample_held x hm hi hf)

/-- A `SAMPLE` of an active call passes the checks below the largest index. -/
theorem checkOrder_sample_none {s : State} (x : F32) (hm : s.mode = .active) (hi : s.idx ≠ IDX_MAX) :
    checkOrder s (encode (.sample x)) = none := by
  have hi : s.idx.toNat ≠ 2 ^ 64 - 1 := mt eq_IDX_MAX_iff.mpr hi
  simp only [ne_eq, Nat.reducePow, Nat.reduceSub] at hi
  simp [checkOrder, encode, hm, hi]

/-- A command's word leaves the port, unless it is a `SAMPLE` that is held. -/
theorem exec_port {i : Instr} {s t : State} (h : exec i s = .next t) :
    t.port = s.port.tail ∨
      ∃ x, i = .sample x ∧ s.mode = .active ∧ s.idx ≠ IDX_MAX ∧ s.outq.length = Config.outDepth := by
  cases i with
  | nop opnd => cases h; exact .inl rfl
  | beginCall sr =>
    rcases exec_begin_cases sr s with ⟨_, he⟩ | ⟨_, he⟩ | ⟨_, he⟩ <;> rw [he] at h <;> cases h <;> simp
  | sample x =>
    rcases exec_sample_cases x s with ⟨_, he⟩ | ⟨_, he⟩ | ⟨_, _, he⟩ | ⟨hm, hi, hf, _⟩ | ⟨_, _, _, he⟩
    case inr.inr.inr.inl => exact .inr ⟨x, rfl, hm, hi, hf⟩
    all_goals rw [he] at h; cases h; exact .inl rfl
  | endCall =>
    rcases exec_end_cases s with ⟨_, he⟩ | ⟨_, he⟩ | ⟨_, he⟩ <;> rw [he] at h <;> cases h <;> exact .inl rfl

/-- The accept step takes the word at the head of the port, unless it passes the checks and is held. -/
theorem acceptStep_port {s t : State} {w : CmdWord} {rest : List CmdWord} (hp : s.port = w :: rest)
    (h : acceptStep s = .next t) : t.port = rest ∨ (holds s w ∧ checkOrder s w = none) := by
  rcases decode_cases w with ⟨_, hd⟩ | ⟨_, _, hd⟩ | ⟨i, rfl, hd⟩
  · simp only [acceptStep, State.fetch, hp, List.head?_cons, hd] at h
    cases h
    simp [hp]
  · simp only [acceptStep, State.fetch, hp, List.head?_cons, hd] at h
    cases h
    simp [hp]
  · rw [acceptStep_command hp hd] at h
    rcases exec_port h with ht | ⟨x, rfl, hm, hi, hf⟩
    · exact .inl (by rw [ht, hp, List.tail_cons])
    · exact .inr ⟨⟨opcField_assembleWord _ _, hm, hf⟩, checkOrder_sample_none x hm hi⟩

/-! ### What an accept step does to `OUTQ` and to the host (R43, R44) -/

/-- A NaN word in `OUTQ` is `NAN_OUT` (R44). -/
theorem eq_nanOut_of_isNaN_outWord {v : F32} (h : isNaN (outWord v) = true) : outWord v = nanOut := by
  unfold outWord at h ⊢
  split_ifs at h ⊢
  · rfl
  · contradiction

/-- The accept step takes no turn and reads no word for the host. -/
theorem AcceptEffect.keeps_host {s t : State} (h : AcceptEffect s t) :
    t.turns = s.turns ∧ t.hostWords = s.hostWords := by
  cases h with
  | idle | held | ignored | fault | processed | closed => exact ⟨rfl, rfl⟩
  | opened => simp

/-- The accept step appends to `OUTQ` the word of a `SAMPLE` of an active call, or leaves it. -/
theorem AcceptEffect.outq_cases {s t : State} (h : AcceptEffect s t) :
    t.outq = s.outq ∨ ∃ x rest v, s.port = encode (.sample x) :: rest ∧ s.mode = .active ∧ t.outq = s.outq ++ [v] ∧
      (isNaN v = true → v = nanOut) := by
  cases h with
  | idle | held | ignored | fault | closed => exact .inl rfl
  | opened => simp
  | processed x rest hp hm => exact .inr ⟨x, rest, _, hp, hm, rfl, eq_nanOut_of_isNaN_outWord⟩

/-- So it emits at most one word. -/
theorem AcceptEffect.emitted_cases {s t : State} (h : AcceptEffect s t) :
    emitted t = emitted s ∨ ∃ v, emitted t = emitted s ++ [v] := by
  obtain ⟨_, hw⟩ := h.keeps_host
  unfold emitted
  rcases h.outq_cases with hq | ⟨_, _, v, _, _, hq, _⟩
  · exact .inl (by rw [hw, hq])
  · exact .inr ⟨v, by rw [hw, hq, List.append_assoc]⟩

end Sys2Proof.Machine
end

section
/-! The proofs of the statements about the interface (20_memory.md): the byte order of a command word, the delivery of
words and bytes, the step on a decoded command, the hold, the output read and `OUTQ`. -/

namespace Sys2Proof.Machine
open Sys2Proof.Safety

/-! ### Bytes (R45, R46) -/

theorem bytesOfCmd_eq_map (w : CmdWord) :
    bytesOfCmd w = (List.range 8).map fun j => w.extractLsb' (8 * j) 8 := rfl

theorem takeCmd_bytesOfCmd_append (w : CmdWord) (rest : List Byte) :
    takeCmd (bytesOfCmd w ++ rest) = some (w, rest) := by
  simp only [bytesOfCmd, takeCmd, List.cons_append, List.nil_append, Option.some.injEq, Prod.mk.injEq, and_true]
  iterate 7 rw [BitVec.extractLsb'_append_extractLsb'_eq_extractLsb' (by rfl)]
  exact BitVec.extractLsb'_eq_self

theorem takeCmd_bytesOfCmd (w : CmdWord) : takeCmd (bytesOfCmd w) = some (w, []) := by
  simpa using takeCmd_bytesOfCmd_append w []

/-- Settles O5: adjacent bytes join to the word they were cut from. -/
theorem bytesCarryTheWord : Obligations.BytesCarryTheWord := by
  refine ⟨takeCmd_bytesOfCmd_append, fun w j hj => ?_, fun bs => takeCmd_none.symm⟩
  rw [bytesOfCmd_eq_map, List.getElem?_map, List.getElem?_range hj, Option.map_some, ← Nat.shiftRight_eq_div_pow]
  rfl

/-! ### Delivery (R41, R42, R45, R46) -/

theorem run_succ {s t : State} (k : Nat) (h : step s = .next t) :
    Host.Core.run Sys2Proof.core (k + 1) s = Host.Core.run Sys2Proof.core k t := by
  have hstep : Sys2Proof.core.step s = .next t := h
  simp only [Host.Core.run, hstep]

/-- Bytes that do not complete a word wait for the turns after them. -/
theorem run_offerBytes_waiting (s : State) (bs : List Byte) (ts : List Turn) (k : Nat)
    (h : (s.rxBytes ++ bs).length < 8) :
    Host.Core.run Sys2Proof.core (bs.length + k) { s with turns := bs.map .offerByte ++ ts } =
      Host.Core.run Sys2Proof.core k { s with rxBytes := s.rxBytes ++ bs, turns := ts } := by
  induction bs generalizing s with
  | nil => simp
  | cons b bs ih =>
    rw [List.append_cons] at h ⊢
    have hwait : takeCmd (s.rxBytes ++ [b]) = none := by
      rw [takeCmd_none]
      simp only [List.length_append] at h ⊢
      omega
    have hstep : step { s with turns := (b :: bs).map .offerByte ++ ts } =
        .next { s with rxBytes := s.rxBytes ++ [b], turns := bs.map .offerByte ++ ts } := by
      rw [step_of_turns_offerByte rfl, State.offerByte, hwait]
      rfl
    rw [List.length_cons, Nat.add_right_comm, run_succ _ hstep]
    exact ih { s with rxBytes := s.rxBytes ++ [b] } h

/-- The byte that completes a word delivers it. -/
theorem step_offerByte_completing {s : State} {b : Byte} {w : CmdWord} {rest : List Byte} (ts : List Turn)
    (h : takeCmd (s.rxBytes ++ [b]) = some (w, rest)) :
    step { s with turns := .offerByte b :: ts } =
      .next { s with port := s.port ++ [w], rxBytes := rest, turns := ts } := by
  rw [step_of_turns_offerByte rfl, State.offerByte, h]

/-- Settles O6: the first seven bytes wait, and the eighth completes the word. -/
theorem wordAndByteDelivery : Obligations.WordAndByteDelivery := by
  refine ⟨fun s w ts => step_of_turns_offer, fun s w ts hs => ⟨?_, fun n hn => ?_⟩⟩
  · have hwait := run_offerBytes_waiting s ((bytesOfCmd w).take 7) (.offerByte (w.extractLsb' 56 8) :: ts) 1
      (by simp [hs, bytesOfCmd])
    have hlast : step { s with
        rxBytes := s.rxBytes ++ (bytesOfCmd w).take 7, turns := .offerByte (w.extractLsb' 56 8) :: ts } =
        .next { s with port := s.port ++ [w], turns := ts } := by
      refine step_offerByte_completing (s := { s with rxBytes := s.rxBytes ++ (bytesOfCmd w).take 7 }) ts ?_
      rw [hs]
      exact takeCmd_bytesOfCmd w
    exact hwait.trans (run_succ 0 hlast)
  · have hwait := run_offerBytes_waiting s ((bytesOfCmd w).take n) (((bytesOfCmd w).drop n).map .offerByte ++ ts) 0
      (by simp [hs, hn])
    have hlen : ((bytesOfCmd w).take n).length = n := List.length_take_of_le hn.le
    have hbytes : s.rxBytes ++ (bytesOfCmd w).take n = (bytesOfCmd w).take n := by rw [hs, List.nil_append]
    rw [hlen, hbytes, ← List.append_assoc, ← List.map_append, List.take_append_drop, List.map_drop] at hwait
    exact hwait

/-! ### The step on a decoded command (R41, R43) -/

/-- Settles O7: each of the three turns is the block's accept step. -/
theorem stepRunsTheDecodedCommand : Obligations.StepRunsTheDecodedCommand := by
  intro s w rest i hp hd
  refine ⟨fun h => ?_, fun ts h => ?_, fun ts h hq => ?_⟩
  · rw [step_of_turns_nil h, acceptStep_command hp hd]
  · rw [step_of_turns_accept h]
    exact acceptStep_command hp hd
  · rw [step_of_turns_readOut_waiting h hq, acceptStep_command hp hd]

/-! ### The hold (R42) -/

/-- While the hold lasts a step takes its turn, and what that turn delivers stays behind the `SAMPLE`. -/
theorem step_while_held {s t : State} {x : F32} {rest : List CmdWord} (hp : s.port = encode (.sample x) :: rest)
    (hm : s.mode = .active) (hi : s.idx ≠ IDX_MAX) (hf : s.outq.length = Config.outDepth) (hr : ¬ resetTurn s)
    (ho : s.turns.head? ≠ some .readOut) (h : step s = .next t) :
    t = { s with
      port := s.port ++ arriving s.rxBytes (s.turns.take 1), rxBytes := t.rxBytes, hostStatus := t.hostStatus
      turns := s.turns.tail } := by
  rcases step_cases h with ⟨ht | ⟨ts, ht, _⟩, h⟩ | ⟨ts, ht, h⟩ | ⟨w, ts, ht, rfl⟩ | ⟨b, ts, ht, rfl⟩ |
    ⟨ts, u, ht, _⟩ | ⟨ts, ht, rfl⟩ | ⟨v, ts, ht, rfl⟩ | ⟨a, ts, ht, _⟩
  · rw [acceptStep_held hp hm hi hf] at h
    cases h
    simp only [ht, List.take_nil, arriving_nil, List.append_nil, List.tail_nil]
    rw [← ht]
  · simp [ht] at ho
  · rw [acceptStep_held (s := s.dropTurn) hp hm hi hf] at h
    cases h
    simp [ht, State.dropTurn]
  · simp [ht, State.dropTurn, State.offer]
  · rw [State.offerByte_eq, ht]
    simp [State.dropTurn, ht]
  · simp [ht] at ho
  · simp [ht, State.dropTurn, State.readStatus]
  · simp [ht, State.dropTurn]
  · exact absurd ⟨a, by rw [ht]; rfl⟩ hr

/-- An output read makes room, so the `SAMPLE` is processed (R42). -/
theorem step_readOut_lifts_hold {s t : State} {ts : List Turn} (x : F32) (hm : s.mode = .active)
    (hi : s.idx ≠ IDX_MAX) (hf : s.outq.length = Config.outDepth) (ht : s.turns = .readOut :: ts)
    (h : step s = .next t) : t.outq = s.outq.tail ∧ exec (.sample x) t = .next (t.processSample x).accept := by
  cases hq : s.outq with
  | nil => simp [hq, Config.outDepth] at hf
  | cons v q =>
    rw [step_of_turns_readOut ht hq] at h
    cases h
    rw [hq, List.length_cons] at hf
    exact ⟨rfl, exec_sample_processed x hm hi (by simp only; omega)⟩

/-- Settles O14: a held `SAMPLE` leaves the state as it is, so a step is its turn alone; a read of `OUTQ` makes room; and
the hold is the one way a word stays on the port. -/
theorem fullOutputHoldsTheSample : Obligations.FullOutputHoldsTheSample := by
  refine ⟨fun s x hm hi hf => exec_sample_held x hm (mt eq_IDX_MAX_iff.mp hi) hf,
    fun s t x rest hp hm hi hf hr ho h => step_while_held hp hm (mt eq_IDX_MAX_iff.mp hi) hf hr ho h,
    fun s t x ts hm hi hf ht h => ?_, fun s t w rest hb hp hh h => ?_⟩
  · obtain ⟨hq, hexec⟩ := step_readOut_lifts_hold x hm (mt eq_IDX_MAX_iff.mp hi) hf ht h
    exact ⟨hq, _, hexec, rfl, rfl⟩
  · rw [step_of_blockTurn hb] at h
    exact (acceptStep_port (s := { s with turns := s.turns.tail }) hp h).resolve_right hh

/-! ### The output read and `OUTQ` (R43, R44, R49) -/

/-- Settles O15: a waiting read is the block's accept step, which takes no turn and reads nothing for the host. -/
theorem outputReadRemovesTheHead : Obligations.OutputReadRemovesTheHead := by
  refine ⟨fun s ts v q => step_of_turns_readOut, fun s t ts ht hq h => ?_, fun s ts ht => ?_⟩
  · rw [step_of_turns_readOut_waiting ht hq] at h
    exact (acceptStep_effect h).keeps_host
  · refine ⟨_, step_of_turns_readStatus ht, ?_⟩
    rw [step_of_turns_readStatus rfl, List.append_assoc]
    rfl

/-- What a step can do to `OUTQ`, by the turn it takes. -/
theorem step_outq_cases {s t : State} (h : step s = .next t) :
    t.outq = s.outq ∨
      (∃ x rest v, s.port = encode (.sample x) :: rest ∧ s.mode = .active ∧ t.outq = s.outq ++ [v] ∧
        (isNaN v = true → v = nanOut)) ∨
      (∃ v, s.turns.head? = some .readOut ∧ s.outq = v :: t.outq) ∨
      (resetTurn s ∧ t.outq = []) := by
  rcases step_cases h with ⟨_, h⟩ | ⟨ts, _, h⟩ | ⟨w, ts, _, rfl⟩ | ⟨b, ts, _, rfl⟩ | ⟨ts, u, ht, hu, rfl⟩ |
    ⟨ts, _, rfl⟩ | ⟨v, ts, _, rfl⟩ | ⟨a, ts, ht, rfl⟩
  · exact (acceptStep_effect h).outq_cases.imp_right .inl
  · exact (acceptStep_effect h).outq_cases.imp_right .inl
  · exact .inl rfl
  · exact .inl (by simp)
  · obtain ⟨v, q, hq, rfl⟩ := State.readOutput_some hu
    exact .inr (.inr (.inl ⟨v, by rw [ht]; rfl, hq⟩))
  · exact .inl rfl
  · exact .inl rfl
  · exact .inr (.inr (.inr ⟨⟨a, by rw [ht]; rfl⟩, rfl⟩))

/-- Settles O17: `OUTQ` by the turn taken; without a reset only the accept step emits. -/
theorem outputQueueIsFirstInFirstOut : Obligations.OutputQueueIsFirstInFirstOut := by
  refine fun s t h => ⟨step_outq_cases h, fun hr => ?_⟩
  rcases step_effect_of_not_resetTurn h hr with ⟨ts, h⟩ | h
  · exact h.emitted_cases
  · exact .inl h.emitted_eq

end Sys2Proof.Machine
end

section
/-! The proofs of the statements about the encoding (30_encoding.md): the verdict on a word by its fields, the match and
mask rows of the opcode table, decoding and encoding as inverses, the pseudo-commands, and that a step answers a next
state on every word. -/

namespace Sys2Proof.Machine
open Sys2Proof.Safety

/-! ### Decoding and encoding are inverse (R55, R56, R57) -/

@[simp] theorem decode_encode (i : Instr) : decode (encode i) = .command i := by
  cases i <;> simp [decode, encode, commandOf]

/-- Settles O4: a word that is no fault is the word of a command, and decoding that word gives the command back. -/
theorem decodeEncodeInverse : Obligations.DecodeEncodeInverse := by
  refine fun w i => ⟨fun h => ?_, fun h => h ▸ decode_encode i⟩
  rcases decode_cases w with ⟨_, hd⟩ | ⟨_, _, hd⟩ | ⟨j, hw, hd⟩ <;> rw [hd] at h <;> cases h
  exact hw

/-! ### The verdict by the fields of the word (R58) -/

theorem eq_assembleWord_iff {w : CmdWord} {opc : BitVec 8} {opnd : BitVec 32} :
    w = assembleWord opc opnd ↔ rsvField w = 0 ∧ opcField w = opc.toNat ∧ opndField w = opnd.toNat := by
  refine ⟨fun h => by simp [h], fun ⟨hr, hc, ho⟩ => BitVec.eq_of_toNat_eq ?_⟩
  rw [toNat_eq_fields, toNat_eq_fields (assembleWord opc opnd), hr, hc, ho]
  simp

/-- The operand of a word whose other fields are a command's. -/
theorem eq_assembleWord_of_fields {w : CmdWord} {opc : BitVec 8} (hc : opcField w = opc.toNat)
    (hr : rsvField w = 0) : w = assembleWord opc (BitVec.ofNat 32 (opndField w)) :=
  eq_assembleWord_iff.mpr ⟨hr, hc, by simp [opndField]⟩

/-- No command's word fails a test of R58. -/
theorem fields_encode (i : Instr) : opcField (encode i) ≤ 3 ∧ rsvField (encode i) = 0 ∧
    (opcField (encode i) = 3 → opndField (encode i) = 0) := by
  cases i <;> simp [encode]

theorem decode_eq_illegalOpcode_iff {w : CmdWord} : decode w = .illegalOpcode ↔ 3 < opcField w := by
  rcases decode_cases w with ⟨hc, hd⟩ | ⟨hc, _, hd⟩ | ⟨i, rfl, hd⟩
  · simp [hd, hc]
  · simp [hd, hc]
  · simp [(fields_encode i).1]

theorem decode_eq_reservedBits_iff {w : CmdWord} : decode w = .reservedBits ↔
    opcField w ≤ 3 ∧ (rsvField w ≠ 0 ∨ (opcField w = 3 ∧ opndField w ≠ 0)) := by
  rcases decode_cases w with ⟨hc, hd⟩ | ⟨hc, hr, hd⟩ | ⟨i, rfl, hd⟩
  · simp [hd, hc]
  · simp only [hd, hc, hr, and_self]
  · obtain ⟨_, hr, ho⟩ := fields_encode i
    simpa [hr] using fun _ => ho

/-- Settles O2: each fault is its test of R58, and the fields of a word that passes them are those of its command's
word. -/
theorem decodeVerdictByFields : Obligations.DecodeVerdictByFields := by
  refine fun w => ⟨decode_eq_illegalOpcode_iff.mpr, fun hc hr => decode_eq_reservedBits_iff.mpr ⟨hc, hr⟩,
    fun hc hr => ?_, fun hc hr => ?_, fun hc hr => ?_, fun hc hr ho => ?_⟩ <;> rw [decodeEncodeInverse]
  · exact eq_assembleWord_of_fields hc hr
  · exact eq_assembleWord_of_fields hc hr
  · exact eq_assembleWord_of_fields hc hr
  · exact eq_assembleWord_iff.mpr ⟨hr, hc, ho⟩

/-! ### The match and mask rows (R57, spec/opcode_table.json) -/

/-- The mask of `NOP`, `BEGIN` and `SAMPLE` keeps `RSV` and `OPC` and clears `OPND`. -/
theorem fields_and_rowMask (w : CmdWord) :
    rsvField (w &&& 0xFFFFFFFF00000000#64) = rsvField w ∧ opcField (w &&& 0xFFFFFFFF00000000#64) = opcField w ∧
      opndField (w &&& 0xFFFFFFFF00000000#64) = 0 := by
  simp only [rsvField_eq, opcField_eq, opndField_eq, CmdWord.rsv, CmdWord.opc, CmdWord.opnd, BitVec.extractLsb'_and]
  have hr : (0xFFFFFFFF00000000#64).extractLsb' 40 24 = BitVec.allOnes 24 := by decide
  have hc : (0xFFFFFFFF00000000#64).extractLsb' 32 8 = BitVec.allOnes 8 := by decide
  have ho : (0xFFFFFFFF00000000#64).extractLsb' 0 32 = 0#32 := by decide
  simp only [hr, hc, ho, BitVec.and_allOnes, BitVec.and_zero, BitVec.toNat_zero, and_self]

/-- A row that ignores `OPND` matches the words of its opcode with any operand. -/
theorem and_rowMask_eq_iff {w : CmdWord} (opc : BitVec 8) :
    (w &&& 0xFFFFFFFF00000000#64) = assembleWord opc 0#32 ↔ ∃ opnd, w = assembleWord opc opnd := by
  obtain ⟨hr, hc, ho⟩ := fields_and_rowMask w
  rw [eq_assembleWord_iff, hr, hc, ho]
  refine ⟨fun ⟨hr, hc, _⟩ => ⟨_, eq_assembleWord_of_fields hc hr⟩, ?_⟩
  rintro ⟨opnd, rfl⟩
  simp

/-- A fault is the verdict on a word that no command decodes from. -/
theorem decode_fault_iff {w : CmdWord} : (decode w = .illegalOpcode ∨ decode w = .reservedBits) ↔
    (¬ ∃ o, decode w = .command (.nop o)) ∧ (¬ ∃ sr, decode w = .command (.beginCall sr)) ∧
      (¬ ∃ x, decode w = .command (.sample x)) ∧ decode w ≠ .command .endCall := by
  cases decode w with
  | illegalOpcode => simp
  | reservedBits => simp
  | command i => cases i <;> simp

/-- Settles O3: the words a row matches are the words of its command, which are those that decode to it. -/
theorem matchMaskRowsDecode : Obligations.MatchMaskRowsDecode := by
  intro w
  have hnop : (w &&& 0xFFFFFFFF00000000#64) = 0x0000000000000000#64 ↔ ∃ o, decode w = .command (.nop o) :=
    (and_rowMask_eq_iff 0x00#8).trans (exists_congr fun o => (decodeEncodeInverse w (.nop o)).symm)
  have hbegin : (w &&& 0xFFFFFFFF00000000#64) = 0x0000000100000000#64 ↔ ∃ sr, decode w = .command (.beginCall sr) :=
    (and_rowMask_eq_iff 0x01#8).trans (exists_congr fun sr => (decodeEncodeInverse w (.beginCall sr)).symm)
  have hsample : (w &&& 0xFFFFFFFF00000000#64) = 0x0000000200000000#64 ↔ ∃ x, decode w = .command (.sample x) :=
    (and_rowMask_eq_iff 0x02#8).trans (exists_congr fun x => (decodeEncodeInverse w (.sample x)).symm)
  have hend : (w &&& 0xFFFFFFFFFFFFFFFF#64) = 0x0000000300000000#64 ↔ decode w = .command .endCall := by
    rw [show w &&& 0xFFFFFFFFFFFFFFFF#64 = w from BitVec.and_allOnes]
    exact (decodeEncodeInverse w .endCall).symm
  refine ⟨hnop, hbegin, hsample, hend, ?_⟩
  rw [ne_eq, ne_eq, ne_eq, ne_eq, hnop, hbegin, hsample, hend]
  exact decode_fault_iff

/-! ### Every word and every turn has an effect (R58, 60_exceptions.md R150, R159) -/

theorem step_of_turns_writeStatus {s : State} {v : Word32} {ts : List Turn} (h : s.turns = .writeStatus v :: ts) :
    step s = .next { s with turns := ts } := by
  simp [step, takeTurn, h, State.dropTurn]

theorem step_of_turns_reset {s : State} {a : Option CmdWord} {ts : List Turn} (h : s.turns = .reset a :: ts) :
    step s = .next (State.resetEvent a { s with turns := ts }) := by
  simp [step, takeTurn, h, State.dropTurn]

/-- Settles O8: the block's turns are its accept step, which always answers a next state, and so does each turn of the
host. -/
theorem everyStepAnswersANextState : Obligations.EveryStepAnswersANextState := by
  intro s
  cases ht : s.turns with
  | nil => exact step_of_turns_nil ht ▸ acceptStep_next s
  | cons turn ts =>
    cases turn with
    | accept => exact step_of_turns_accept ht ▸ acceptStep_next _
    | offer w => exact ⟨_, step_of_turns_offer ht⟩
    | offerByte b => exact ⟨_, step_of_turns_offerByte ht⟩
    | readOut =>
      cases hq : s.outq with
      | nil => exact step_of_turns_readOut_waiting ht hq ▸ acceptStep_next s
      | cons v q => exact ⟨_, step_of_turns_readOut ht hq⟩
    | readStatus => exact ⟨_, step_of_turns_readStatus ht⟩
    | writeStatus v => exact ⟨_, step_of_turns_writeStatus ht⟩
    | reset a => exact ⟨_, step_of_turns_reset ht⟩

/-! ### The encoding table and the pseudo-commands (R62, R63) -/

/-- Settles O1: the words are computed from the table's commands; their decoding is the inverse of that, and the three
other words fail a test of R58. -/
theorem encodingExamples : Obligations.EncodingExamples := by
  refine ⟨fun p hp => ?_, decode_eq_illegalOpcode_iff.mpr (by decide), decode_eq_reservedBits_iff.mpr (by decide),
    decode_eq_reservedBits_iff.mpr (by decide)⟩
  have henc : encode p.1 = p.2 := by
    revert p
    decide
  exact ⟨henc, henc ▸ decode_encode p.1⟩

theorem assembleLines_singleton (l : AsmLine) : assembleLines [l] = (expandLine l).map encode := by
  simp [assembleLines]

/-- Settles O60: a line's words are those of the commands it expands to. -/
theorem pseudoCommandsExpand : Obligations.PseudoCommandsExpand := by
  refine ⟨fun sr xs => ?_, fun n => ?_⟩ <;> rw [assembleLines_singleton, expandLine]
  · rw [List.map_cons, List.map_append, List.map_map]
    rfl
  · exact List.map_replicate

end Sys2Proof.Machine
end

section
/-! What each command answers, mode by mode, and the proofs of the statements about a single command (40_commands.md
sections 2 to 5). -/

namespace Sys2Proof.Machine
open Sys2Proof.Safety

/-! ### The answers (R71, R73, R74; 60_exceptions.md R157) -/

/-- In HALTED every command is accepted and ignored. -/
theorem exec_halted {s : State} (i : Instr) (hm : s.mode = .halted) : exec i s = .next s.accept := by
  cases i with
  | nop opnd => rfl
  | beginCall sr => simpa [hm] using exec_begin_cases sr s
  | sample x => simpa [hm] using exec_sample_cases x s
  | endCall => simpa [hm] using exec_end_cases s

theorem exec_begin_idle {s : State} (sr : F32) (hm : s.mode = .idle) :
    exec (.beginCall sr) s = .next (s.openCall sr).accept := by
  simpa [hm] using exec_begin_cases sr s

theorem exec_begin_open {s : State} (sr : F32) (hm : s.mode = .active ∨ s.mode = .degenerate) :
    exec (.beginCall sr) s = .next (s.takeFault .beginInsideCall) := by
  rcases hm with hm | hm <;> simpa [hm] using exec_begin_cases sr s

theorem exec_sample_degenerate {s : State} (x : F32) (hm : s.mode = .degenerate) :
    exec (.sample x) s = .next s.accept := by
  simpa [hm] using exec_sample_cases x s

theorem exec_sample_idle {s : State} (x : F32) (hm : s.mode = .idle) :
    exec (.sample x) s = .next (s.takeFault .sampleOutsideCall) := by
  simpa [hm] using exec_sample_cases x s

theorem exec_sample_overflow {s : State} (x : F32) (hm : s.mode = .active) (hi : s.idx = IDX_MAX) :
    exec (.sample x) s = .next (s.takeFault .indexOverflow) := by
  simpa [hm, hi] using exec_sample_cases x s

theorem exec_end_open {s : State} (hm : s.mode = .active ∨ s.mode = .degenerate) :
    exec .endCall s = .next (State.accept { s with mode := .idle }) := by
  rcases hm with hm | hm <;> simpa [hm] using exec_end_cases s

theorem exec_end_idle {s : State} (hm : s.mode = .idle) : exec .endCall s = .next (s.takeFault .endOutsideCall) := by
  simpa [hm] using exec_end_cases s

/-! ### NOP and END (R74, R75) -/

/-- Settles O21: `NOP` is the accepting of its word. -/
theorem nopChangesNothing : Obligations.NopChangesNothing := exec_nop

/-- Settles O25: by the mode; and the only word of `END` is the one without operand and reserved bits. -/
theorem endClosesTheCall : Obligations.EndClosesTheCall := by
  refine ⟨fun s hm => exec_end_open hm, fun s hm => exec_end_idle hm, fun s hm => exec_halted .endCall hm,
    fun w hc => ⟨?_, fun ho => decode_eq_reservedBits_iff.mpr ⟨hc.le, .inr ⟨hc, ho⟩⟩⟩⟩
  have hw : w = encode .endCall ↔ rsvField w = 0 ∧ opcField w = 3 ∧ opndField w = 0 := eq_assembleWord_iff
  rw [decodeEncodeInverse, hw]
  simp [hc]

/-! ### BEGIN (R71) -/

/-- A rate that is no NaN is degenerate exactly if it is a zero or negative. -/
theorem fle_zero_iff {sr : F32} (hn : isNaN sr = false) :
    fle sr 0x00000000#32 = true ↔ isZero sr = true ∨ signBit sr = true := by
  obtain ⟨_, _, hle, _⟩ := compare_iff_ordKey hn (show isNaN 0x00000000#32 = false by decide)
  rw [hle, show ordKey 0x00000000#32 = 0 by decide, ordKey, isZero, decide_eq_true_eq]
  split <;> simp [*]

/-- A value of at most -4, divided by a positive subnormal, which is below `2^-126`, overflows. -/
theorem fdiv_subnormal {a b : F32} (ha : isFinite a = true) (hs : signBit a = true) (hmag : 2 ^ 151 ≤ mag a)
    (h0 : 0 < b.toNat) (hlt : b.toNat < 2 ^ 23) : fdiv a b = 0xFF800000#32 := by
  have habs : absBits b = b.toNat := Nat.mod_eq_of_lt (by omega)
  have hb : mag b = b.toNat := by rw [mag, habs, magOfBits_small (by omega)]
  have hfin : isFinite b = true := by simp only [isFinite, habs, infBits, decide_eq_true_eq]; omega
  have hz : isZero b = false := by simp only [isZero, habs, decide_eq_false_iff_not]; omega
  have hsign : signBit b = false := by simp only [signBit_eq, decide_eq_false_iff_not]; omega
  have hround : roundBits (mag a * unit) (mag b) = infBits := by
    rw [roundBits_eq_infBits_iff (by omega), hb, unit]
    omega
  rw [fdiv_finite ha hfin hz, hround, hs, hsign]
  decide

/-- At an infinite rate a coefficient is `expF` of a zero (R100). -/
theorem expF_fdiv_inf {a : F32} (h : isFinite a = true) : expF (fdiv a 0x7F800000#32) = 0x3F800000#32 := by
  rw [fdiv_isInf_right h (by decide), expF_isZero (isZero_pack _)]
  decide

/-- At a subnormal rate it is `expF` of `-Inf`. -/
theorem expF_fdiv_subnormal {a b : F32} (ha : isFinite a = true) (hs : signBit a = true) (hmag : 2 ^ 151 ≤ mag a)
    (h0 : 0 < b.toNat) (hlt : b.toNat < 2 ^ 23) : expF (fdiv a b) = 0x00000000#32 := by
  rw [fdiv_subnormal ha hs hmag h0 hlt, expF_isInf (by decide)]
  decide

/-- At a NaN rate it is a NaN. -/
theorem isNaN_expF_fdiv {a sr : F32} (h : isNaN sr = true) : isNaN (expF (fdiv a sr)) = true :=
  isNaN_expF (isNaN_fdiv a sr (by simp [h]))

theorem fle_of_isNaN {a b : F32} (h : isNaN a = true) : fle a b = false := by
  obtain ⟨_, _, hle, _⟩ := compare_isNaN (b := b) (.inl h)
  exact hle

theorem fle_zero_of_subnormal {sr : F32} (h0 : 0 < sr.toNat) (hlt : sr.toNat < 2 ^ 23) :
    fle sr 0x00000000#32 = false := by
  have habs : absBits sr = sr.toNat := Nat.mod_eq_of_lt (by omega)
  have hn : isNaN sr = false := by simp only [isNaN, habs, infBits, decide_eq_false_iff_not]; omega
  rw [← Bool.not_eq_true, fle_zero_iff hn, isZero, habs, signBit_eq]
  simp
  omega

/-- Settles O22: the two outcomes of opening a call, the other modes, and the rates at which the test or a coefficient is
special. -/
theorem beginOpensACall : Obligations.BeginOpensACall := by
  obtain ⟨hpFin, hpSign, hpMag⟩ : isFinite 0xC524EF02#32 = true ∧ signBit 0xC524EF02#32 = true ∧
    2 ^ 151 ≤ mag 0xC524EF02#32 := by decide +kernel
  obtain ⟨lpFin, lpSign, lpMag⟩ : isFinite 0xC6756FDB#32 = true ∧ signBit 0xC6756FDB#32 = true ∧
    2 ^ 151 ≤ mag 0xC6756FDB#32 := by decide +kernel
  refine ⟨fun s sr hm hd => ?_, fun s sr hm hd => ?_, fun s sr hm => exec_begin_open sr hm,
    fun s sr hm => exec_halted _ hm, fun sr hn h => (fle_zero_iff hn).mpr h,
    fun sr h => ⟨fle_of_isNaN h, isNaN_expF_fdiv h, isNaN_expF_fdiv h⟩,
    ⟨by decide, expF_fdiv_inf hpFin, expF_fdiv_inf lpFin⟩,
    fun sr h0 hlt => ⟨fle_zero_of_subnormal h0 hlt, expF_fdiv_subnormal hpFin hpSign hpMag h0 hlt,
      expF_fdiv_subnormal lpFin lpSign lpMag h0 hlt⟩⟩
  · rw [exec_begin_idle sr hm, State.openCall_degenerate s hd]
    rfl
  · rw [exec_begin_idle sr hm, State.openCall_active s hd, coef_FC_HP, coef_FC_LP]
    rfl

/-! ### SAMPLE (R72) -/

/-- Settles O23: the processed sample, with the model's stages written out. -/
theorem sampleProcessesOneSample : Obligations.SampleProcessesOneSample := by
  intro s x hm hi hf
  rw [exec_sample_processed x hm (mt eq_IDX_MAX_iff.mp hi) hf]
  simp only [State.processSample, State.emit, State.nextIndex, State.accept, sampleTime, modulate, am, wow, flutter,
    hpStep, lpStep, shape, softClip, asymClip, clipsPositive, rumble, hissOf, triggeredEnv, triggersCrackle, decayedEnv,
    crackleOf, combine, quantize, clampOut, belowRange, aboveRange, outWord]
  rfl

end Sys2Proof.Machine
end

section
/-! The calls whose words the rate alone settles: a NaN rate poisons every sample (40_commands.md R73), and an infinite one
makes the first word the same for every finite sample (R72). -/

namespace Sys2Proof.Machine
open Sys2Proof.Safety

/-! ### A NaN through the stages (00_scope.md R16) -/

theorem isNaN_sampleTime {sr : F32} (i : BitVec 64) (h : isNaN sr = true) : isNaN (sampleTime i sr) = true :=
  isNaN_fdiv _ _ (by simp [h])

theorem isNaN_modulate {t : F32} (x : F32) (h : isNaN t = true) : isNaN (modulate x t) = true := by
  have hflutter : isNaN (flutter t) = true :=
    isNaN_fmul _ _ (by simp [isNaN_sinF (.inl (isNaN_fmul W_FLUT t (by simp [h])))])
  have ham : isNaN (am t) = true := isNaN_fadd _ _ (by simp [hflutter])
  exact isNaN_fadd _ _ (by simp [isNaN_fmul x (am t) (by simp [ham])])

theorem isNaN_hpStep {biased : F32} (hpA hpY hpX : F32) (h : isNaN biased = true) :
    isNaN (hpStep hpA hpY hpX biased) = true := by
  have hsum : isNaN (fadd hpY biased) = true := isNaN_fadd _ _ (by simp [h])
  exact isNaN_fmul _ _ (by simp [isNaN_fsub (fadd hpY biased) hpX (by simp [hsum])])

theorem isNaN_lpStep {hp : F32} (lpA lpY : F32) (h : isNaN hp = true) : isNaN (lpStep lpA lpY hp) = true :=
  isNaN_fadd _ _ (by simp [isNaN_fmul (fsub one lpA) hp (by simp [h])])

theorem isNaN_softClip {v : F32} (h : isNaN v = true) : isNaN (softClip v) = true := isNaN_fdiv _ _ (by simp [h])

theorem isNaN_asymClip {v : F32} (h : isNaN v = true) : isNaN (asymClip v) = true := by
  unfold asymClip
  split <;> exact isNaN_fdiv _ _ (by simp [h])

theorem isNaN_shape {lp : F32} (h : isNaN lp = true) : isNaN (shape lp) = true := by
  have hsoft : isNaN (softClip (fmul lp G_SOFT)) = true := isNaN_softClip (isNaN_fmul _ _ (by simp [h]))
  exact isNaN_asymClip (isNaN_fmul _ _ (by simp [hsoft]))

theorem isNaN_combine {y2 : F32} (rum hiss crk : F32) (h : isNaN y2 = true) :
    isNaN (combine y2 rum hiss crk) = true := by
  have hrum : isNaN (fadd y2 rum) = true := isNaN_fadd _ _ (by simp [h])
  exact isNaN_fadd _ _ (by simp [isNaN_fadd (fadd y2 rum) hiss (by simp [hrum])])

theorem isNaN_quantize {y : F32} (h : isNaN y = true) : isNaN (quantize y) = true := by
  have hround : isNaN (fround (fmul y Q_SCALE)) = true := isNaN_fround _ (isNaN_fmul _ _ (by simp [h]))
  exact isNaN_fdiv _ _ (by simp [hround])

theorem outWord_clampOut_of_isNaN {v : F32} (h : isNaN v = true) : outWord (clampOut v) = nanOut := by
  simp [outWord, clampOut, h]

/-! ### Calls at a NaN rate (R73) -/

/-- At a NaN rate the sample time is NaN, and so is every value the sample passes through after it. -/
theorem processSample_outq_of_isNaN_sr {s : State} (x : F32) (h : isNaN s.sr = true) :
    (s.processSample x).outq = s.outq ++ [nanOut] := by
  obtain ⟨biased, hp, lp, env, y, rfl, rfl, rfl, rfl, rfl, hs⟩ := State.processSample_eq x s
  have hbiased := isNaN_modulate x (isNaN_sampleTime s.idx h)
  have hlp := isNaN_lpStep s.lpA s.lpY (isNaN_hpStep s.hpA s.hpY s.hpX hbiased)
  rw [hs, outWord_clampOut_of_isNaN (isNaN_quantize (isNaN_combine _ _ _ (isNaN_shape hlp)))]

theorem callOutputs_of_isNaN_sr {s : State} (xs : List F32) (h : isNaN s.sr = true) :
    callOutputs s xs = List.replicate xs.length nanOut := by
  induction xs generalizing s with
  | nil => rfl
  | cons x xs ih =>
    have hword := processSample_outq_of_isNaN_sr (s := { s with outq := [] }) x h
    rw [callOutputs, hword, ih (s := State.processSample x { s with outq := [] }) h]
    rfl

/-- Settles O24: a degenerate call ignores its samples, and a NaN rate poisons each word. -/
theorem degenerateAndNanRateCalls : Obligations.DegenerateAndNanRateCalls := by
  refine ⟨fun s x hm => ?_, fun s x hm hsr hi hf => ?_, fun s sr xs h => ?_⟩
  · rcases hm with hm | hm
    · exact exec_sample_degenerate x hm
    · exact exec_halted _ hm
  · exact ⟨_, exec_sample_processed x hm (mt eq_IDX_MAX_iff.mp hi) hf,
      (State.accept_outq _).trans (processSample_outq_of_isNaN_sr x hsr), rfl, hm⟩
  · exact callOutputs_of_isNaN_sr xs (by simpa using h)

/-! ### Operations that give an operand back -/

/-- The exact value of a pattern rounds to the pattern, if a zero keeps its sign. -/
theorem roundInt_value {a : F32} {zeroNeg : Bool} (h : isFinite a = true)
    (hz : isZero a = true → zeroNeg = signBit a) : roundInt zeroNeg (value a) = a := by
  have hbits : roundBits (value a).natAbs 1 = absBits a := by
    have hexact := roundBits_exact (absBits_lt_infBits h).le one_pos
    rwa [Nat.mul_one, ← mag, ← natAbs_value] at hexact
  refine eq_of_fields ?_ (by rw [roundInt, hbits, absBits_pack _ (absBits_lt a)])
  rw [signBit_roundInt]
  cases hza : isZero a with
  | true =>
    have h0 : value a = 0 := by simp [value, mag, show absBits a = 0 by simpa [isZero] using hza]
    rw [if_pos h0, hz hza]
  | false =>
    have hpos := mag_pos_of_not_isZero hza
    cases hs : signBit a with
    | true => rw [value_of_sign_neg hs, if_neg (by omega)]; simpa using hpos
    | false => rw [value_of_sign hs, if_neg (by omega)]; simp

theorem value_posZero : value posZero = 0 := by decide

/-- `+0 + a` is `a`, unless `a` is `-0`. -/
theorem fadd_posZero_left {a : F32} (h : isFinite a = true) (hz : isZero a = true → signBit a = false) :
    fadd posZero a = a := by
  rw [fadd_finite (by decide) h, value_posZero, zero_add]
  exact roundInt_value h fun h0 => by rw [hz h0]; rfl

theorem fsub_posZero_right {a : F32} (h : isFinite a = true) : fsub a posZero = a := by
  rw [fsub_finite h (by decide), value_posZero, sub_zero]
  exact roundInt_value h fun _ => Bool.and_true _

/-- A factor 1.0 on either side. -/
theorem fmul_one {a : F32} (h : isFinite a = true) : fmul one a = a ∧ fmul a one = a := by
  have hone : mag one = unit := by decide +kernel
  have hsign : signBit one = false := by decide
  have hexact : roundBits (mag a * unit) unit = absBits a := roundBits_exact (absBits_lt_infBits h).le (by decide)
  constructor
  · rw [fmul_finite (by decide) h, hone, hsign, mul_comm, hexact, Bool.false_bne, pack_fields]
  · rw [fmul_finite h (by decide), hone, hsign, hexact, Bool.bne_false, pack_fields]

/-- A summand below half a unit in the last place of the largest finite value does not overflow a finite sum. -/
theorem isFinite_fadd_small {a b : F32} (ha : isFinite a = true) (hb : isFinite b = true) (hsmall : mag b < 2 ^ 252) :
    isFinite (fadd a b) = true := by
  have hmax : mag a ≤ (2 ^ 24 - 1) * 2 ^ 253 := by
    have hle : absBits a ≤ infBits - 1 := Nat.le_sub_one_of_lt (absBits_lt_infBits ha)
    exact (magOfBits_le_iff.mpr hle).trans_eq (by decide)
  have habs : (value a + value b).natAbs ≤ mag a + mag b := by
    rw [← natAbs_value a, ← natAbs_value b]
    exact Int.natAbs_add_le _ _
  rw [fadd_finite ha hb, roundInt]
  refine isFinite_pack (lt_of_le_of_ne (roundBits_le_infBits _ _) fun hinf => ?_)
  have := (roundBits_eq_infBits_iff one_pos).mp hinf
  omega

/-- A sum with an operand of clear sign is not `-0`. -/
theorem signBit_fadd_of_isZero {a b : F32} (ha : isFinite a = true) (hb : isFinite b = true)
    (hs : signBit b = false) (hz : isZero (fadd a b) = true) : signBit (fadd a b) = false := by
  rw [fadd_finite ha hb] at hz ⊢
  rw [signBit_roundInt]
  by_cases hv : value a + value b = 0
  · rw [if_pos hv, hs, Bool.and_false]
  · have hone : 1 ≤ roundBits (value a + value b).natAbs 1 :=
      le_roundBits (by decide) one_pos (by simp [magOfBits_small]; omega)
    have hzero : roundBits (value a + value b).natAbs 1 = 0 := by simpa [isZero, roundInt] using hz
    omega

/-! ### The first sample at an infinite rate (R72, 42_filters.md R100 to R102) -/

theorem openCall_inf (s : State) :
    s.openCall 0x7F800000#32 =
      { s with
        sr := 0x7F800000#32, hpY := posZero, hpX := posZero, lpY := posZero, env := posZero
        rng := RNG_SEED, idx := 0#64, hpA := one, lpA := one, mode := .active } := by
  rw [State.openCall_active s (by decide), coef_FC_HP, coef_FC_LP, expF_fdiv_inf (by decide), expF_fdiv_inf (by decide)]
  rfl

/-- With the coefficient 1.0 and empty memories the high-pass filter passes its input. -/
theorem hpStep_one {biased : F32} (h : isFinite biased = true) (hz : isZero biased = true → signBit biased = false) :
    hpStep one posZero posZero biased = biased := by
  obtain ⟨hmul, _⟩ := fmul_one h
  rw [hpStep, fadd_posZero_left h hz, fsub_posZero_right h, hmul]

/-- With the coefficient 1.0 and an empty memory the low-pass filter passes nothing. -/
theorem lpStep_one {hp : F32} (h : isFinite hp = true) : lpStep one posZero hp = posZero := by
  have hzero : fmul (fsub one one) hp = pack (signBit hp) 0 := by
    rw [show fsub one one = posZero by decide +kernel, fmul_finite (by decide) h,
      show mag posZero = 0 by decide, zero_mul, roundBits_zero _ (by decide), show signBit posZero = false by decide,
      Bool.false_bne]
  rw [lpStep, hzero]
  cases signBit hp <;> decide +kernel

/-- At `t = +0` the modulation factor is 1.0, so a finite sample has the bias added and stays finite. -/
theorem modulate_posZero {x : F32} (h : isFinite x = true) :
    isFinite (modulate x posZero) = true ∧ (isZero (modulate x posZero) = true → signBit (modulate x posZero) = false) := by
  have ham : am posZero = one := by decide +kernel
  obtain ⟨_, hmul⟩ := fmul_one h
  rw [modulate, ham, hmul]
  exact ⟨isFinite_fadd_small h (by decide) (by decide +kernel), signBit_fadd_of_isZero h (by decide) (by decide)⟩

/-- The first sample of a call at an infinite rate: the word and the registers are those of a zero sample but for the
high-pass memories, which take the biased sample. -/
theorem processSample_openCall_inf {x : F32} (s : State) (h : isFinite x = true) :
    (s.openCall 0x7F800000#32).processSample x =
      { s.openCall 0x7F800000#32 with
        hpX := modulate x posZero, hpY := modulate x posZero, rng := 0x999FF73A#32
        outq := s.outq ++ [0x3B800000#32], idx := 1#64 } := by
  rw [openCall_inf]
  obtain ⟨hfin, hzero⟩ := modulate_posZero h
  have ht : sampleTime 0#64 0x7F800000#32 = posZero := by decide +kernel
  obtain ⟨biased, hp, lp, env, y, hbiased, hhp, hlp, henv, hy, hs⟩ := State.processSample_eq x
    { s with
      sr := 0x7F800000#32, hpY := posZero, hpX := posZero, lpY := posZero, env := posZero
      rng := RNG_SEED, idx := 0#64, hpA := one, lpA := one, mode := .active }
  simp only [ht] at hbiased hhp hlp henv hy
  rw [hbiased, hpStep_one hfin hzero] at hhp
  rw [hhp, lpStep_one hfin] at hlp
  have henv : env = posZero := henv.trans (by decide +kernel)
  have hword : outWord (clampOut (quantize y)) = 0x3B800000#32 := by
    rw [hy, hlp, henv]
    decide +kernel
  rw [hs, hbiased, hhp, hlp, henv, hword, show lcgNext (lcgNext (lcgNext RNG_SEED)) = 0x999FF73A#32 by decide]
  rfl

/-- Settles O53: `BEGIN` gives both coefficients 1.0, so the low-pass filter hides the sample from the word. -/
theorem firstWordAtInfiniteRate : Obligations.FirstWordAtInfiniteRate := by
  intro s x hm hq hx
  have hsample : exec (.sample x) (s.openCall 0x7F800000#32).accept =
      .next ((s.openCall 0x7F800000#32).accept.processSample x).accept :=
    exec_sample_processed x (by simp [show isDegenerateRate 0x7F800000#32 = false by decide]) (by simp [IDX_MAX])
      (by simp [hq, Config.outDepth])
  have haccept : (s.openCall 0x7F800000#32).accept = s.accept.openCall 0x7F800000#32 := by simp only [openCall_inf]; rfl
  refine ⟨_, _, exec_begin_idle _ hm, ?_, ?_, hsample, ?_⟩
  · rw [openCall_inf]; rfl
  · rw [openCall_inf]; rfl
  · rw [haccept, processSample_openCall_inf _ hx, openCall_inf]
    simp [hq, posZero]

end Sys2Proof.Machine
end

section
/-! The words of a call (40_commands.md section 6): they depend on its commands only (R77), and a call emits one word per
sample (R76). -/

namespace Sys2Proof.Machine
open Sys2Proof.Safety

/-! ### States that agree on the call (R77) -/

theorem sameCall_refl (s : State) : sameCall s s := ⟨rfl, fun _ => ⟨rfl, rfl, rfl, rfl, rfl, rfl, rfl, rfl, rfl⟩⟩

/-- Outside an active call `MODE` is all that counts. -/
theorem sameCall_of_mode_ne {s t : State} (h : s.mode = t.mode) (hne : s.mode ≠ .active) : sameCall s t :=
  ⟨h, fun hm => absurd hm hne⟩

/-- The port is no part of the call. -/
theorem sameCall_accept {s t : State} : sameCall s.accept t.accept ↔ sameCall s t := Iff.rfl

/-- `BEGIN` writes every register that a `SAMPLE` reads (R71). -/
theorem sameCall_openCall (sr : F32) (s t : State) : sameCall (s.openCall sr) (t.openCall sr) := by
  by_cases hd : isDegenerateRate sr = true
  · exact sameCall_of_mode_ne (by simp) (by simp [hd])
  · have hd : isDegenerateRate sr = false := by simpa using hd
    rw [State.openCall_active s hd, State.openCall_active t hd]
    exact ⟨rfl, fun _ => ⟨rfl, rfl, rfl, rfl, rfl, rfl, rfl, rfl, rfl⟩⟩

/-- A sample processed in two states that agree on the call: the same word, and the states agree after it. -/
theorem sameCall_processSample {s t : State} (x : F32) (h : sameCall s t) (hm : s.mode = .active) :
    sameCall (s.processSample x) (t.processSample x) ∧
      (s.processSample x).outq = s.outq ++ (State.processSample x { t with outq := [] }).outq := by
  obtain ⟨hmode, hregs⟩ := h
  obtain ⟨hhpY, hhpX, hlpY, hrng, henv, hidx, hsr, hhpA, hlpA⟩ := hregs hm
  have ht : t = { t with
      hpY := s.hpY, hpX := s.hpX, lpY := s.lpY, rng := s.rng, env := s.env, idx := s.idx, sr := s.sr, hpA := s.hpA
      lpA := s.lpA } := by
    rw [hhpY, hhpX, hlpY, hrng, henv, hidx, hsr, hhpA, hlpA]
  rw [ht]
  exact ⟨⟨hmode, fun _ => ⟨rfl, rfl, rfl, rfl, rfl, rfl, rfl, rfl, rfl⟩⟩, rfl⟩

/-- A command that is not held leaves the port, and emits the words it emits in any state that agrees on the call and
whose `OUTQ` the host has emptied. -/
theorem exec_sameCall {i : Instr} {s s' t : State} (h : sameCall s t) (hs : exec i s = .next s') :
    (∃ x, i = .sample x ∧ s.outq.length = Config.outDepth ∧ s' = s) ∨
    ∃ t', exec i { t with outq := [] } = .next t' ∧ s'.port = s.port.tail ∧ s'.outq = s.outq ++ t'.outq ∧
      sameCall s' t' := by
  obtain ⟨hmode, hregs⟩ := h
  have hfault : ∀ c, sameCall (s.takeFault c) (State.takeFault c { t with outq := [] }) := fun c =>
    sameCall_of_mode_ne rfl (by simp)
  have hout : s.outq = s.outq ++ [] := (List.append_nil _).symm
  cases i with
  | nop opnd =>
    cases hs
    exact .inr ⟨_, rfl, rfl, hout, hmode, hregs⟩
  | beginCall sr =>
    rcases exec_begin_cases sr s with ⟨hm, he⟩ | ⟨hm, he⟩ | ⟨hm, he⟩ <;> rw [he] at hs <;> cases hs <;>
      rw [hmode] at hm
    · exact .inr ⟨_, exec_halted _ hm, rfl, hout, hmode, hregs⟩
    · exact .inr ⟨_, exec_begin_idle _ hm, by simp, by simp, sameCall_openCall sr _ _⟩
    · exact .inr ⟨_, exec_begin_open _ hm, rfl, hout, hfault _⟩
  | sample x =>
    rcases exec_sample_cases x s with ⟨hm, he⟩ | ⟨hm, he⟩ | ⟨hm, hi, he⟩ | ⟨hm, hi, hf, he⟩ | ⟨hm, hi, hf, he⟩ <;>
      rw [he] at hs <;> cases hs
    · rw [hmode] at hm
      rcases hm with hm | hm
      · exact .inr ⟨_, exec_halted _ hm, rfl, hout, hmode, hregs⟩
      · exact .inr ⟨_, exec_sample_degenerate x hm, rfl, hout, hmode, hregs⟩
    · rw [hmode] at hm
      exact .inr ⟨_, exec_sample_idle x hm, rfl, hout, hfault _⟩
    · obtain ⟨_, _, _, _, _, hidx, _⟩ := hregs hm
      exact .inr ⟨_, exec_sample_overflow x (hmode ▸ hm) (hidx ▸ hi), rfl, hout, hfault _⟩
    · exact .inl ⟨x, rfl, hf, rfl⟩
    · obtain ⟨_, _, _, _, _, hidx, _⟩ := hregs hm
      obtain ⟨hsame, hword⟩ := sameCall_processSample x (t := { t with outq := [] }) ⟨hmode, hregs⟩ hm
      exact .inr ⟨_, exec_sample_processed x (hmode ▸ hm) (hidx ▸ hi) (by simp [Config.outDepth]), rfl,
        (State.accept_outq _).trans hword, sameCall_accept.mpr hsame⟩
  | endCall =>
    rcases exec_end_cases s with ⟨hm, he⟩ | ⟨hm, he⟩ | ⟨hm, he⟩ <;> rw [he] at hs <;> cases hs <;> rw [hmode] at hm
    · exact .inr ⟨_, exec_halted _ hm, rfl, hout, hmode, hregs⟩
    · exact .inr ⟨_, exec_end_idle hm, rfl, hout, hfault _⟩
    · exact .inr ⟨_, exec_end_open hm, rfl, hout, sameCall_of_mode_ne rfl (by simp)⟩

/-! ### The words of a command stream -/

theorem commandWords_cons {i : Instr} {s t : State} (is : List Instr) (h : exec i { s with outq := [] } = .next t) :
    commandWords (i :: is) s = t.outq ++ commandWords is t := by
  rw [commandWords, h]

/-- The words depend on the call only. -/
theorem commandWords_congr {s t : State} (is : List Instr) (h : sameCall s t) :
    commandWords is s = commandWords is t := by
  induction is generalizing s t with
  | nil => rfl
  | cons i is ih =>
    obtain ⟨s', hs⟩ := exec_next i { s with outq := [] }
    rcases exec_sameCall (s := { s with outq := [] }) (t := t) h hs with ⟨_, _, hf, _⟩ | ⟨t', ht, _, hout, hsame⟩
    · simp [Config.outDepth] at hf
    · rw [commandWords_cons is hs, commandWords_cons is ht, ih hsame, hout, List.nil_append]

/-- A `NOP` at the head of a stream emits nothing and leaves the call as it is. -/
theorem commandWords_nop (opnd : BitVec 32) (is : List Instr) (s : State) :
    commandWords (.nop opnd :: is) s = commandWords is s := by
  rw [commandWords_cons is (exec_nop opnd _)]
  exact commandWords_congr is (sameCall_refl s)

theorem commandWords_append_nop (is js : List Instr) (opnd : BitVec 32) (s : State) :
    commandWords (is ++ .nop opnd :: js) s = commandWords (is ++ js) s := by
  induction is generalizing s with
  | nil => exact commandWords_nop opnd js s
  | cons i is ih =>
    obtain ⟨t, ht⟩ := exec_next i { s with outq := [] }
    rw [List.cons_append, List.cons_append, commandWords_cons _ ht, commandWords_cons _ ht, ih]

/-! ### Delivery under every host (20_memory.md R41 to R50) -/

/-- What touches neither the call, nor the words emitted, nor the words to come, keeps the delivery. -/
theorem deliveryInv_of_sameCall {ws : List Word32} {s t : State} (h : deliveryInv ws s) (hturns : t.turns ⊆ s.turns)
    (hpending : pendingWords t = pendingWords s) (hemitted : emitted t = emitted s) (hsame : sameCall s t) :
    deliveryInv ws t := by
  obtain ⟨hreset, is, his, hws⟩ := h
  refine ⟨fun a ha => hreset a (hturns ha), is, hpending.trans his, ?_⟩
  rw [hemitted, ← commandWords_congr is hsame, hws]

/-- The accept step takes no byte of a partial word. -/
theorem AcceptEffect.keeps_rxBytes {s t : State} (h : AcceptEffect s t) : t.rxBytes = s.rxBytes := by
  cases h with
  | idle | held | ignored | fault | processed | closed => rfl
  | opened => simp

/-- The accept step moves the words of its command from those to come to those emitted. -/
theorem acceptStep_keeps_deliveryInv {ws : List Word32} {s t : State} (h : deliveryInv ws s)
    (hstep : acceptStep s = .next t) : deliveryInv ws t := by
  have heffect := acceptStep_effect hstep
  cases hp : s.port with
  | nil => exact heffect.eq_of_port_nil hp ▸ h
  | cons w rest =>
    have hdelivery := h
    obtain ⟨hreset, is, his, hws⟩ := h
    obtain ⟨hturns, hread⟩ := heffect.keeps_host
    rw [pendingWords, hp, List.cons_append] at his
    obtain ⟨i, is, rfl, rfl, hrest⟩ := List.map_eq_cons_iff.mp his.symm
    rw [acceptStep_command hp (decode_encode i)] at hstep
    rcases exec_sameCall (sameCall_refl s) hstep with ⟨_, _, _, rfl⟩ | ⟨u, hu, hport, hout, hsame⟩
    · exact hdelivery
    · refine ⟨hturns ▸ hreset, is, ?_, ?_⟩
      · rw [pendingWords, hport, hp, List.tail_cons, heffect.keeps_rxBytes, hturns, hrest]
      · rw [emitted, hread, hout, commandWords_congr is hsame, ← hws, commandWords_cons is hu, emitted]
        simp only [List.append_assoc]

/-- Every step keeps the delivery: the block's turn by its accept step, a turn of the host by what it leaves alone. -/
theorem step_keeps_deliveryInv {ws : List Word32} {s t : State} (h : deliveryInv ws s) (hstep : step s = .next t) :
    deliveryInv ws t := by
  have htail : s.turns.tail ⊆ s.turns := List.tail_subset _
  rcases step_cases hstep with ⟨_, hacc⟩ | ⟨ts, ht, hacc⟩ | ⟨w, ts, ht, rfl⟩ | ⟨b, ts, ht, rfl⟩ | ⟨ts, u, ht, hu, rfl⟩ |
    ⟨ts, ht, rfl⟩ | ⟨v, ts, ht, rfl⟩ | ⟨a, ts, ht, rfl⟩
  · exact acceptStep_keeps_deliveryInv h hacc
  · exact acceptStep_keeps_deliveryInv (s := s.dropTurn)
      (deliveryInv_of_sameCall h htail (by simp [pendingWords, ht]) rfl (sameCall_refl s)) hacc
  · exact deliveryInv_of_sameCall h htail (by simp [pendingWords, ht]) rfl (sameCall_refl s)
  · have hhost := offerByte_hostEffect b s
    refine deliveryInv_of_sameCall h (by rw [State.offerByte_eq]; exact htail) ?_ hhost.emitted_eq (hhost.frame ▸ sameCall_refl s)
    rw [pendingWords_offerByte, pendingWords, ht, State.dropTurn_port, State.dropTurn_rxBytes, State.dropTurn_turns, ht,
      List.tail_cons]
  · have hhost := readOutput_hostEffect hu
    obtain ⟨w, rest, _, rfl⟩ := State.readOutput_some hu
    exact deliveryInv_of_sameCall h htail (by simp [pendingWords, ht]) hhost.emitted_eq (sameCall_refl s)
  · exact deliveryInv_of_sameCall h htail (by simp [pendingWords, ht]) rfl (sameCall_refl s)
  · exact deliveryInv_of_sameCall h htail (by simp [pendingWords, ht]) rfl (sameCall_refl s)
  · obtain ⟨hreset, _⟩ := h
    exact absurd (by simp [ht]) (hreset a)

/-- Settles O58: one command after the other keeps two states in agreement on the call, and a step only moves words from
those to come to those emitted. -/
theorem callWordsDependOnTheCallOnly : Obligations.CallWordsDependOnTheCallOnly :=
  ⟨fun is _ _ h => commandWords_congr is h, commandWords_append_nop, fun _ _ _ h hstep => step_keeps_deliveryInv h hstep⟩

end Sys2Proof.Machine
end

section
/-! A host that makes one call and reads each word as it comes (60_exceptions.md R171): the run of its turns, and the
observation of that run (40_commands.md R76, 60_exceptions.md R174). -/

namespace Sys2Proof.Machine
open Sys2Proof.Safety

/-! ### Runs over the turns at the head of a schedule (20_memory.md R50) -/

/-- The turns `ts` take `s` to `t`, one step for each, whatever turns follow them; the schedules that `s` and `t`
themselves hold play no part. -/
def turnsLead (ts : List Turn) (s t : State) : Prop :=
  ∀ (rest : List Turn) (k : Nat),
    Host.Core.run Sys2Proof.core (ts.length + k) { s with turns := ts ++ rest } =
      Host.Core.run Sys2Proof.core k { t with turns := rest }

theorem turnsLead_nil (s : State) : turnsLead [] s s := fun rest k => by
  rw [List.length_nil, Nat.zero_add, List.nil_append]

theorem turnsLead_append {ts us : List Turn} {s t u : State} (h : turnsLead ts s t) (h' : turnsLead us t u) :
    turnsLead (ts ++ us) s u := fun rest k => by
  rw [List.length_append, List.append_assoc, Nat.add_assoc, h, h']

theorem turnsLead_cons {turn : Turn} {ts : List Turn} {s t u : State}
    (hstep : ∀ rest, step { s with turns := turn :: rest } = .next { t with turns := rest }) (h : turnsLead ts t u) :
    turnsLead (turn :: ts) s u := fun rest k => by
  rw [List.length_cons, Nat.add_right_comm, List.cons_append, run_succ _ (hstep _), h]

/-- The host offers a command and the block, on whose port no other word waits, runs it. -/
theorem turnsLead_command {i : Instr} {s t : State} (hs : s.port = []) (ht : t.port = [])
    (h : ∀ ts, exec i { s with port := [encode i], turns := ts } = .next { t with port := [], turns := ts }) :
    turnsLead (commandTurns i) s t := by
  refine turnsLead_cons (t := { s with port := [encode i] }) (fun rest => ?_)
    (turnsLead_cons (fun rest => ?_) (turnsLead_nil t))
  · rw [step_of_turns_offer rfl]
    simp [hs]
  · rw [step_of_turns_accept rfl, ht]
    exact (acceptStep_command rfl (decode_encode i)).trans (h rest)

/-- The host reads the word at the head of `OUTQ`. -/
theorem turnsLead_readOut {s : State} {w : Word32} {q : List Word32} (hq : s.outq = w :: q) :
    turnsLead [.readOut] s { s with outq := q, hostWords := s.hostWords ++ [w] } :=
  turnsLead_cons (fun rest => step_of_turns_readOut (s := { s with turns := .readOut :: rest }) rfl hq)
    (turnsLead_nil _)

/-! ### The words of a call -/

/-- A sample appends one word, which is the same whatever `OUTQ` holds. -/
theorem State.exists_word_processSample (x : F32) (s : State) :
    ∃ w, ∀ q, (State.processSample x { s with outq := q }).outq = q ++ [w] := by
  simp [State.processSample]

/-- The words depend on the call only. -/
theorem callOutputs_congr {s t : State} (xs : List F32) (h : sameCall s t) (hm : s.mode = .active) :
    callOutputs s xs = callOutputs t xs := by
  induction xs generalizing s t with
  | nil => rfl
  | cons x xs ih =>
    obtain ⟨hsame, hword⟩ := sameCall_processSample x (s := { s with outq := [] }) (t := { t with outq := [] }) h hm
    rw [callOutputs, callOutputs, hword, ih hsame hm, List.nil_append]

theorem length_callOutputs (s : State) (xs : List F32) : (callOutputs s xs).length = xs.length := by
  induction xs generalizing s with
  | nil => rfl
  | cons x xs ih =>
    rw [callOutputs, List.length_append, State.length_outq_processSample, ih, List.length_nil, List.length_cons,
      Nat.zero_add, Nat.add_comm]

/-! ### Between two commands of a call -/

/-- The call begun in `s` stands in `t` between two commands: `MODE` is `m`, no word waits on the port or in `OUTQ`, and
the host has read `ws` since. -/
structure BetweenCommands (s : State) (m : Mode) (ws : List Word32) (t : State) : Prop where
  mode_eq : t.mode = m
  cause_eq : t.cause = s.cause
  port_eq : t.port = []
  outq_eq : t.outq = []
  rxBytes_eq : t.rxBytes = s.rxBytes
  resets_eq : t.resets = s.resets
  hostWords_eq : t.hostWords = s.hostWords ++ ws

@[simp] theorem State.openCall_resets (sr : F32) (s : State) : (s.openCall sr).resets = s.resets := by
  unfold State.openCall; split <;> rfl

theorem State.openCall_withPort (sr : F32) (s : State) (p : List CmdWord) (ts : List Turn) :
    State.openCall sr { s with port := p, turns := ts } = { s.openCall sr with port := p, turns := ts } := by
  unfold State.openCall; split <;> rfl

theorem State.processSample_withPort (x : F32) (s : State) (p : List CmdWord) (ts : List Turn) :
    State.processSample x { s with port := p, turns := ts } = { s.processSample x with port := p, turns := ts } := by
  simp only [State.processSample, State.emit, State.nextIndex]

theorem begin_leads {s : State} (sr : F32) (hm : s.mode = .idle) (hp : s.port = []) (hq : s.outq = []) :
    turnsLead (commandTurns (.beginCall sr)) s (s.openCall sr) ∧
      BetweenCommands s (if isDegenerateRate sr then .degenerate else .active) [] (s.openCall sr) := by
  refine ⟨turnsLead_command hp (by simp [hp]) fun ts => ?_, ?_⟩
  · rw [exec_begin_idle (s := { s with port := _, turns := ts }) sr hm, State.openCall_withPort]
    rfl
  · constructor <;> simp [hp, hq]

theorem end_leads {s t : State} {m : Mode} {ws : List Word32} (h : BetweenCommands s m ws t)
    (hm : m = .active ∨ m = .degenerate) :
    ∃ u, turnsLead (commandTurns .endCall) t u ∧ BetweenCommands s .idle ws u := by
  obtain ⟨rfl, hcause, hport, houtq, hrx, hresets, hread⟩ := h
  exact ⟨{ t with mode := .idle }, turnsLead_command hport hport fun _ => exec_end_open hm,
    rfl, hcause, hport, houtq, hrx, hresets, hread⟩

/-- A degenerate call takes its samples and emits nothing (R73). -/
theorem degenerateSamples_lead {s t : State} (xs : List F32) (h : BetweenCommands s .degenerate [] t) :
    turnsLead (xs.flatMap fun x => commandTurns (.sample x)) t t := by
  obtain ⟨hm, _, hport⟩ := h
  induction xs with
  | nil => exact turnsLead_nil t
  | cons x xs ih =>
    exact turnsLead_append (turnsLead_command hport hport fun _ => exec_sample_degenerate x hm) ih

/-- A sample of an active call is processed and its word read. -/
theorem sample_leads {s t : State} {ws : List Word32} (x : F32) (h : BetweenCommands s .active ws t)
    (hi : t.idx ≠ IDX_MAX) :
    ∃ u, turnsLead (commandTurns (.sample x) ++ [Turn.readOut]) t u ∧
      BetweenCommands s .active (ws ++ (State.processSample x { t with outq := [] }).outq) u ∧
      sameCall (State.processSample x { t with outq := [] }) u := by
  obtain ⟨hm, hcause, hport, houtq, hrx, hresets, hread⟩ := h
  have hroom : t.outq.length ≠ Config.outDepth := by simp [houtq, Config.outDepth]
  have hcommand : turnsLead (commandTurns (.sample x)) t { t.processSample x with port := [] } :=
    turnsLead_command hport rfl fun ts => by
      rw [exec_sample_processed (s := { t with port := _, turns := ts }) x hm hi hroom, State.processSample_withPort]
      rfl
  obtain ⟨w, hword⟩ := State.exists_word_processSample x t
  have hqueue : (t.processSample x).outq = [w] := (hword t.outq).trans (by rw [houtq, List.nil_append])
  have hread : (t.processSample x).hostWords ++ [w] = s.hostWords ++ (ws ++ [w]) := by
    rw [← List.append_assoc, ← hread]
    rfl
  obtain ⟨hsame, _⟩ := sameCall_processSample (s := { t with outq := [] }) x (sameCall_refl t) hm
  rw [hword, List.nil_append]
  refine ⟨_, turnsLead_append hcommand (turnsLead_readOut hqueue), ⟨hm, hcause, rfl, rfl, hrx, hresets, hread⟩, ?_⟩
  simpa only [sameCall] using hsame

/-- An active call gives the host the words of its samples in order, while `IDX` has room for them (R72). -/
theorem samples_lead {s t : State} {ws : List Word32} (xs : List F32) (h : BetweenCommands s .active ws t)
    (hi : t.idx.toNat + xs.length < 2 ^ 64) :
    ∃ u, turnsLead (xs.flatMap fun x => commandTurns (.sample x) ++ [Turn.readOut]) t u ∧
      BetweenCommands s .active (ws ++ callOutputs t xs) u := by
  induction xs generalizing t ws with
  | nil => exact ⟨t, turnsLead_nil t, by rwa [callOutputs, List.append_nil]⟩
  | cons x xs ih =>
    rw [List.length_cons] at hi
    have hmax : t.idx ≠ IDX_MAX := mt eq_IDX_MAX_iff.mp (by omega)
    obtain ⟨u, hlead, hu, hsame⟩ := sample_leads x h hmax
    have hactive : (State.processSample x { t with outq := [] }).mode = .active := h.mode_eq
    have ⟨_, hregs⟩ := hsame
    obtain ⟨_, _, _, _, _, hidx, _⟩ := hregs hactive
    have hnext : u.idx.toNat = t.idx.toNat + 1 := hidx ▸ toNat_add_one_of_ne_IDX_MAX hmax
    obtain ⟨v, hlead', hv⟩ := ih hu (by omega)
    refine ⟨v, turnsLead_append hlead hlead', ?_⟩
    rw [← callOutputs_congr xs hsame hactive, List.append_assoc] at hv
    exact hv

/-! ### The whole call -/

/-- The words the host reads in a call: none if the rate is degenerate, else those of the per-sample rule. -/
theorem call_leads {s : State} (sr : F32) (xs : List F32) (hm : s.mode = .idle) (hp : s.port = []) (hq : s.outq = [])
    (hlen : xs.length < 2 ^ 64) :
    ∃ t, turnsLead (callTurns sr xs) s t ∧
      BetweenCommands s .idle (if isDegenerateRate sr then [] else callOutputs (s.openCall sr) xs) t := by
  obtain ⟨hbegin, hopen⟩ := begin_leads sr hm hp hq
  unfold callTurns
  cases hd : isDegenerateRate sr with
  | true =>
    rw [hd] at hopen
    obtain ⟨t, hend, ht⟩ := end_leads hopen (.inr rfl)
    have hsamples := degenerateSamples_lead xs hopen
    exact ⟨t, turnsLead_append (turnsLead_append hbegin (by simpa using hsamples)) hend, ht⟩
  | false =>
    rw [hd] at hopen
    obtain ⟨u, hsamples, hu⟩ := samples_lead xs hopen (by simpa using hlen)
    obtain ⟨t, hend, ht⟩ := end_leads hu (.inl rfl)
    exact ⟨t, turnsLead_append (turnsLead_append hbegin hsamples) hend, ht⟩

/-- One count for the one call: a word for each sample, none if the call is degenerate (R76). -/
theorem wordsPerCall_samples (d : Bool) (n : Nat) (xs : List F32) :
    wordsPerCall (some (d, n)) (xs.map .sample ++ [.endCall]) = [if d then n else n + xs.length] := by
  induction xs generalizing n with
  | nil => simp [wordsPerCall]
  | cons x xs ih =>
    rw [List.map_cons, List.cons_append, wordsPerCall, Option.map_some, ih]
    cases d <;> simp [Nat.add_assoc, Nat.add_comm]

theorem wordsPerCall_callStream (sr : F32) (xs : List F32) :
    wordsPerCall none (callStream sr xs) = [if isDegenerateRate sr then 0 else xs.length] := by
  rw [callStream, wordsPerCall, wordsPerCall_samples, Nat.zero_add]

theorem splitCounts_length (ws : List Word32) : splitCounts [ws.length] ws = [ws] := by
  rw [splitCounts, List.take_length, List.drop_length, splitCounts]

/-- Settles O57: the turns of the call, command by command; the count of its words splits the observation. -/
theorem callEmitsOneWordPerSample : Obligations.CallEmitsOneWordPerSample := by
  intro s sr xs hm hp hq hlen
  obtain ⟨t, hlead, hmode, hcause, hport, houtq, hrx, hresets, hread⟩ := call_leads sr xs hm hp hq hlen
  have hlength : (if isDegenerateRate sr then [] else callOutputs (s.openCall sr) xs).length =
      if isDegenerateRate sr then 0 else xs.length := by
    split
    · rfl
    · exact length_callOutputs _ _
  refine ⟨{ t with turns := [] }, _, ?_, hmode, hcause, hport, houtq, rfl, hread, rfl, hlength, fun hs => ?_⟩
  · simpa [Host.Core.run] using hlead [] 0
  · have hclean : cleanRun s { t with turns := [] } :=
      ⟨⟨hresets, rfl, hport, hrx.trans hs, houtq⟩, by simp [hmode]⟩
    refine ⟨hclean, ?_⟩
    rw [observation, if_pos hclean, wordsPerCall_callStream, ← hlength, hread, List.drop_left, splitCounts_length]

end Sys2Proof.Machine
end

section
/-! Stage 1, sample time and modulation (41_modulation.md R90 to R94): its corner cases, its bounds, and the two corner
cases that the rules' own formulas contradict. -/

namespace Sys2Proof.Machine
open Sys2Proof.Safety

/-! ### Products and sums through their rounding -/

theorem isFinite_eq_false_iff {a : F32} : isFinite a = false ↔ isNaN a = true ∨ isInf a = true := by
  rw [← Bool.not_eq_true, isFinite_iff]
  cases isNaN a <;> simp

/-- A factor that is not finite leaves a product that is not finite. -/
theorem isFinite_fmul_of_not_right {a b : F32} (h : isFinite b = false) : isFinite (fmul a b) = false := by
  rw [isFinite_eq_false_iff] at h ⊢
  by_cases hnan : isNaN a = true ∨ isNaN b = true
  · exact .inl (isNaN_fmul a b (by simpa using hnan))
  · have hb := h.resolve_left fun hb => hnan (.inr hb)
    cases hz : isZero a with
    | true => exact .inl (isNaN_fmul_isInf_isZero hb hz).2
    | false =>
      rw [fmul_isInf (by simpa using fun ha => hnan (.inl ha)) (isNaN_of_isInf hb) (.inr hb) hz (isZero_of_isInf hb)]
      exact .inr (isInf_pack_infBits _)

/-- A factor of smaller magnitude does not overflow where a greater one does not. -/
theorem isFinite_fmul_of_mag_le {a b t : F32} (ha : isFinite a = true) (hb : isFinite b = true) (hab : mag a ≤ mag b)
    (h : isFinite (fmul b t) = true) : isFinite (fmul a t) = true := by
  have ht : isFinite t = true := by
    by_contra ht
    simp [isFinite_fmul_of_not_right (a := b) (by simpa using ht)] at h
  refine isFinite_of_absBits_le h ?_
  rw [fmul_finite ha ht, fmul_finite hb ht, absBits_pack_round, absBits_pack_round]
  exact roundBits_mono (by decide) (by decide) (Nat.mul_le_mul_right _ (Nat.mul_le_mul_right _ hab))

/-- A pattern below that of `+Inf` is a finite value with a clear sign. -/
theorem fields_of_toNat_lt_infBits {a : F32} (h : a.toNat < infBits) :
    isFinite a = true ∧ signBit a = false ∧ absBits a = a.toNat := by
  have hinf : infBits < 2 ^ 31 := by decide
  have habs : absBits a = a.toNat := Nat.mod_eq_of_lt (by omega)
  refine ⟨by simpa [isFinite, habs] using h, ?_, habs⟩
  rw [signBit_eq, decide_eq_false_iff_not]
  omega

theorem toNat_roundInt_of_pos {zeroNeg : Bool} {v : Int} (h : 0 < v) :
    (roundInt zeroNeg v).toNat = roundBits v.natAbs 1 := by
  rw [roundInt, if_neg (by omega), decide_eq_false (by omega), toNat_pack _ (roundBits_lt _ _)]
  simp

/-- A sum of two finite values grows with its exact value, where that is positive. -/
theorem toNat_fadd_mono {a b c d : F32} (ha : isFinite a = true) (hb : isFinite b = true) (hc : isFinite c = true)
    (hd : isFinite d = true) (hpos : 0 < value a + value b) (hle : value a + value b ≤ value c + value d) :
    (fadd a b).toNat ≤ (fadd c d).toNat := by
  rw [fadd_finite ha hb, fadd_finite hc hd, toNat_roundInt_of_pos hpos, toNat_roundInt_of_pos (hpos.trans_le hle)]
  exact roundBits_mono one_pos one_pos (by omega)

/-- A positive value between `l` and `h`, plus a term of magnitude at most `c`, lies between `l - c` and `h + c`, each
rounded as a sum is. -/
theorem toNat_fadd_between {l p h w c : F32} (hlp : l.toNat ≤ p.toNat) (hph : p.toNat ≤ h.toNat)
    (hh : h.toNat < infBits) (hwc : absBits w ≤ absBits c) (hc : c.toNat < infBits) (hcl : mag c < mag l) :
    (fadd l (fneg c)).toNat ≤ (fadd p w).toNat ∧ (fadd p w).toNat ≤ (fadd h c).toNat := by
  obtain ⟨lfin, lsign, labs⟩ := fields_of_toNat_lt_infBits (hlp.trans_lt (hph.trans_lt hh))
  obtain ⟨pfin, psign, pabs⟩ := fields_of_toNat_lt_infBits (hph.trans_lt hh)
  obtain ⟨hfin, hsign, habs⟩ := fields_of_toNat_lt_infBits hh
  obtain ⟨cfin, csign, _⟩ := fields_of_toNat_lt_infBits hc
  have wfin : isFinite w = true := isFinite_of_absBits_le cfin hwc
  have hlp' : mag l ≤ mag p := mag_le_iff.mpr (by rwa [labs, pabs])
  have hph' : mag p ≤ mag h := mag_le_iff.mpr (by rwa [pabs, habs])
  have hw : (value w).natAbs ≤ mag c := natAbs_value w ▸ mag_le_iff.mpr hwc
  have vl := value_of_sign lsign
  have vp := value_of_sign psign
  have vh := value_of_sign hsign
  have vc := value_of_sign csign
  have vnc := value_fneg c
  exact ⟨toNat_fadd_mono lfin ((isFinite_fneg c).trans cfin) pfin wfin (by omega) (by omega),
    toNat_fadd_mono pfin wfin hfin cfin (by omega) (by omega)⟩

/-! ### An oscillator `sinF(v) * a` -/

theorem isNaN_fmul_sinF {v : F32} (a : F32) (h : isFinite v = false) : isNaN (fmul (sinF v) a) = true :=
  isNaN_fmul _ _ (by simp [isNaN_sinF (isFinite_eq_false_iff.mp h)])

/-- Its magnitude is at most that of its factor, because the sine is within `[-1, 1]` (00_scope.md R15). -/
theorem absBits_fmul_sinF_le {v a : F32} (hv : isFinite v = true) (ha : isFinite a = true) :
    absBits (fmul (sinF v) a) ≤ absBits a := by
  have hsin : absBits (sinF v) ≤ absBits one := absBits_sinF_le hv
  have hmag : mag (sinF v) ≤ unit := (mag_le_iff.mpr hsin).trans_eq (by decide +kernel)
  refine fmul_absBits_le (isFinite_of_absBits_le (by decide) hsin) ha ha ?_
  rw [mul_comm (mag a)]
  exact Nat.mul_le_mul_right _ hmag

/-! ### The modulation (R91 to R94) -/

/-- The flutter is a NaN where its argument overflows, and so are the amplitude and the modulated sample. -/
theorem isNaN_modulation {t : F32} (h : isFinite (fmul W_FLUT t) = false) :
    isNaN (flutter t) = true ∧ isNaN (am t) = true ∧ ∀ x, isNaN (modulate x t) = true := by
  have hflutter : isNaN (flutter t) = true := isNaN_fmul_sinF A_FLUT h
  have ham : isNaN (am t) = true := isNaN_fadd _ _ (by simp [hflutter])
  exact ⟨hflutter, ham, fun x => isNaN_fadd _ _ (by simp [isNaN_fmul x (am t) (by simp [ham])])⟩

/-- The wow argument is the smaller one: it does not overflow where the flutter argument does not. -/
theorem absBits_wow_le {t : F32} (h : isFinite (fmul W_FLUT t) = true) : absBits (wow t) ≤ absBits A_WOW :=
  absBits_fmul_sinF_le (isFinite_fmul_of_mag_le (by decide) (by decide) (by decide +kernel) h) (by decide)

theorem absBits_flutter_le {t : F32} (h : isFinite (fmul W_FLUT t) = true) : absBits (flutter t) ≤ absBits A_FLUT :=
  absBits_fmul_sinF_le h (by decide)

/-- The bounds are `1 - A_WOW - A_FLUT` and `1 + A_WOW + A_FLUT`, summed as the amplitude is (R93). -/
theorem toNat_am_between {t : F32} (h : isFinite (fmul W_FLUT t) = true) :
    0x3F6F5C29 ≤ (am t).toNat ∧ (am t).toNat ≤ 0x3F8851EB := by
  obtain ⟨hlow, hhigh⟩ : (fadd one (fneg A_WOW)).toNat ≤ (fadd one (wow t)).toNat ∧
      (fadd one (wow t)).toNat ≤ (fadd one A_WOW).toNat :=
    toNat_fadd_between le_rfl le_rfl (by decide) (absBits_wow_le h) (by decide) (by decide +kernel)
  obtain ⟨hlo, hhi⟩ := toNat_fadd_between hlow hhigh (by decide +kernel) (absBits_flutter_le h) (by decide)
    (by decide +kernel)
  exact ⟨le_of_eq_of_le (by decide +kernel) hlo, hhi.trans_eq (by decide +kernel)⟩

/-- By a positive finite amplitude a zero sample stays a zero and an infinite one itself, and the bias is added (R94). -/
theorem modulate_of_am_pos {t : F32} (x : F32) (h0 : 0 < (am t).toNat) (hlt : (am t).toNat < infBits) :
    (isZero x = true → modulate x t = DC_BIAS) ∧ (isInf x = true → modulate x t = x) := by
  obtain ⟨hfin, hsign, habs⟩ := fields_of_toNat_lt_infBits hlt
  have hzero : isZero (am t) = false := by simp only [isZero, habs, decide_eq_false_iff_not]; omega
  refine ⟨fun hx => ?_, fun hx => ?_⟩
  · have hmag : mag x = 0 := by rw [mag, show absBits x = 0 by simpa [isZero] using hx, magOfBits_zero]
    rw [modulate, fmul_finite (isFinite_of_isZero hx) hfin, hmag, zero_mul, roundBits_zero _ (by decide)]
    cases (signBit x != signBit (am t)) <;> decide +kernel
  · have hprod : fmul x (am t) = x := by
      rw [fmul_isInf (isNaN_of_isInf hx) (isNaN_of_isFinite hfin) (.inl hx) (isZero_of_isInf hx) hzero, hsign,
        Bool.bne_false, ← absBits_of_isInf hx, pack_fields]
    rw [modulate, hprod, (sum_isInf_isFinite hx (by decide)).1]

/-- Settles O41: the bounds from those of the two oscillators, the NaN of an argument that is not finite. -/
theorem modulationBounds : Obligations.ModulationBounds := by
  refine ⟨fun t h => ?_, fun t h => ?_, by decide +kernel, fun t x h => ?_⟩
  · exact ⟨isFinite_of_absBits_le (by decide) (absBits_wow_le h), absBits_wow_le h,
      isFinite_of_absBits_le (by decide) (absBits_flutter_le h), absBits_flutter_le h, toNat_am_between h⟩
  · exact ⟨isNaN_fmul_sinF A_WOW (isFinite_fmul_of_not_right h), isNaN_modulation (isFinite_fmul_of_not_right h)⟩
  · obtain ⟨hlo, hhi⟩ := toNat_am_between h
    exact modulate_of_am_pos x (by omega) (by simp only [infBits]; omega)

/-- Refutes O54: the finite time `0x7F7FFFFF`, the largest, overflows the flutter argument. -/
theorem not_finiteTimeGivesFiniteModulation : ¬ Obligations.FiniteTimeGivesFiniteModulation := by
  intro h
  have hnum : isNaN (am 0x7F7FFFFF#32) = false := h _ (by decide)
  obtain ⟨_, hnan, _⟩ := isNaN_modulation (t := 0x7F7FFFFF#32) (by decide +kernel)
  simp [hnan] at hnum

/-! ### The sample time (R90) -/

theorem nearest_u2f (n : Nat) : nearest (n * unit) 1 (u2f n) ∧ signBit (u2f n) = false :=
  ⟨nearest_pack_roundBits _ _ one_pos, signBit_pack_round _ _ _⟩

/-- Every index converts without overflow. -/
theorem isFinite_u2f {n : Nat} (h : n < 2 ^ 64) : isFinite (u2f n) = true := by
  refine isFinite_pack (lt_of_le_of_ne (roundBits_le_infBits _ _) fun hinf => ?_)
  have := (roundBits_eq_infBits_iff one_pos).mp hinf
  rw [unit] at this
  omega

/-- Zero divided by a positive value, finite or infinite. -/
theorem fdiv_posZero {sr : F32} (hn : isNaN sr = false) (hs : signBit sr = false) (hz : isZero sr = false) :
    fdiv posZero sr = posZero := by
  cases hi : isInf sr with
  | true =>
    rw [fdiv_isInf_right (by decide) hi, hs]
    decide
  | false =>
    rw [fdiv_finite (by decide) ((isFinite_iff sr).mpr ⟨hn, hi⟩) hz, hs, show mag posZero = 0 by decide, zero_mul,
      roundBits_zero _ (mag_pos_of_not_isZero hz)]
    decide

/-- Settles O40: index 0, the infinite and the NaN rate, the rounding of the index, and the examples. -/
theorem sampleTimeCorners : Obligations.SampleTimeCorners := by
  refine ⟨fun sr hn hs hz => ?_, fun i => ?_, fun sr i h => isNaN_sampleTime _ h, fun n _ => nearest_u2f n, fun sr => ?_,
    by decide +kernel, by decide +kernel⟩
  · exact fdiv_posZero hn hs hz
  · rw [sampleTime, fdiv_isInf_right (isFinite_u2f i.isLt) (by decide), (nearest_u2f i.toNat).2]
    decide
  · have hshared : u2f (16777217#64).toNat = u2f (16777216#64).toNat := by decide +kernel
    rw [sampleTime, hshared, sampleTime]

/-- Refutes O55: at the largest subnormal rate, `0x007FFFFF`, the time of index 1 is just above `2^126`, with no
overflow. -/
theorem not_subnormalRateGivesInfiniteTime : ¬ Obligations.SubnormalRateGivesInfiniteTime := by
  intro h
  have hinf : sampleTime 1#64 0x007FFFFF#32 = 0x7F800000#32 := h _ _ (by decide) (by decide) (by decide)
  exact absurd hinf (by decide +kernel)

end Sys2Proof.Machine
end

section
/-! Non-finite poisoning (42_filters.md R103): what is not finite stays so through the filters, a `SAMPLE` that leaves it in
`LP_Y` emits `NAN_OUT`, and the high-pass filter carries an infinite sample over as that infinity or a NaN. -/

namespace Sys2Proof.Machine
open Sys2Proof.Safety

/-! ### Values that are not finite -/

theorem isFinite_eq_false_of_isNaN {a : F32} (h : isNaN a = true) : isFinite a = false :=
  isFinite_eq_false_iff.mpr (.inl h)

theorem isFinite_eq_false_of_isInf {a : F32} (h : isInf a = true) : isFinite a = false :=
  isFinite_eq_false_iff.mpr (.inr h)

/-- A summand that is not finite leaves a sum that is not finite. -/
theorem isFinite_sumAs_of_not {op : FpOp} {a b : F32} (h : isFinite a = false ∨ isFinite b = false) :
    isFinite (sumAs op a b) = false := by
  unfold sumAs
  split_ifs with hnan hopp ha hb
  · exact isFinite_eq_false_of_isNaN (isNaN_nanResult op a b)
  · exact isFinite_eq_false_of_isNaN (isNaN_nanResult op a b)
  · exact isFinite_eq_false_of_isInf ha
  · exact isFinite_eq_false_of_isInf hb
  · have hmem : isNaN a = true ∨ isNaN b = true := by simpa [isFinite_eq_false_iff, ha, hb] using h
    exact absurd (by simpa using hmem) hnan

/-- A sum with an infinite summand is that infinity, unless it is a NaN. -/
theorem sumAs_isNaN_or_eq {op : FpOp} {a b c : F32} (hc : isInf c = true) (h : a = c ∨ b = c) :
    isNaN (sumAs op a b) = true ∨ sumAs op a b = c := by
  unfold sumAs
  split_ifs with hnan hopp ha hb
  · exact .inl (isNaN_nanResult op a b)
  · exact .inl (isNaN_nanResult op a b)
  · refine .inr (h.elim id fun hb => ?_)
    subst hb
    have hsign : signBit a = signBit b := by simpa [ha, hc] using hopp
    exact eq_of_fields hsign ((absBits_of_isInf ha).trans (absBits_of_isInf hc).symm)
  · refine .inr (h.elim (fun h => ?_) id)
    exact absurd (h ▸ hc) ha
  · rcases h with rfl | rfl <;> contradiction

/-- A factor with a clear sign leaves an infinity as it is, unless the product is a NaN. -/
theorem fmul_isNaN_or_eq {a c : F32} (ha : isNaN a = true ∨ signBit a = false) (hc : isInf c = true) :
    isNaN (fmul a c) = true ∨ fmul a c = c := by
  rcases ha with ha | hs
  · exact .inl (isNaN_fmul a c (by simp [ha]))
  cases hn : isNaN a with
  | true => exact .inl (isNaN_fmul a c (by simp [hn]))
  | false =>
    cases hz : isZero a with
    | true => exact .inl (isNaN_fmul_isInf_isZero hc hz).2
    | false =>
      refine .inr ?_
      rw [fmul_isInf hn (isNaN_of_isInf hc) (.inr hc) hz (isZero_of_isInf hc), hs, Bool.false_bne,
        ← absBits_of_isInf hc, pack_fields]

/-- A coefficient of the filters is never negative (R100). -/
theorem coef_isNaN_or_nonneg (fc sr : F32) : isNaN (coef fc sr) = true ∨ signBit (coef fc sr) = false := by
  unfold coef
  cases h : isNaN (fdiv (fmul (fneg TWO_PI) fc) sr) with
  | true => exact .inl (isNaN_expF h)
  | false =>
    have hle := toNat_expF_le h
    simp only [infBits] at hle
    exact .inr (by rw [signBit_eq, decide_eq_false_iff_not]; omega)

/-! ### The filters (R101, R102) -/

theorem isNaN_hpStep_of_memory {hpY hpX : F32} (hpA biased : F32) (h : isNaN hpY = true ∨ isNaN hpX = true) :
    isNaN (hpStep hpA hpY hpX biased) = true := by
  have hdiff : isNaN (fsub (fadd hpY biased) hpX) = true := by
    rcases h with h | h
    · exact isNaN_fsub _ _ (by simp [isNaN_fadd hpY biased (by simp [h])])
    · exact isNaN_fsub _ _ (by simp [h])
  exact isNaN_fmul _ _ (by simp [hdiff])

theorem isNaN_lpStep_of_memory {lpY : F32} (lpA hp : F32) (h : isNaN lpY = true) :
    isNaN (lpStep lpA lpY hp) = true :=
  isNaN_fadd _ _ (by simp [isNaN_fmul lpA lpY (by simp [h])])

theorem isFinite_hpStep_of_not {biased : F32} (hpA hpY hpX : F32) (h : isFinite biased = false) :
    isFinite (hpStep hpA hpY hpX biased) = false :=
  isFinite_fmul_of_not_right (isFinite_sumAs_of_not (.inl (isFinite_sumAs_of_not (.inr h))))

theorem isFinite_lpStep_of_not {hp : F32} (lpA lpY : F32) (h : isFinite hp = false) :
    isFinite (lpStep lpA lpY hp) = false :=
  isFinite_sumAs_of_not (.inl (isFinite_fmul_of_not_right h))

/-- A coefficient that is not negative lets an infinite sample through with its sign, unless the step gives a NaN. -/
theorem hpStep_isNaN_or_eq {hpA biased : F32} (hpY hpX : F32) (hA : isNaN hpA = true ∨ signBit hpA = false)
    (hb : isInf biased = true) :
    isNaN (hpStep hpA hpY hpX biased) = true ∨ hpStep hpA hpY hpX biased = biased := by
  rcases sumAs_isNaN_or_eq (op := .add) (a := hpY) hb (.inr rfl) with hsum | hsum
  · have hdiff : isNaN (fsub (fadd hpY biased) hpX) = true := isNaN_fsub _ _ (by simp [fadd, hsum])
    exact .inl (isNaN_fmul _ _ (by simp [hdiff]))
  · rw [hpStep, fadd, hsum]
    rcases sumAs_isNaN_or_eq (op := .sub) (b := fneg hpX) hb (.inl rfl) with hdiff | hdiff
    · exact .inl (isNaN_fmul _ _ (by simp [fsub, hdiff]))
    · rw [fsub, hdiff]
      exact fmul_isNaN_or_eq hA hb

/-- After an infinite sample that the high-pass filter let through, the next step subtracts an infinity from itself. -/
theorem isNaN_hpStep_isInf {a : F32} (hpA biased : F32) (h : isInf a = true) :
    isNaN (hpStep hpA a a biased) = true := by
  have hdiff : isNaN (fsub (fadd a biased) a) = true := by
    rcases sumAs_isNaN_or_eq (op := .add) (b := biased) h (.inl rfl) with hsum | hsum
    · exact isNaN_fsub _ _ (by simp [fadd, hsum])
    · rw [fadd, hsum]
      exact ((sum_isInf_isInf h h).2 rfl).2
  exact isNaN_fmul _ _ (by simp [hdiff])

/-! ### The output of what is not finite (43_waveshaper.md R110, R112) -/

/-- Infinity divided by infinity, or a NaN. -/
theorem isNaN_softClip_of_not_isFinite {v : F32} (h : isFinite v = false) : isNaN (softClip v) = true := by
  rcases isFinite_eq_false_iff.mp h with h | h
  · exact isNaN_softClip h
  · have habs : isInf (fabs v) = true := by simpa [isInf, absBits_fabs] using h
    obtain ⟨_, hsum, _⟩ := sum_isInf_isFinite habs (show isFinite one = true by decide)
    rw [softClip, hsum]
    exact isNaN_fdiv_invalid (.inl ⟨h, habs⟩)

theorem isNaN_shape_of_not_isFinite {lp : F32} (h : isFinite lp = false) : isNaN (shape lp) = true := by
  rcases isFinite_eq_false_iff.mp h with h | h
  · exact isNaN_shape h
  · have hgain : isInf (fmul lp G_SOFT) = true := by
      rw [fmul_isInf (isNaN_of_isInf h) (by decide) (.inl h) (isZero_of_isInf h) (by decide)]
      exact isInf_pack_infBits _
    have hsoft := isNaN_softClip_of_not_isFinite (isFinite_eq_false_of_isInf hgain)
    exact isNaN_asymClip (isNaN_fmul _ _ (by simp [hsoft]))

/-! ### A sample processed (40_commands.md R72) -/

theorem State.processSample_hpX (x : F32) (s : State) :
    (s.processSample x).hpX = modulate x (sampleTime s.idx s.sr) := by
  obtain ⟨biased, hp, lp, env, y, hbiased, -, -, -, -, hs⟩ := State.processSample_eq x s
  rw [hs, hbiased]

theorem State.processSample_hpY (x : F32) (s : State) :
    (s.processSample x).hpY = hpStep s.hpA s.hpY s.hpX (s.processSample x).hpX := by
  obtain ⟨biased, hp, lp, env, y, -, hhp, -, -, -, hs⟩ := State.processSample_eq x s
  rw [hs, hhp]

theorem State.processSample_lpY (x : F32) (s : State) :
    (s.processSample x).lpY = lpStep s.lpA s.lpY (s.processSample x).hpY := by
  obtain ⟨biased, hp, lp, env, y, -, -, hlp, -, -, hs⟩ := State.processSample_eq x s
  rw [hs, hlp]

theorem processSample_outq_of_not_isFinite_lpY {s : State} {x : F32} (h : isFinite (s.processSample x).lpY = false) :
    (s.processSample x).outq = s.outq ++ [nanOut] := by
  obtain ⟨biased, hp, lp, env, y, -, -, -, -, rfl, hs⟩ := State.processSample_eq x s
  rw [hs] at h ⊢
  rw [outWord_clampOut_of_isNaN (isNaN_quantize (isNaN_combine _ _ _ (isNaN_shape_of_not_isFinite h)))]

/-- An infinite or NaN biased sample passes both filters as one of the two. -/
theorem isFinite_lpY_of_not_isFinite_hpX {s : State} {x : F32} (h : isFinite (s.processSample x).hpX = false) :
    isFinite (s.processSample x).lpY = false := by
  rw [State.processSample_lpY, State.processSample_hpY]
  exact isFinite_lpStep_of_not _ _ (isFinite_hpStep_of_not _ _ _ h)

/-- A NaN that a sample stores in any memory reaches the last one. -/
theorem isNaN_lpY_of_poisoned_processSample {s : State} {x : F32} (h : poisoned (s.processSample x)) :
    isNaN (s.processSample x).lpY = true := by
  have hlow (hhp : isNaN (s.processSample x).hpY = true) : isNaN (s.processSample x).lpY = true := by
    rw [State.processSample_lpY]
    exact isNaN_lpStep _ _ hhp
  rcases h with hhpY | hhpX | hlpY
  · exact hlow hhpY
  · refine hlow ?_
    rw [State.processSample_hpY]
    exact isNaN_hpStep _ _ _ hhpX
  · exact hlpY

/-- A NaN that a sample finds in any memory is stored again. -/
theorem poisoned_processSample {s : State} (x : F32) (h : poisoned s) : poisoned (s.processSample x) := by
  unfold poisoned
  rw [State.processSample_lpY, State.processSample_hpY]
  rcases h with hhpY | hhpX | hlpY
  · exact .inl (isNaN_hpStep_of_memory _ _ (.inl hhpY))
  · exact .inl (isNaN_hpStep_of_memory _ _ (.inr hhpX))
  · exact .inr (.inr (isNaN_lpStep_of_memory _ _ hlpY))

/-- The memories are not the port. -/
theorem poisoned_accept {s : State} : poisoned s.accept ↔ poisoned s := Iff.rfl

theorem processSample_outq_of_poisoned {s : State} {x : F32} (h : poisoned (s.processSample x)) :
    (s.processSample x).outq = s.outq ++ [nanOut] :=
  processSample_outq_of_not_isFinite_lpY (isFinite_eq_false_of_isNaN (isNaN_lpY_of_poisoned_processSample h))

/-- Over an infinity in both high-pass memories, or with a NaN in `HP_Y`, every sample stores a NaN. -/
theorem poisoned_processSample_of_isInf_hpX {s : State} (x : F32) (hX : isInf s.hpX = true)
    (hY : isNaN s.hpY = true ∨ s.hpY = s.hpX) : poisoned (s.processSample x) := by
  rcases hY with hnan | heq
  · exact poisoned_processSample x (.inl hnan)
  · refine .inl ?_
    rw [State.processSample_hpY, heq]
    exact isNaN_hpStep_isInf _ _ hX

/-! ### The commands (R103) -/

/-- A `SAMPLE` moves `IDX` only where it is processed. -/
theorem eq_processSample_of_idx_ne {s t : State} {x : F32} (h : exec (.sample x) s = .next t) (hi : t.idx ≠ s.idx) :
    t = (s.processSample x).accept := by
  rcases exec_sample_cases x s with ⟨_, he⟩ | ⟨_, he⟩ | ⟨_, _, he⟩ | ⟨_, _, _, he⟩ | ⟨_, _, _, he⟩ <;>
    rw [he] at h <;> cases h
  case inr.inr.inr.inr => rfl
  all_goals exact absurd rfl hi

theorem exec_keeps_poisoned {i : Instr} {s t : State} (hi : ∀ sr, i ≠ .beginCall sr) (h : exec i s = .next t)
    (hs : poisoned s) : poisoned t := by
  rcases exec_cases h with rfl | ⟨_, _, rfl⟩ | ⟨sr, hsr, _⟩ | ⟨_, _, _, _, rfl⟩ | ⟨x, _, _, _, _, rfl⟩ | ⟨_, _, rfl⟩
  case inr.inr.inl => exact absurd hsr (hi sr)
  case inr.inr.inr.inr.inl => exact poisoned_accept.mpr (poisoned_processSample x hs)
  all_goals exact hs

/-- Settles O34: a NaN in a memory reaches `LP_Y` and the word, and is stored again; an infinite biased sample reaches
`LP_Y` as an infinity or a NaN, and the coefficient, never negative, keeps its sign in both high-pass memories. -/
theorem poisonedCallStaysPoisoned : Obligations.PoisonedCallStaysPoisoned := by
  refine ⟨fun s t x _ ht hi => ?_, fun s t u x x' hinv hm ht hi hb => ?_, fun i s t => exec_keeps_poisoned⟩
  · rw [eq_processSample_of_idx_ne ht hi, State.accept_outq, poisoned_accept]
    exact ⟨processSample_outq_of_poisoned, fun hs =>
      ⟨poisoned_processSample x hs, processSample_outq_of_poisoned (poisoned_processSample x hs)⟩⟩
  · rw [← State.processSample_hpX] at hb
    have heq := eq_processSample_of_idx_ne ht hi
    refine ⟨?_, fun hu hi' => ?_⟩
    · rw [heq, State.accept_outq]
      exact processSample_outq_of_not_isFinite_lpY (isFinite_lpY_of_not_isFinite_hpX (isFinite_eq_false_of_isInf hb))
    · obtain ⟨_, hA, _⟩ := hinv hm
      have hhp := hpStep_isNaN_or_eq s.hpY s.hpX (hA ▸ coef_isNaN_or_nonneg FC_HP s.sr) hb
      rw [← State.processSample_hpY] at hhp
      rw [eq_processSample_of_idx_ne hu hi', poisoned_accept]
      refine poisoned_processSample_of_isInf_hpX x' ?_ ?_
      · rwa [heq, State.accept_hpX]
      · rwa [heq, State.accept_hpX, State.accept_hpY]

end Sys2Proof.Machine
end

section
/-! Stage 3, the waveshaper (43_waveshaper.md R110 to R113): its corner cases, its enclosure, and the saturation that
R110 words for one binade too many. -/

namespace Sys2Proof.Machine
open Sys2Proof.Safety

/-! ### The denominator `1 + x` -/

theorem mag_one : mag one = unit := by decide +kernel

/-- A clear sign or a zero: the value is the magnitude. -/
theorem value_eq_mag {x : F32} (h : signBit x = false ∨ isZero x = true) : value x = mag x := by
  rcases h with h | h
  · exact value_of_sign h
  · have hm : mag x = 0 := by rw [mag, show absBits x = 0 by simpa [isZero] using h, magOfBits_zero]
    simp [value, hm]

/-- Adding one to a finite magnitude never overflows: half a unit in the last place of the largest is more than one. -/
theorem roundBits_unit_add_lt_infBits {b : Nat} (h : b < infBits) : roundBits (unit + magOfBits b) 1 < infBits := by
  refine lt_of_le_of_ne (roundBits_le_infBits _ _) fun hinf => ?_
  have hover := (roundBits_eq_infBits_iff one_pos).mp hinf
  have hb : magOfBits b ≤ (2 ^ 24 - 1) * 2 ^ 253 :=
    (magOfBits_le_iff.mpr (Nat.le_pred_of_lt h)).trans_eq (by decide +kernel)
  rw [unit] at hover
  omega

section
variable {x : F32} (hx : isFinite x = true) (hv : value x = mag x)
include hx hv

theorem fadd_one_eq_pack : fadd one x = pack false (roundBits (unit + mag x) 1) := by
  have hsum : value one + value x = ((unit + mag x : Nat) : Int) := by
    rw [hv, value_of_sign (by decide), mag_one, Nat.cast_add]
  have hpos : 0 < unit := by decide
  rw [fadd_finite (by decide) hx, hsum, roundInt, if_neg (by omega), decide_eq_false (by omega), Int.natAbs_natCast]

theorem absBits_fadd_one : absBits (fadd one x) = roundBits (unit + mag x) 1 := by
  rw [fadd_one_eq_pack hx hv, absBits_pack_round]

theorem mag_fadd_one : mag (fadd one x) = magOfBits (roundBits (unit + mag x) 1) :=
  congrArg magOfBits (absBits_fadd_one hx hv)

theorem signBit_fadd_one : signBit (fadd one x) = false := by
  rw [fadd_one_eq_pack hx hv, signBit_pack_round]

theorem isFinite_fadd_one : isFinite (fadd one x) = true := by
  rw [fadd_one_eq_pack hx hv]
  exact isFinite_pack (roundBits_unit_add_lt_infBits (absBits_lt_infBits hx))

theorem isZero_fadd_one : isZero (fadd one x) = false := by
  have hle : oneBits ≤ absBits (fadd one x) := by
    rw [absBits_fadd_one hx hv]
    exact le_roundBits (by decide) one_pos (by rw [show magOfBits oneBits = unit from mag_one]; omega)
  simp only [oneBits] at hle
  simp only [isZero, decide_eq_false_iff_not]
  omega

/-- Rounding is monotone: the sum is at least its summand. -/
theorem mag_le_mag_fadd_one : mag x ≤ mag (fadd one x) := by
  refine mag_le_iff.mpr ?_
  rw [absBits_fadd_one hx hv]
  exact le_roundBits (absBits_lt_infBits hx).le one_pos (by rw [mag]; omega)

/-- Below 4 the sum loses at most `2^-23` to the rounding, half a unit in the last place. -/
theorem unit_add_mag_le_mag_fadd_one (h4 : unit + mag x < 2 ^ 151) :
    2 * (unit + mag x) ≤ 2 * mag (fadd one x) + 2 ^ 127 := by
  have herr := (roundBits_error one_pos (roundBits_unit_add_lt_infBits (absBits_lt_infBits hx))).2
  have hexcess : excess (unit + mag x) 1 ≤ 127 := excess_le_of_lt one_pos (by omega)
  have hpow : 2 ^ excess (unit + mag x) 1 ≤ 2 ^ 127 := Nat.pow_le_pow_right two_pos hexcess
  rw [← mag, ← mag_fadd_one hx hv] at herr
  omega

/-- A quotient by the sum keeps the sign of its dividend. -/
theorem signBit_fdiv_fadd_one {v : F32} (hfin : isFinite v = true) :
    signBit (fdiv v (fadd one x)) = signBit v := by
  rw [fdiv_finite hfin (isFinite_fadd_one hx hv) (isZero_fadd_one hx hv), signBit_pack_round, signBit_fadd_one hx hv,
    Bool.bne_false]

end

/-! ### The symmetric saturator (R110) -/

/-- The summand of `softClip`'s denominator is its own magnitude. -/
theorem value_fabs (v : F32) : value (fabs v) = mag (fabs v) := value_of_sign (signBit_fabs v)

theorem mag_fabs (v : F32) : mag (fabs v) = mag v := by rw [mag, absBits_fabs, mag]

section
variable {v : F32} (h : isFinite v = true)
include h

theorem softClip_eq_pack :
    softClip v = pack (signBit v) (roundBits (mag v * unit) (mag (fadd one (fabs v)))) := by
  have hfin : isFinite (fabs v) = true := (isFinite_fabs v).trans h
  rw [softClip, fdiv_finite h (isFinite_fadd_one hfin (value_fabs v)) (isZero_fadd_one hfin (value_fabs v)),
    signBit_fadd_one hfin (value_fabs v), Bool.bne_false]

theorem signBit_softClip : signBit (softClip v) = signBit v := by
  rw [softClip_eq_pack h, signBit_pack_round]

theorem absBits_softClip_le : absBits (softClip v) ≤ absBits one := by
  have hfin : isFinite (fabs v) = true := (isFinite_fabs v).trans h
  have hden := mag_le_mag_fadd_one hfin (value_fabs v)
  refine fdiv_absBits_le h (isFinite_fadd_one hfin (value_fabs v)) (isZero_fadd_one hfin (value_fabs v)) (by decide) ?_
  rw [mag_fabs] at hden
  rw [mag_one, mul_comm unit]
  exact Nat.mul_le_mul_right _ hden

end

theorem softClip_isZero {v : F32} (h : isZero v = true) : softClip v = v := by
  have h0 : absBits v = 0 := by simpa [isZero] using h
  have hfin := isFinite_of_isZero h
  refine eq_of_fields (signBit_softClip hfin) ?_
  have habs : isFinite (fabs v) = true := (isFinite_fabs v).trans hfin
  rw [softClip_eq_pack hfin, absBits_pack_round, mag, h0, magOfBits_zero, zero_mul,
    roundBits_zero _ (mag_pos_of_not_isZero (isZero_fadd_one habs (value_fabs v)))]

/-! ### Saturation -/

/-- From `2^25` on neighbouring magnitudes are at least 4 apart. -/
theorem magOfBits_add_le_succ {b : Nat} (h : 0x4C000000 ≤ b) : magOfBits b + 4 * unit ≤ magOfBits (b + 1) := by
  rcases bits_split b with hsmall | ⟨e, m, rfl, h1, h2⟩
  · omega
  · have hcarry : m + 1 ≤ 2 ^ 24 := h2
    rw [add_assoc, magOfBits_scaled h1 h2.le, magOfBits_scaled (by omega) hcarry, Nat.succ_mul m]
    have hpow : 2 ^ 151 ≤ 2 ^ e := Nat.pow_le_pow_right two_pos (by omega)
    rw [unit]
    omega

/-- From `2^25` on one is less than half a unit in the last place, and is lost in the sum. -/
theorem roundBits_unit_add {b : Nat} (hlt : b < infBits) (h : 0x4C000000 ≤ b) :
    roundBits (unit + magOfBits b) 1 = b := by
  have hnear := (distance_roundBits_le (c := b) one_pos (roundBits_unit_add_lt_infBits hlt)).1
  have hle : b ≤ roundBits (unit + magOfBits b) 1 := le_roundBits hlt.le one_pos (by omega)
  by_contra hne
  have hnext : magOfBits (b + 1) ≤ magOfBits (roundBits (unit + magOfBits b) 1) := magOfBits_le_iff.mpr (by omega)
  have hgap := magOfBits_add_le_succ h
  have hpos : 0 < unit := by decide
  simp only [distance, Nat.cast_one, mul_one] at hnear
  omega

theorem absBits_softClip_of_le {v : F32} (h : isFinite v = true) (hbig : 0x4C000000 ≤ absBits v) :
    absBits (softClip v) = oneBits := by
  have hfin : isFinite (fabs v) = true := (isFinite_fabs v).trans h
  have hden : mag (fadd one (fabs v)) = mag v := by
    rw [mag_fadd_one hfin (value_fabs v), mag_fabs, mag, roundBits_unit_add (absBits_lt_infBits h) hbig]
  have hpos : 0 < mag v := mag_pos_of_not_isZero (by simp only [isZero, decide_eq_false_iff_not]; omega)
  rw [softClip_eq_pack h, absBits_pack_round, hden, mul_comm, ← mag_one]
  exact roundBits_exact (by decide) hpos

/-- Settles O42: the denominator is at least `|v|` because rounding is monotone, and equal to it from `2^25` on. -/
theorem softClipRange : Obligations.SoftClipRange := by
  refine ⟨fun v h => softClip_isZero h, fun v h => ?_,
    fun v h => ⟨absBits_softClip_le h, signBit_softClip h⟩, fun v h => absBits_softClip_of_le h,
    by decide +kernel⟩
  exact isNaN_softClip_of_not_isFinite (isFinite_eq_false_iff.mpr h.symm)

/-- Refutes O56: at `0x4B800001`, which is `2^24 + 2`, the sum with one is a tie that rounds up. -/
theorem not_softClipSaturatesFromTwoPow24 : ¬ Obligations.SoftClipSaturatesFromTwoPow24 := by
  intro h
  have hone : absBits (softClip 0x4B800001#32) = 0x3F800000 := h _ (by decide) (by decide)
  exact absurd hone (by decide +kernel)

/-! ### The asymmetric saturator (R111) -/

/-- The ordered comparison with zero holds of the clear sign and of both zeros. -/
theorem clipsPositive_iff {v : F32} (h : isNaN v = false) :
    clipsPositive v = true ↔ signBit v = false ∨ isZero v = true := by
  obtain ⟨_, hge, _⟩ := compare_iff_ordKey h (show isNaN posZero = false by decide)
  rw [clipsPositive, hge, show ordKey posZero = 0 by decide, ordKey, isZero, decide_eq_true_eq]
  cases signBit v <;> simp

theorem asymClip_of_clipsPositive {v : F32} (h : clipsPositive v = true) : asymClip v = fdiv v (fadd one v) :=
  if_pos h

theorem asymClip_of_not_clipsPositive {v : F32} (h : clipsPositive v = false) :
    asymClip v = fdiv v (fadd one (fmul K_NEG (fabs v))) := if_neg (by simp [h])

theorem asymClip_first {v : F32} (hn : isNaN v = false) (h : signBit v = false ∨ isZero v = true) :
    asymClip v = fdiv v (fadd one v) := asymClip_of_clipsPositive ((clipsPositive_iff hn).mpr h)

/-- A NaN is not ordered, and a negative value is below zero. -/
theorem asymClip_second {v : F32} (h : isNaN v = true ∨ (signBit v = true ∧ isZero v = false)) :
    asymClip v = fdiv v (fadd one (fmul K_NEG (fabs v))) := by
  refine asymClip_of_not_clipsPositive ?_
  cases hn : isNaN v with
  | true =>
    obtain ⟨_, hge, _⟩ := compare_isNaN (b := posZero) (.inl hn)
    exact hge
  | false =>
    obtain ⟨hs, hz⟩ := h.resolve_left (by simp [hn])
    rw [← Bool.not_eq_true, clipsPositive_iff hn]
    simp [hs, hz]

/-- An infinity is divided by an infinity in either branch. -/
theorem isNaN_asymClip_of_isInf {v : F32} (h : isInf v = true) : isNaN (asymClip v) = true := by
  have hsum {a : F32} (ha : isInf a = true) : isInf (fadd one a) = true := by
    obtain ⟨_, heq, _⟩ := sum_isInf_isFinite ha (show isFinite one = true by decide)
    rwa [heq]
  cases hc : clipsPositive v with
  | true =>
    rw [asymClip_of_clipsPositive hc]
    exact isNaN_fdiv_invalid (.inl ⟨h, hsum h⟩)
  | false =>
    have habs : isInf (fabs v) = true := by simpa [isInf, absBits_fabs] using h
    have hprod : isInf (fmul K_NEG (fabs v)) = true := by
      rw [fmul_isInf (by decide) (isNaN_of_isInf habs) (.inr habs) (by decide) (isZero_of_isInf habs)]
      exact isInf_pack_infBits _
    rw [asymClip_of_not_clipsPositive hc]
    exact isNaN_fdiv_invalid (.inl ⟨h, hsum hprod⟩)

/-- Settles O43: the branch is the ordered comparison with zero, and an infinity meets an infinite denominator. -/
theorem asymmetricClipBranches : Obligations.AsymmetricClipBranches := by
  refine ⟨fun v => asymClip_first, fun v => asymClip_second, by decide +kernel, fun v h => ?_, by decide +kernel⟩
  exact h.elim isNaN_asymClip isNaN_asymClip_of_isInf

/-! ### The enclosure (R113)

An operand of magnitude at most `G_ASYM` has a denominator below 4, which the at most two roundings before it lower by
less than `2^-22`. -/

theorem mag_K_NEG : mag K_NEG = 2 ^ 148 := by decide +kernel

theorem mag_G_ASYM : mag G_ASYM = 11744051 * 2 ^ 126 := by decide +kernel

/-- `0x3F1559B3` is the largest binary32 value below 0.5834. -/
def positiveBound : F32 := 0x3F1559B3#32

/-- `0x3F52D773` is the largest binary32 value below 0.8236. -/
def negativeBound : F32 := 0x3F52D773#32

theorem mag_positiveBound : mag positiveBound = 9787827 * 2 ^ 125 := by decide +kernel

theorem mag_negativeBound : mag negativeBound = 13817715 * 2 ^ 125 := by decide +kernel

theorem mag_le_of_absBits_le_G_ASYM {v : F32} (h : absBits v ≤ absBits G_ASYM) : mag v ≤ 11744051 * 2 ^ 126 :=
  (mag_le_iff.mpr h).trans_eq mag_G_ASYM

section
variable {v : F32} (h : isFinite v = true) (hle : absBits v ≤ absBits G_ASYM)
include h hle

/-- Halving is exact but for a subnormal result, which is off by at most half of `2^-149`; the bound here is coarser. -/
theorem mag_fmul_K_NEG_fabs :
    mag v ≤ 2 * mag (fmul K_NEG (fabs v)) + 2 ^ 125 ∧ mag (fmul K_NEG (fabs v)) ≤ mag v ∧
      isFinite (fmul K_NEG (fabs v)) = true := by
  have hm := mag_le_of_absBits_le_G_ASYM hle
  have hfin : isFinite (fabs v) = true := (isFinite_fabs v).trans h
  have hup : absBits (fmul K_NEG (fabs v)) ≤ absBits v := by
    refine fmul_absBits_le (by decide) hfin h ?_
    rw [mag_fabs, mag_K_NEG, unit]
    omega
  have hbits : absBits (fmul K_NEG (fabs v)) = roundBits (2 ^ 148 * mag v) unit := by
    rw [fmul_finite (by decide) hfin, absBits_pack_round, mag_fabs, mag_K_NEG]
  refine ⟨?_, mag_le_iff.mpr hup, isFinite_of_absBits_le h hup⟩
  have herr := (roundBits_error (n := 2 ^ 148 * mag v) (d := unit) (by decide)
    (hbits ▸ hup.trans_lt (absBits_lt_infBits h))).2
  rw [← hbits, ← mag] at herr
  have hexcess : excess (2 ^ 148 * mag v) unit ≤ 125 := excess_le_of_lt (by decide) (by rw [unit]; omega)
  have hpow : 2 ^ excess (2 ^ 148 * mag v) unit ≤ 2 ^ 125 := Nat.pow_le_pow_right two_pos hexcess
  rw [unit] at *
  omega

/-- The first branch: at most `1.4 / 2.4`, roundings apart. -/
theorem absBits_fdiv_first_le (hv : value v = mag v) : absBits (fdiv v (fadd one v)) ≤ absBits positiveBound := by
  have hm := mag_le_of_absBits_le_G_ASYM hle
  have hden := unit_add_mag_le_mag_fadd_one h hv (by rw [unit]; omega)
  refine fdiv_absBits_le h (isFinite_fadd_one h hv) (isZero_fadd_one h hv) (by decide) ?_
  rw [mag_positiveBound]
  rw [unit] at *
  omega

/-- The second branch: at most `1.4 / 1.7`, roundings apart, with the sign of the operand. -/
theorem fdiv_second_bounds :
    absBits (fdiv v (fadd one (fmul K_NEG (fabs v)))) ≤ absBits negativeBound ∧
      signBit (fdiv v (fadd one (fmul K_NEG (fabs v)))) = signBit v := by
  have hm := mag_le_of_absBits_le_G_ASYM hle
  obtain ⟨hlow, hhigh, hfin⟩ := mag_fmul_K_NEG_fabs h hle
  have hv : value (fmul K_NEG (fabs v)) = mag (fmul K_NEG (fabs v)) := by
    refine value_of_sign ?_
    rw [fmul_finite (by decide) ((isFinite_fabs v).trans h), signBit_pack_round, signBit_fabs]
    decide
  have hden := unit_add_mag_le_mag_fadd_one hfin hv (by rw [unit]; omega)
  refine ⟨fdiv_absBits_le h (isFinite_fadd_one hfin hv) (isZero_fadd_one hfin hv) (by decide) ?_,
    signBit_fdiv_fadd_one hfin hv h⟩
  rw [mag_negativeBound]
  rw [unit] at *
  omega

/-- The image of `[-G_ASYM, G_ASYM]`. -/
theorem asymClip_enclosure :
    isFinite (asymClip v) = true ∧
      -(mag negativeBound : Int) ≤ value (asymClip v) ∧ value (asymClip v) ≤ mag positiveBound := by
  have hn := isNaN_of_isFinite h
  have habs := natAbs_value (asymClip v)
  cases hc : clipsPositive v with
  | true =>
    have hb : absBits (asymClip v) ≤ absBits positiveBound := by
      rw [asymClip_of_clipsPositive hc]
      exact absBits_fdiv_first_le h hle (value_eq_mag ((clipsPositive_iff hn).mp hc))
    have hm := mag_le_iff.mpr hb
    have hpn : mag positiveBound ≤ mag negativeBound := mag_le_iff.mpr (by decide)
    exact ⟨isFinite_of_absBits_le (by decide) hb, by omega, by omega⟩
  | false =>
    obtain ⟨hb, hs⟩ := fdiv_second_bounds h hle
    rw [← asymClip_of_not_clipsPositive hc] at hb hs
    have hneg : signBit v = true := by
      by_contra hsign
      exact absurd ((clipsPositive_iff hn).mpr (.inl (by simpa using hsign))) (by simp [hc])
    have hval := value_of_sign_neg (hs.trans hneg)
    have hm := mag_le_iff.mpr hb
    exact ⟨isFinite_of_absBits_le (by decide) hb, by omega, by omega⟩

end

/-- A value in `[-1, 1]` times `G_ASYM` is in `[-G_ASYM, G_ASYM]`. -/
theorem absBits_fmul_G_ASYM_le {y : F32} (h : absBits y ≤ absBits one) :
    absBits (fmul y G_ASYM) ≤ absBits G_ASYM := by
  refine fmul_absBits_le (isFinite_of_absBits_le (by decide) h) (by decide) (by decide) ?_
  rw [mul_comm (mag G_ASYM), ← mag_one]
  exact Nat.mul_le_mul_right _ (mag_le_iff.mpr h)

theorem shape_enclosure {lp : F32} (h : isFinite (fmul lp G_SOFT) = true) :
    isFinite (shape lp) = true ∧
      -(mag negativeBound : Int) ≤ value (shape lp) ∧ value (shape lp) ≤ mag positiveBound := by
  have hgain := absBits_fmul_G_ASYM_le (absBits_softClip_le h)
  exact asymClip_enclosure (isFinite_of_absBits_le (by decide) hgain) hgain

/-- Settles O44: each stage maps the interval of the one before it into its own. -/
theorem waveshaperEnclosure : Obligations.WaveshaperEnclosure := by
  refine ⟨fun lp h => ?_, fun lp h => isNaN_shape_of_not_isFinite h, by decide +kernel, by decide +kernel⟩
  have hsoft := absBits_softClip_le h
  obtain ⟨hfin, hlow, hhigh⟩ := shape_enclosure h
  rw [mag_negativeBound] at hlow
  rw [mag_positiveBound] at hhigh
  exact ⟨hsoft, absBits_fmul_G_ASYM_le hsoft, hfin, by omega, by omega⟩

end Sys2Proof.Machine
end

section
/-! Bounds and exact results through the operations: a product and a sum are monotone in their operands, and an exact
result of at most 24 significant bits is not rounded (00_scope.md R12). -/

namespace Sys2Proof.Machine

/-! ### Magnitudes -/

/-- Greater magnitudes have the greater product. -/
theorem absBits_fmul_mono {a b c d : F32} (hc : isFinite c = true) (hd : isFinite d = true)
    (hac : absBits a ≤ absBits c) (hbd : absBits b ≤ absBits d) : absBits (fmul a b) ≤ absBits (fmul c d) := by
  rw [fmul_finite (isFinite_of_absBits_le hc hac) (isFinite_of_absBits_le hd hbd), fmul_finite hc hd,
    absBits_pack_round, absBits_pack_round]
  exact roundBits_mono (by decide) (by decide)
    (Nat.mul_le_mul_right _ (Nat.mul_le_mul (mag_le_iff.mpr hac) (mag_le_iff.mpr hbd)))

/-- A factor within `[-1, 1]` does not raise the magnitude. -/
theorem absBits_fmul_le_right {a b : F32} (hb : isFinite b = true) (ha : absBits a ≤ absBits one) :
    absBits (fmul a b) ≤ absBits b :=
  (absBits_fmul_mono (by decide) hb ha le_rfl).trans_eq (congrArg absBits (fmul_one hb).1)

/-- The sum of two operands is at most, in magnitude, the sum of two clear-signed bounds of theirs. -/
theorem absBits_fadd_le {a b c d : F32} (hc : isFinite c = true) (hd : isFinite d = true) (sc : signBit c = false)
    (sd : signBit d = false) (hac : absBits a ≤ absBits c) (hbd : absBits b ≤ absBits d) :
    absBits (fadd a b) ≤ absBits (fadd c d) := by
  rw [fadd_finite (isFinite_of_absBits_le hc hac) (isFinite_of_absBits_le hd hbd), fadd_finite hc hd, roundInt,
    roundInt, absBits_pack_round, absBits_pack_round]
  refine roundBits_mono one_pos one_pos (Nat.mul_le_mul_right _ ?_)
  have hmac := mag_le_iff.mpr hac
  have hmbd := mag_le_iff.mpr hbd
  have habs := Int.natAbs_add_le (value a) (value b)
  rw [natAbs_value, natAbs_value] at habs
  rw [value_of_sign sc, value_of_sign sd]
  omega

/-! ### Intervals -/

theorem value_roundInt_of_nonneg {zeroNeg : Bool} {v : Int} (h : 0 ≤ v) :
    value (roundInt zeroNeg v) = magOfBits (roundBits v.natAbs 1) := by
  rw [roundInt, value_pack _ (roundBits_lt _ _)]
  rcases h.eq_or_lt with rfl | hpos
  · simp
  · simp [hpos.ne', h]

theorem value_roundInt_of_nonpos {zeroNeg : Bool} {v : Int} (h : v ≤ 0) :
    value (roundInt zeroNeg v) = -(magOfBits (roundBits v.natAbs 1) : Int) := by
  rw [roundInt, value_pack _ (roundBits_lt _ _)]
  rcases h.eq_or_lt with rfl | hneg
  · simp
  · simp [hneg.ne, hneg]

/-- Rounding an exact sum is monotone, beyond the largest finite value too. -/
theorem value_roundInt_mono {y z : Bool} {v w : Int} (h : v ≤ w) :
    value (roundInt y v) ≤ value (roundInt z w) := by
  have hmag {m n : Nat} (hmn : m ≤ n) : magOfBits (roundBits m 1) ≤ magOfBits (roundBits n 1) :=
    magOfBits_le_iff.mpr (roundBits_mono one_pos one_pos (by omega))
  rcases le_total 0 v with hv | hv
  · have := hmag (show v.natAbs ≤ w.natAbs by omega)
    rw [value_roundInt_of_nonneg hv, value_roundInt_of_nonneg (hv.trans h)]
    omega
  · rcases le_total 0 w with hw | hw
    · rw [value_roundInt_of_nonpos hv, value_roundInt_of_nonneg hw]
      omega
    · have := hmag (show w.natAbs ≤ v.natAbs by omega)
      rw [value_roundInt_of_nonpos hv, value_roundInt_of_nonpos hw]
      omega

/-- The value lies in the interval of two finite values. -/
structure Within (l h a : F32) : Prop where
  finite_low : isFinite l = true
  finite_high : isFinite h = true
  low_le : value l ≤ value a
  le_high : value a ≤ value h

/-- It is finite itself: its magnitude is at most that of one of the bounds. -/
theorem Within.isFinite {l h a : F32} (w : Within l h a) : isFinite a = true := by
  obtain ⟨hl, hh, hla, hah⟩ := w
  have ma := natAbs_value a
  have ml := natAbs_value l
  have mh := natAbs_value h
  rcases le_total 0 (value a) with h0 | h0
  · exact isFinite_of_absBits_le hh (mag_le_iff.mp (by omega))
  · exact isFinite_of_absBits_le hl (mag_le_iff.mp (by omega))

theorem Within.of_absBits_le {a c : F32} (hc : Machine.isFinite c = true) (sc : signBit c = false)
    (h : absBits a ≤ absBits c) : Within (fneg c) c a := by
  have hmag := mag_le_iff.mpr h
  have ma := natAbs_value a
  have vc := value_of_sign sc
  have vn := value_fneg c
  exact ⟨(isFinite_fneg c).trans hc, hc, by omega, by omega⟩

/-- Intervals add, each bound rounded as the sum is. -/
theorem Within.fadd {l h a l' h' b : F32} (wa : Within l h a) (wb : Within l' h' b)
    (hl : Machine.isFinite (Machine.fadd l l') = true) (hh : Machine.isFinite (Machine.fadd h h') = true) :
    Within (Machine.fadd l l') (Machine.fadd h h') (Machine.fadd a b) := by
  refine ⟨hl, hh, ?_, ?_⟩
  · rw [fadd_finite wa.finite_low wb.finite_low, fadd_finite wa.isFinite wb.isFinite]
    exact value_roundInt_mono (add_le_add wa.low_le wb.low_le)
  · rw [fadd_finite wa.isFinite wb.isFinite, fadd_finite wa.finite_high wb.finite_high]
    exact value_roundInt_mono (add_le_add wa.le_high wb.le_high)

/-! ### Results that need no rounding -/

/-- A magnitude of 24 significant bits in the range of the finite values is given exactly. -/
theorem pack_roundBits_exact (neg : Bool) {n d k e : Nat} (hk : k ≤ 2 ^ 24) (he : e ≤ 252) (hd : 0 < d)
    (hn : n = k * 2 ^ e * d) :
    isFinite (pack neg (roundBits n d)) = true ∧ mag (pack neg (roundBits n d)) = k * 2 ^ e := by
  obtain ⟨b, hb⟩ := exists_magOfBits_scaled e hk
  have hlt : b < infBits := by
    refine magOfBits_strictMono.lt_iff_lt.mp ?_
    calc magOfBits b = k * 2 ^ e := hb
      _ ≤ 2 ^ 24 * 2 ^ 252 := Nat.mul_le_mul hk (Nat.pow_le_pow_right two_pos he)
      _ < magOfBits infBits := by decide +kernel
  have hbits : roundBits n d = b := by rw [hn, ← hb, roundBits_exact hlt.le hd]
  rw [hbits, mag, absBits_pack neg (hlt.trans (by decide))]
  exact ⟨isFinite_pack hlt, hb⟩

end Sys2Proof.Machine
end

section
/-! Stage 4, the artifacts (44_artifacts.md R120 to R129): the rumble, the generator and its draws, the crackle trigger,
the decay of the envelope, and the ranges of the terms and of their sum. -/

namespace Sys2Proof.Machine
open Sys2Proof.Safety

/-! ### The rumble (R120) -/

/-- The first oscillator's argument is the smaller one: it does not overflow where the second does not. -/
theorem absBits_rumble_le {t : F32} (h : isFinite (fmul W_R2 t) = true) :
    absBits (rumble t) ≤ absBits (fadd A_R1 A_R2) := by
  have h1 : isFinite (fmul W_R1 t) = true := isFinite_fmul_of_mag_le (by decide) (by decide) (by decide +kernel) h
  exact absBits_fadd_le (by decide) (by decide) (by decide) (by decide) (absBits_fmul_sinF_le h1 (by decide))
    (absBits_fmul_sinF_le h (by decide))

theorem isNaN_rumble {t : F32} (h : isFinite t = false) : isNaN (rumble t) = true :=
  isNaN_fadd _ _ (by simp [isNaN_fmul_sinF A_R1 (isFinite_fmul_of_not_right (a := W_R1) h)])

/-- Settles O45: the sum of two oscillators is at most the sum of their amplitudes. -/
theorem rumbleBound : Obligations.RumbleBound :=
  ⟨fun _ h => ⟨isFinite_of_absBits_le (by decide +kernel) (absBits_rumble_le h), absBits_rumble_le h⟩,
    by decide +kernel, fun _ => isNaN_rumble⟩

/-! ### The generator (R122) -/

/-- Settles O46: the step on 32-bit words is the step on numbers, modulo `2^32`. -/
theorem generatorStep : Obligations.GeneratorStep := by
  refine ⟨fun g => ?_, by decide +kernel⟩
  rw [lcgNext, BitVec.toNat_add, BitVec.toNat_mul, Nat.add_mod_mod, add_comm, mul_comm]
  rfl

/-! ### The draw (R123) -/

theorem drawIndex_lt (g : Word32) : g.toNat / 2 ^ 9 < 2 ^ 23 := by
  have := g.isLt
  omega

/-- Until one is subtracted nothing of a draw is rounded: the conversion, the division and the doubling keep the 23 bits
of `k`. -/
theorem scaledIndex_exact {k : Nat} (hk : k < 2 ^ 23) :
    isFinite (fmul (fdiv (u2f k) twoPow23) two) = true ∧ signBit (fmul (fdiv (u2f k) twoPow23) two) = false ∧
      mag (fmul (fdiv (u2f k) twoPow23) two) = k * 2 ^ 127 := by
  have mdivisor : mag twoPow23 = 2 ^ 172 := by decide +kernel
  have mtwo : mag two = 2 ^ 150 := by decide +kernel
  have hk24 : k ≤ 2 ^ 24 := by omega
  obtain ⟨fconv, mconv⟩ : isFinite (u2f k) = true ∧ mag (u2f k) = k * 2 ^ 149 :=
    pack_roundBits_exact false hk24 (by decide) one_pos (by rw [unit, mul_one])
  have hdiv := fdiv_finite fconv (show isFinite twoPow23 = true by decide) (by decide)
  obtain ⟨fquot, mdiv⟩ : isFinite (fdiv (u2f k) twoPow23) = true ∧ mag (fdiv (u2f k) twoPow23) = k * 2 ^ 126 := by
    rw [hdiv]
    exact pack_roundBits_exact _ hk24 (by decide) (by rw [mdivisor]; decide) (by rw [mconv, mdivisor, unit]; ring)
  have hmul := fmul_finite fquot (show isFinite two = true by decide)
  obtain ⟨fprod, mmul⟩ : isFinite (fmul (fdiv (u2f k) twoPow23) two) = true ∧
      mag (fmul (fdiv (u2f k) twoPow23) two) = k * 2 ^ 127 := by
    rw [hmul]
    exact pack_roundBits_exact _ hk24 (by decide) (by decide) (by rw [mdiv, mtwo, unit]; ring)
  refine ⟨fprod, ?_, mmul⟩
  rw [hmul, signBit_pack_round, hdiv, signBit_pack_round, u2f, signBit_pack_round]
  decide

/-- A draw is its exact value rounded once, with `+0` for zero. -/
theorem drawValue_eq_roundInt (g : Word32) :
    drawValue g = roundInt false (((g.toNat / 2 ^ 9 : Nat) - 2 ^ 22 : Int) * 2 ^ 127) := by
  obtain ⟨hfin, hsign, hmag⟩ := scaledIndex_exact (drawIndex_lt g)
  have hone : value one = 2 ^ 149 := by decide +kernel
  have hdiff : ((g.toNat / 2 ^ 9 * 2 ^ 127 : Nat) : Int) - 2 ^ 149 = ((g.toNat / 2 ^ 9 : Nat) - 2 ^ 22) * 2 ^ 127 := by
    omega
  rw [drawValue, fsub_finite hfin (by decide), hsign, Bool.false_and, value_of_sign hsign, hmag, hone, hdiff]

/-- The rounding is exact: `|k - 2^22|` has at most 23 bits. -/
theorem drawValue_exact (g : Word32) :
    isFinite (drawValue g) = true ∧
      value (drawValue g) = ((g.toNat / 2 ^ 9 : Nat) - 2 ^ 22 : Int) * 2 ^ 127 := by
  have hk := drawIndex_lt g
  rw [drawValue_eq_roundInt]
  generalize g.toNat / 2 ^ 9 = k at *
  have habs : (((k : Int) - 2 ^ 22) * 2 ^ 127).natAbs = ((k : Int) - 2 ^ 22).natAbs * 2 ^ 127 * 1 := by omega
  obtain ⟨hfin, hmag⟩ := pack_roundBits_exact (if ((k : Int) - 2 ^ 22) * 2 ^ 127 = 0 then false
    else decide (((k : Int) - 2 ^ 22) * 2 ^ 127 < 0)) (by omega) (by decide) one_pos habs
  exact ⟨hfin, value_roundInt (absBits_lt_infBits hfin).le ((habs.trans (mul_one _)).trans hmag.symm)⟩

/-- A zero draw is `+0`. -/
theorem drawValue_ne_negZero (g : Word32) : drawValue g ≠ 0x80000000#32 := by
  intro h
  obtain ⟨_, hval⟩ := drawValue_exact g
  have hsign : signBit (drawValue g) = true := by rw [h]; decide
  have hzero : value (drawValue g) = 0 := by rw [h]; decide
  rw [drawValue_eq_roundInt, signBit_roundInt, ← hval, hzero] at hsign
  simp at hsign

/-- Settles O47: the value is exact, and at most `2^22` units of `2^-22` in magnitude. -/
theorem drawIsExact : Obligations.DrawIsExact := by
  refine ⟨fun g => ?_, fun g h => ?_, fun g h => ?_, fun g h => ?_, by decide +kernel, by decide +kernel⟩
  · obtain ⟨hfin, hval⟩ := drawValue_exact g
    have hk := drawIndex_lt g
    refine ⟨hfin, drawValue_ne_negZero g, ?_, ?_, ?_⟩ <;> rw [hval] <;> omega
  all_goals
    rw [drawValue_eq_roundInt, h]
    decide +kernel

/-- A draw lies within `[-1, 1]`. -/
theorem absBits_drawValue_le (g : Word32) : absBits (drawValue g) ≤ absBits one := by
  obtain ⟨_, hval⟩ := drawValue_exact g
  have hk := drawIndex_lt g
  have hmag := natAbs_value (drawValue g)
  refine mag_le_iff.mp ?_
  rw [mag_one, unit]
  omega

/-! ### The crackle trigger (R126) -/

theorem triggersCrackle_iff (g : Word32) : triggersCrackle (drawValue g) = true ↔ 8367637 ≤ g.toNat / 2 ^ 9 := by
  obtain ⟨hfin, hval⟩ := drawValue_exact g
  obtain ⟨hgt, _⟩ := compare_iff_ordKey (isNaN_of_isFinite hfin) (show isNaN T_CRK = false by decide)
  have hT : value T_CRK = 16693330 * 2 ^ 125 := by decide +kernel
  rw [triggersCrackle, hgt, ← value_lt_iff_ordKey, hT, hval]
  omega

/-- The same test on all 32 bits: the nine bits that the draw drops do not matter. -/
theorem triggersCrackle_iff_toNat (g : Word32) : triggersCrackle (drawValue g) = true ↔ 0xFF5C2A00 ≤ g.toNat := by
  rw [triggersCrackle_iff]
  omega

/-- Settles O48: the threshold lies between two neighbouring draws. -/
theorem triggerIsAnIntegerTest : Obligations.TriggerIsAnIntegerTest :=
  ⟨fun g => ⟨triggersCrackle_iff_toNat g, triggersCrackle_iff g⟩,
    fun g _ => if_congr (triggersCrackle_iff_toNat g) rfl rfl, by decide⟩

/-! ### The decay of the envelope (R127) -/

/-- The decay on the bits of an envelope with a clear sign. -/
def decayBits (b : Nat) : Nat := roundBits (magOfBits b * mag D_CRK) unit

theorem toNat_decayedEnv {e : F32} (h : e.toNat < infBits) : (decayedEnv e).toNat = decayBits e.toNat := by
  obtain ⟨hfin, hsign, habs⟩ := fields_of_toNat_lt_infBits h
  have hD : signBit D_CRK = false := by decide
  rw [decayedEnv, fmul_finite hfin (by decide), hsign, hD, toNat_pack _ (roundBits_lt _ _), mag, habs, decayBits]
  simp

theorem decayBits_le {b : Nat} (h : b ≤ infBits) : decayBits b ≤ b :=
  roundBits_le h (by decide) (Nat.mul_le_mul_left _ (by decide +kernel))

/-- A decay never raises the envelope, and from at most 1.0 it leaves at most `D_CRK`. -/
theorem toNat_decayedEnv_le {e : F32} (h : e.toNat ≤ oneBits) :
    (decayedEnv e).toNat ≤ e.toNat ∧ (decayedEnv e).toNat ≤ absBits D_CRK := by
  have hinf : oneBits < infBits := by decide
  rw [toNat_decayedEnv (by omega)]
  refine ⟨decayBits_le (by omega), roundBits_le (by decide) (by decide) ?_⟩
  rw [← mag, mul_comm, ← mag_one]
  exact Nat.mul_le_mul_left _ (magOfBits_le_iff.mpr h)

/-- `n` applications of `f`. The match on the number makes the kernel compute each application before the next one. -/
def strictIterate (f : Nat → Nat) : Nat → Nat → Nat
  | 0, b => b
  | n + 1, 0 => strictIterate f n (f 0)
  | n + 1, b + 1 => strictIterate f n (f (b + 1))

theorem strictIterate_eq_iterate (f : Nat → Nat) (n b : Nat) : strictIterate f n b = f^[n] b := by
  induction n generalizing b with
  | zero => rw [strictIterate, Function.iterate_zero_apply]
  | succ n ih => cases b <;> rw [strictIterate, ih, Function.iterate_succ_apply]

theorem toNat_decayedEnv_iterate {e : F32} (n : Nat) (h : e.toNat ≤ oneBits) :
    (decayedEnv^[n] e).toNat = decayBits^[n] e.toNat := by
  have hinf : oneBits < infBits := by decide
  induction n generalizing e with
  | zero => rfl
  | succ n ih =>
    rw [Function.iterate_succ_apply, ih ((toNat_decayedEnv_le h).1.trans h), toNat_decayedEnv (by omega),
      ← Function.iterate_succ_apply]

/-- `n` decays, computed on the bits. -/
theorem decayedEnv_iterate_eq {e f : F32} {n : Nat} (h : e.toNat ≤ oneBits)
    (hrun : strictIterate decayBits n e.toNat = f.toNat) : decayedEnv^[n] e = f := by
  refine BitVec.eq_of_toNat_eq ?_
  rw [toNat_decayedEnv_iterate n h, ← strictIterate_eq_iterate, hrun]

/-- The last decay that leaves a normal envelope, and the first that leaves a subnormal one. -/
theorem decayedEnv_iterate_1411 : decayedEnv^[1411] one = 0x0083F197#32 :=
  decayedEnv_iterate_eq (by decide) (by decide +kernel)

theorem decayedEnv_iterate_1412 : decayedEnv^[1412] one = 0x007C06EF#32 := by
  rw [Function.iterate_succ_apply', decayedEnv_iterate_1411]
  decide +kernel

/-- `0x00000008` times 0.94 rounds back to itself, so the decay ends there. -/
theorem decayedEnv_iterate_residual {n : Nat} (h : 1633 ≤ n) : decayedEnv^[n] one = 0x00000008#32 := by
  have hreach : decayedEnv^[221] 0x007C06EF#32 = 0x00000008#32 :=
    decayedEnv_iterate_eq (by decide) (by decide +kernel)
  obtain ⟨m, rfl⟩ := Nat.exists_eq_add_of_le' h
  rw [Function.iterate_add_apply, Function.iterate_add_apply decayedEnv 221 1412, decayedEnv_iterate_1412, hreach]
  exact Function.iterate_fixed (by decide +kernel) m

/-! ### The crackle (R128) -/

theorem absBits_fmul_drawValue_le (g : Word32) {a : F32} (h : isFinite a = true) :
    absBits (fmul (drawValue g) a) ≤ absBits a := absBits_fmul_le_right h (absBits_drawValue_le g)

/-- A draw is at most 1.0, so the crackle is at most the envelope times `A_CRK`. -/
theorem absBits_crackleOf_le {e c : F32} (g : Word32) (hc : isFinite c = true) (h : absBits e ≤ absBits c) :
    absBits (crackleOf g e) ≤ absBits (fmul c A_CRK) :=
  absBits_fmul_mono hc (by decide) h (absBits_fmul_drawValue_le g (by decide))

/-- Settles O49: a decay is at most its operand; the envelopes are computed decay by decay, and the last one is a fixed
point. -/
theorem envelopeDecay : Obligations.EnvelopeDecay := by
  refine ⟨by decide +kernel, fun e => toNat_decayedEnv_le, by decide +kernel, by decide +kernel, by decide +kernel,
    by decide +kernel, ?_, decayedEnv_iterate_1412, fun n => decayedEnv_iterate_residual, fun g => ?_⟩
  · exact le_of_le_of_eq (by decide) (congrArg BitVec.toNat decayedEnv_iterate_1411).symm
  · exact (absBits_crackleOf_le g (by decide) le_rfl).trans (by decide +kernel)

/-- A zero envelope gives a zero with the sign of the draw. -/
theorem crackleOf_posZero (g : Word32) :
    isZero (crackleOf g posZero) = true ∧ signBit (crackleOf g posZero) = signBit (drawValue g) := by
  obtain ⟨hfin, _⟩ := drawValue_exact g
  have hprod := fmul_finite hfin (show isFinite A_CRK = true by decide)
  have hfin' := isFinite_of_absBits_le (by decide) (absBits_fmul_drawValue_le g (show isFinite A_CRK = true by decide))
  have hsign : signBit A_CRK = false := by decide
  have hzero : signBit posZero = false := by decide
  have hmag : mag posZero = 0 := by decide
  rw [crackleOf, fmul_finite (by decide) hfin', hmag, zero_mul, roundBits_zero _ (by decide), signBit_pack_zero, hzero,
    hprod, signBit_pack_round, hsign, Bool.bne_false, Bool.false_bne]
  exact ⟨isZero_pack _, rfl⟩

/-! ### The hiss (R125) -/

theorem absBits_hissOf_le (g : Word32) : absBits (hissOf g) ≤ absBits A_HISS :=
  absBits_fmul_drawValue_le g (by decide)

/-- The upper bound is not reached: the largest draw, `1 - 2^-22`, takes at least one unit in the last place off it. -/
theorem value_hissOf_lt (g : Word32) : value (hissOf g) < value A_HISS := by
  obtain ⟨hfin, hval⟩ := drawValue_exact g
  have hk := drawIndex_lt g
  have hmul : hissOf g = pack (signBit (drawValue g)) (roundBits (mag (drawValue g) * mag A_HISS) unit) := by
    rw [hissOf, fmul_finite hfin (by decide), show signBit A_HISS = false by decide, Bool.bne_false]
  have hpos : 0 < value A_HISS := by decide +kernel
  cases hs : signBit (drawValue g) with
  | true =>
    rw [value_of_sign_neg (by rw [hmul, signBit_pack_round, hs])]
    omega
  | false =>
    rw [value_of_sign hs] at hval
    have hbelow : mag (drawValue g) ≤ (2 ^ 22 - 1) * 2 ^ 127 := by omega
    have hle : absBits (hissOf g) ≤ absBits 0x3B83126E#32 := by
      rw [hissOf]
      refine fmul_absBits_le hfin (by decide) (by decide) ?_
      exact (Nat.mul_le_mul_right _ hbelow).trans (by decide +kernel)
    have hlast : (mag 0x3B83126E#32 : Int) < value A_HISS := by decide +kernel
    rw [value_of_sign (by rw [hmul, signBit_pack_round, hs])]
    exact (Int.ofNat_le.mpr (mag_le_iff.mpr hle)).trans_lt hlast

/-! ### The sum (R129) -/

theorem isNaN_combine_of_any {a b c d : F32}
    (h : isNaN a = true ∨ isNaN b = true ∨ isNaN c = true ∨ isNaN d = true) : isNaN (combine a b c d) = true := by
  have hadd {x y : F32} (hxy : isNaN x = true ∨ isNaN y = true) : isNaN (fadd x y) = true :=
    isNaN_fadd x y (by simpa using hxy)
  rcases h with h | h | h | h
  · exact isNaN_combine b c d h
  · exact hadd (.inl (hadd (.inl (hadd (.inr h)))))
  · exact hadd (.inl (hadd (.inr h)))
  · exact hadd (.inr h)

theorem within_shape {lp : F32} (h : isFinite (fmul lp G_SOFT) = true) :
    Within (fneg negativeBound) positiveBound (shape lp) := by
  obtain ⟨_, hlow, hhigh⟩ := shape_enclosure h
  have vneg := value_fneg negativeBound
  have vn := value_of_sign (show signBit negativeBound = false by decide)
  have vp := value_of_sign (show signBit positiveBound = false by decide)
  exact ⟨by decide, by decide, by omega, by omega⟩

/-- The bounds of the terms, summed as the terms are. -/
theorem within_combine {lp t e : F32} (g g' : Word32) (hlp : isFinite (fmul lp G_SOFT) = true)
    (ht : isFinite (fmul W_R2 t) = true) (he : absBits e ≤ absBits D_CRK) :
    Within (combine (fneg negativeBound) (fneg (fadd A_R1 A_R2)) (fneg A_HISS) (fneg (fmul D_CRK A_CRK)))
      (combine positiveBound (fadd A_R1 A_R2) A_HISS (fmul D_CRK A_CRK))
      (combine (shape lp) (rumble t) (hissOf g) (crackleOf g' e)) := by
  have hrum := Within.of_absBits_le (by decide +kernel) (by decide +kernel) (absBits_rumble_le ht)
  have hhiss := Within.of_absBits_le (by decide) (by decide) (absBits_hissOf_le g)
  have hcrk := Within.of_absBits_le (by decide +kernel) (by decide +kernel) (absBits_crackleOf_le g' (by decide) he)
  exact (((within_shape hlp).fadd hrum (by decide +kernel) (by decide +kernel)).fadd hhiss (by decide +kernel)
    (by decide +kernel)).fadd hcrk (by decide +kernel) (by decide +kernel)

/-- Settles O50: the bounds of the hiss and of the crackle from those of a draw, and that of the sum from its four
terms. -/
theorem hissCrackleAndSumRanges : Obligations.HissCrackleAndSumRanges := by
  have henv {e : F32} (h : e.toNat ≤ 0x3F70A3D7) : absBits e ≤ absBits D_CRK := (Nat.mod_le _ _).trans h
  refine ⟨fun g => ?_, fun g h => ?_, fun g e h => ?_, crackleOf_posZero, fun a b c d => isNaN_combine_of_any,
    fun lp t e g g' hlp ht he => ?_⟩
  · have hhiss := Within.of_absBits_le (by decide) (by decide) (absBits_hissOf_le g)
    exact ⟨hhiss.isFinite, (value_fneg A_HISS).symm.trans_le hhiss.low_le, value_hissOf_lt g⟩
  · rw [hissOf, h]
    decide +kernel
  · have hle := absBits_crackleOf_le g (by decide) (henv h)
    exact ⟨isFinite_of_absBits_le (by decide +kernel) hle, hle⟩
  · have hsum := within_combine g g' hlp ht (henv he)
    have hlow : -(9078 * 2 ^ 149) ≤ 10000 * value (combine (fneg negativeBound) (fneg (fadd A_R1 A_R2)) (fneg A_HISS)
        (fneg (fmul D_CRK A_CRK))) := by decide +kernel
    have hhigh : 10000 * value (combine positiveBound (fadd A_R1 A_R2) A_HISS (fmul D_CRK A_CRK)) ≤ 6713 * 2 ^ 149 := by
      decide +kernel
    have hlow' := hsum.low_le
    have hhigh' := hsum.le_high
    exact ⟨hsum.isFinite, by omega, by omega⟩

/-! ### Every step keeps the range of the envelope (R127) -/

/-- A trigger puts the envelope at 1.0, and no trigger leaves it. -/
theorem toNat_triggeredEnv_le (g : Word32) {e : F32} (h : e.toNat ≤ oneBits) : (triggeredEnv g e).toNat ≤ oneBits := by
  unfold triggeredEnv
  split
  · decide
  · exact h

theorem envInv_of_mode_ne {s : State} (h : s.mode ≠ .active) : envInv s := fun hm => absurd hm h

/-- The invariant does not speak of the port. -/
theorem envInv_accept {s : State} : envInv s.accept ↔ envInv s := Iff.rfl

/-- A `BEGIN` clears the envelope. -/
theorem envInv_openCall (sr : F32) (s : State) : envInv (s.openCall sr) := by
  intro _
  obtain ⟨_, _, _, henv⟩ := State.openCall_memories sr s
  rw [henv]
  decide

theorem State.processSample_env (x : F32) (s : State) :
    (s.processSample x).env = decayedEnv (triggeredEnv (lcgNext (lcgNext s.rng)) s.env) := by
  obtain ⟨biased, hp, lp, env, y, -, -, -, henv, -, hs⟩ := State.processSample_eq x s
  rw [hs, henv]

theorem envInv_processSample {s : State} (x : F32) (h : envInv s) : envInv (s.processSample x) := by
  intro hm
  have htrig := toNat_triggeredEnv_le (lcgNext (lcgNext s.rng)) (h hm)
  rw [State.processSample_env]
  exact (toNat_decayedEnv_le htrig).1.trans htrig

theorem AcceptEffect.keeps_envInv {s t : State} (h : AcceptEffect s t) (hs : envInv s) : envInv t := by
  cases h with
  | idle | held | ignored => exact hs
  | fault => exact envInv_of_mode_ne (by simp)
  | opened sr => exact envInv_accept.mpr (envInv_openCall sr s)
  | processed x => exact envInv_accept.mpr (envInv_processSample x hs)
  | closed => exact envInv_of_mode_ne (by simp)

/-- Settles O31: a `BEGIN` clears the envelope, a processed `SAMPLE` decays it or 1.0, and no other effect leaves the
block in an active call with the envelope changed. -/
theorem everyStepKeepsTheEnvelopeRange : Obligations.EveryStepKeepsTheEnvelopeRange := by
  intro s t hs hstep
  rcases step_effect hstep with ⟨ts, h⟩ | h | ⟨_, a, rfl⟩
  · exact h.keeps_envInv hs
  · rw [h.frame]
    exact hs
  · exact envInv_of_mode_ne (by simp)

end Sys2Proof.Machine
end

section
/-! Stages 5 and 6, the quantizer and the clamp (45_quantizer.md R140, R141), and the range of the words that a `SAMPLE`
emits (R142, R143). -/

namespace Sys2Proof.Machine
open Sys2Proof.Safety

/-! ### The quantizer (R140) -/

theorem mag_Q_SCALE : mag Q_SCALE = 2 ^ 158 := by decide +kernel

/-- A magnitude below 1.0 is a significand with at most 126 low zero bits. -/
theorem exists_significand_of_mag_lt_unit {a : F32} (h : mag a < unit) :
    ∃ k e, k ≤ 2 ^ 24 ∧ e ≤ 126 ∧ mag a = k * 2 ^ e := by
  have hlt : absBits a < 127 * 2 ^ 23 := magOfBits_strictMono.lt_iff_lt.mp (h.trans_eq mag_one.symm)
  rcases bits_split (absBits a) with hsmall | ⟨e, m, hbits, h1, h2⟩
  · exact ⟨absBits a, 0, by omega, by decide, by rw [mag, magOfBits_small (by omega), pow_zero, mul_one]⟩
  · exact ⟨m, e, h2.le, by omega, by rw [mag, hbits, magOfBits_scaled h1 h2.le]⟩

/-- Below 1.0 the scaling only moves the exponent. -/
theorem fmul_Q_SCALE_exact {y : F32} (hfin : isFinite y = true) (hlt : mag y < unit) :
    isFinite (fmul y Q_SCALE) = true ∧ signBit (fmul y Q_SCALE) = signBit y ∧
      mag (fmul y Q_SCALE) = 512 * mag y := by
  obtain ⟨k, e, hk, he, hmag⟩ := exists_significand_of_mag_lt_unit hlt
  have hmul : fmul y Q_SCALE = pack (signBit y) (roundBits (mag y * mag Q_SCALE) unit) := by
    rw [fmul_finite hfin (by decide), show signBit Q_SCALE = false by decide, Bool.bne_false]
  obtain ⟨hfin', hmag'⟩ := pack_roundBits_exact (signBit y) (n := mag y * mag Q_SCALE) (d := unit) (e := e + 9) hk
    (by omega) (by decide) (by rw [hmag, mag_Q_SCALE, unit]; ring)
  rw [← hmul] at hfin' hmag'
  exact ⟨hfin', by rw [hmul, signBit_pack_round], by rw [hmag', hmag]; ring⟩

/-- An integer of at most 512 is divided by 512 exactly. -/
theorem fdiv_Q_SCALE_exact {a : F32} {n : Nat} (hfin : isFinite a = true) (hmag : mag a = n * unit) (hn : n ≤ 512) :
    isFinite (fdiv a Q_SCALE) = true ∧ signBit (fdiv a Q_SCALE) = signBit a ∧
      mag (fdiv a Q_SCALE) = n * 2 ^ 140 := by
  have hdiv : fdiv a Q_SCALE = pack (signBit a) (roundBits (mag a * unit) (mag Q_SCALE)) := by
    rw [fdiv_finite hfin (by decide) (by decide), show signBit Q_SCALE = false by decide, Bool.bne_false]
  obtain ⟨hfin', hmag'⟩ := pack_roundBits_exact (signBit a) (n := mag a * unit) (d := mag Q_SCALE) (k := n) (e := 140)
    (by omega) (by decide) (by decide +kernel) (by rw [hmag, mag_Q_SCALE, unit]; ring)
  rw [← hdiv] at hfin' hmag'
  exact ⟨hfin', by rw [hdiv, signBit_pack_round], hmag'⟩

/-- Only the rounding to an integer rounds. -/
theorem quantize_exact {y : F32} (hfin : isFinite y = true) (hlt : mag y < unit) :
    isFinite (quantize y) = true ∧ signBit (quantize y) = signBit y ∧
      mag (quantize y) = roundHalfAway (512 * mag y) * 2 ^ 140 := by
  obtain ⟨hscaled, hsign, hmag⟩ := fmul_Q_SCALE_exact hfin hlt
  obtain ⟨hsign', hround, hmag'⟩ := fround_finite hscaled
  have hn : roundHalfAway (512 * mag y) ≤ 512 := by
    unfold roundHalfAway unit at *
    omega
  rw [hmag] at hmag'
  rw [← hsign, ← hsign']
  exact fdiv_Q_SCALE_exact hround hmag' hn

/-- Within half a step of zero a negative value becomes `-0`. -/
theorem quantize_eq_negZero {y : F32} (hs : signBit y = true) (h : 2 ^ 10 * mag y < 2 ^ 149)
    (hfin : isFinite y = true) : quantize y = 0x80000000#32 := by
  obtain ⟨_, hsign, hmag⟩ := quantize_exact hfin (by unfold unit; omega)
  have hzero : roundHalfAway (512 * mag y) = 0 := by
    unfold roundHalfAway unit
    omega
  rw [hzero, zero_mul, ← magOfBits_zero] at hmag
  exact eq_of_fields (hsign.trans (hs.trans (by decide))) ((magOfBits_strictMono.injective hmag).trans (by decide))

/-- Settles O51: the scaling and the division are exact, and `fround` rounds half away from zero. -/
theorem quantizerIsExact : Obligations.QuantizerIsExact := by
  refine ⟨fun y hlt hfin => ?_, fun y => isNaN_quantize, fun y => quantize_eq_negZero, by decide +kernel⟩
  obtain ⟨hfin', hsign, hmag⟩ := quantize_exact hfin hlt
  exact ⟨hfin', hsign, by rw [hmag, ← roundHalfAway_eq]; ring⟩

/-! ### The clamp (R141) -/

theorem value_one : value one = 2 ^ 149 := by decide +kernel

theorem value_negOne : value negOne = -2 ^ 149 := by decide +kernel

/-- On finite operands the two comparisons are those of the values. -/
theorem clampOut_finite {v : F32} (h : isFinite v = true) :
    clampOut v = if value v < -(2 ^ 149) then negOne else if 2 ^ 149 < value v then one else v := by
  have hn := isNaN_of_isFinite h
  obtain ⟨_, _, _, hbelow⟩ := compare_iff_ordKey hn (show isNaN negOne = false by decide)
  obtain ⟨habove, _⟩ := compare_iff_ordKey hn (show isNaN one = false by decide)
  rw [← value_lt_iff_ordKey, value_negOne] at hbelow
  rw [← value_lt_iff_ordKey, value_one] at habove
  rw [clampOut, hn, if_neg Bool.false_ne_true]
  exact if_congr hbelow rfl (if_congr habove rfl rfl)

/-- Settles O52: a NaN passes, the comparisons decide for a finite operand, and the rest are single operands. -/
theorem clampOnEveryOperand : Obligations.ClampOnEveryOperand :=
  ⟨fun _ h => ⟨if_pos h, outWord_clampOut_of_isNaN h⟩, fun _ => clampOut_finite, by decide, by decide, by decide,
    by decide⟩

/-- A finite value within `[-1, 1]` passes the clamp and is emitted as it is. -/
theorem outWord_clampOut_eq {v : F32} (h : isFinite v = true) (hlow : -2 ^ 149 ≤ value v) (hhigh : value v ≤ 2 ^ 149) :
    outWord (clampOut v) = v := by
  rw [clampOut_finite h, if_neg (not_lt.mpr hlow), if_neg (not_lt.mpr hhigh), outWord, isNaN_of_isFinite h,
    if_neg Bool.false_ne_true]

/-! ### The word of a sample (R142, R143) -/

/-- In the range of the sum (44_artifacts.md R129) the quantizer gives one of the values of R142. -/
theorem exists_isQuantum_quantize {y : F32} (hfin : isFinite y = true) (hlow : -(9078 * 2 ^ 149) ≤ 10000 * value y)
    (hhigh : 10000 * value y ≤ 6713 * 2 ^ 149) : ∃ n : Int, -465 ≤ n ∧ n ≤ 344 ∧ isQuantum (quantize y) n := by
  have habs := natAbs_value y
  obtain ⟨hfin', hsign, hmag⟩ := quantize_exact hfin (by unfold unit; omega)
  unfold roundHalfAway unit at hmag
  cases hs : signBit y with
  | true =>
    have hval := value_of_sign_neg hs
    have hval' := value_of_sign_neg (hsign.trans hs)
    exact ⟨-((512 * mag y + 2 ^ 149 / 2) / 2 ^ 149 : Nat), by omega, by omega, hfin', by omega⟩
  | false =>
    have hval := value_of_sign hs
    have hval' := value_of_sign (hsign.trans hs)
    exact ⟨((512 * mag y + 2 ^ 149 / 2) / 2 ^ 149 : Nat), by omega, by omega, hfin', by omega⟩

/-- So the clamp changes no value that the sum can reach. -/
theorem outputWord_of_bounds {y : F32} (hfin : isFinite y = true) (hlow : -(9078 * 2 ^ 149) ≤ 10000 * value y)
    (hhigh : 10000 * value y ≤ 6713 * 2 ^ 149) : outputWord (outWord (clampOut (quantize y))) := by
  obtain ⟨n, hn1, hn2, hfin', hval⟩ := exists_isQuantum_quantize hfin hlow hhigh
  rw [outWord_clampOut_eq hfin' (by omega) (by omega)]
  exact .inr ⟨n, hn1, hn2, hfin', hval⟩

theorem outputWord_of_isNaN {y : F32} (h : isNaN y = true) : outputWord (outWord (clampOut (quantize y))) :=
  .inl (outWord_clampOut_of_isNaN (isNaN_quantize h))

/-- The sum lies in R129's range, or an argument overflowed and it is a NaN. -/
theorem outputWord_combine {e : F32} (lp t : F32) (g g' : Word32) (he : e.toNat ≤ absBits D_CRK) :
    outputWord (outWord (clampOut (quantize (combine (shape lp) (rumble t) (hissOf g) (crackleOf g' e))))) := by
  cases hlp : isFinite (fmul lp G_SOFT) with
  | false =>
    have hsoft := isNaN_softClip_of_not_isFinite hlp
    have hshape : isNaN (shape lp) = true := isNaN_asymClip (isNaN_fmul _ _ (by simp [hsoft]))
    exact outputWord_of_isNaN (isNaN_combine_of_any (.inl hshape))
  | true =>
    cases ht : isFinite (fmul W_R2 t) with
    | false =>
      have hrumble : isNaN (rumble t) = true := isNaN_fadd _ _ (by simp [isNaN_fmul_sinF A_R2 ht])
      exact outputWord_of_isNaN (isNaN_combine_of_any (.inr (.inl hrumble)))
    | true =>
      obtain ⟨_, _, _, _, _, hsum⟩ := hissCrackleAndSumRanges
      obtain ⟨hfin, hlow, hhigh⟩ := hsum lp t e g g' hlp ht he
      exact outputWord_of_bounds hfin hlow hhigh

/-- The decayed envelope of the sample is at most `D_CRK`. -/
theorem exists_outputWord_processSample {s : State} (x : F32) (h : s.env.toNat ≤ oneBits) :
    ∃ w, outputWord w ∧ (s.processSample x).outq = s.outq ++ [w] := by
  obtain ⟨biased, hp, lp, env, y, -, -, -, rfl, rfl, hs⟩ := State.processSample_eq x s
  have henv := (toNat_decayedEnv_le (toNat_triggeredEnv_le (lcgNext (lcgNext s.rng)) h)).2
  exact ⟨_, outputWord_combine lp _ _ _ henv, by rw [hs]⟩

/-! ### Every step keeps the range of the emitted words (R142) -/

/-- An accept step emits nothing, or the word of a processed sample. -/
theorem AcceptEffect.keeps_outputWord {s t : State} (h : AcceptEffect s t) (henv : envInv s)
    (hs : ∀ w ∈ emitted s, outputWord w) : ∀ w ∈ emitted t, outputWord w := by
  cases h with
  | idle | held | ignored | fault | closed => exact hs
  | opened => simpa [emitted] using hs
  | processed x _ _ hm =>
    obtain ⟨v, hv, hq⟩ := exists_outputWord_processSample x (henv hm)
    have happend : emitted (s.processSample x).accept = emitted s ++ [v] := by
      rw [emitted, State.accept_outq, hq, emitted, List.append_assoc]
      rfl
    intro w hw
    rw [happend, List.mem_append, List.mem_singleton] at hw
    rcases hw with hw | rfl
    · exact hs w hw
    · exact hv

/-- Settles O33: a processed `SAMPLE` emits a word of the range, no other effect emits one, and a reset only empties
`OUTQ`. -/
theorem everyEmittedWordIsInRange : Obligations.EveryEmittedWordIsInRange := by
  intro s t henv hs hstep
  rcases step_effect hstep with ⟨ts, h⟩ | h | ⟨_, a, rfl⟩
  · exact h.keeps_outputWord henv hs
  · rw [h.emitted_eq]
    exact hs
  · intro w hw
    rw [emitted, State.resetEvent_outq, List.append_nil] at hw
    exact hs w (List.mem_append_left _ hw)

end Sys2Proof.Machine
end

section
/-! The proofs of the statements about the exceptions (60_exceptions.md): the check order as what an accept step does
(R157), the fault taken (R152, R155, R156), HALTED (R160), a reset beside a command (R158), and several instances
(R166). -/

namespace Sys2Proof.Machine
open Sys2Proof.Safety

/-! ### The commands that pass the checks (R157) -/

theorem checkOrder_nop (s : State) (opnd : BitVec 32) : checkOrder s (encode (.nop opnd)) = none := by
  simp [checkOrder, encode]

theorem checkOrder_begin_idle {s : State} (sr : F32) (h : s.mode = .idle) :
    checkOrder s (encode (.beginCall sr)) = none := by
  simp [checkOrder, encode, h]

theorem checkOrder_sample_degenerate {s : State} (x : F32) (h : s.mode = .degenerate) :
    checkOrder s (encode (.sample x)) = none := by
  simp [checkOrder, encode, h]

theorem checkOrder_end_open {s : State} (h : s.mode ≠ .idle) : checkOrder s (encode .endCall) = none := by
  simp [checkOrder, encode, h]

/-- A word that passes the checks is a command's. -/
theorem exists_encode_of_checkOrder_none {s : State} {w : CmdWord} (h : checkOrder s w = none) :
    ∃ i, w = encode i := by
  rcases decode_cases w with ⟨hc, _⟩ | ⟨hc, hr, _⟩ | ⟨i, hw, _⟩
  · simp [checkOrder_illegalOpcode s hc] at h
  · simp [checkOrder_reservedBits s hc hr] at h
  · exact ⟨i, hw⟩

/-- The word that is held is a `SAMPLE`'s, below the largest index. -/
theorem exists_sample_of_holds {s : State} {w : CmdWord} (hh : holds s w) (h : checkOrder s w = none) :
    ∃ x, w = encode (.sample x) ∧ s.idx ≠ IDX_MAX := by
  obtain ⟨hopc, hm, _⟩ := hh
  obtain ⟨i, rfl⟩ := exists_encode_of_checkOrder_none h
  cases i with
  | nop | beginCall | endCall => simp [encode] at hopc
  | sample x =>
    refine ⟨x, rfl, fun hi => ?_⟩
    simp [checkOrder_sample_overflow x hm hi] at h

/-! ### The accept step by the check order (R157) -/

/-- A command that fails a check takes that check's fault. -/
theorem exec_of_checkOrder {i : Instr} {s : State} {c : Cause} (hm : s.mode ≠ .halted)
    (h : checkOrder s (encode i) = some c) : exec i s = .next (s.takeFault c) := by
  cases i with
  | nop opnd => simp [checkOrder_nop] at h
  | beginCall sr =>
    rcases exec_begin_cases sr s with ⟨hh, _⟩ | ⟨hi, _⟩ | ⟨ho, he⟩
    · exact absurd hh hm
    · simp [checkOrder_begin_idle sr hi] at h
    · have hi : s.mode ≠ .idle := by rcases ho with ho | ho <;> simp [ho]
      obtain rfl := Option.some.inj ((checkOrder_begin_open sr hi).symm.trans h)
      exact he
  | sample x =>
    rcases exec_sample_cases x s with ⟨hd, _⟩ | ⟨hi, he⟩ | ⟨ha, hi, he⟩ | ⟨ha, hi, _⟩ | ⟨ha, hi, _⟩
    · simp [checkOrder_sample_degenerate x (hd.resolve_left hm)] at h
    · obtain rfl := Option.some.inj ((checkOrder_sample_idle x hi).symm.trans h)
      exact he
    · obtain rfl := Option.some.inj ((checkOrder_sample_overflow x ha hi).symm.trans h)
      exact he
    · simp [checkOrder_sample_none x ha hi] at h
    · simp [checkOrder_sample_none x ha hi] at h
  | endCall =>
    by_cases hi : s.mode = .idle
    · obtain rfl := Option.some.inj ((checkOrder_end_idle hi).symm.trans h)
      exact exec_end_idle hi
    · simp [checkOrder_end_open hi] at h

/-- The word at the head of the port is no command's and rejected for the fault it raises, or its command runs. -/
theorem acceptStep_word_cases {s : State} {w : CmdWord} {rest : List CmdWord} (hp : s.port = w :: rest) :
    (∃ c, checkOrder s w = some c ∧ acceptStep s = .next (s.rejectWord c)) ∨
      ∃ i, w = encode i ∧ acceptStep s = exec i s := by
  rcases decode_cases w with ⟨hc, hd⟩ | ⟨hc, hr, hd⟩ | ⟨i, hw, hd⟩
  · exact .inl ⟨_, checkOrder_illegalOpcode s hc, by simp [acceptStep, State.fetch, hp, hd]⟩
  · exact .inl ⟨_, checkOrder_reservedBits s hc hr, by simp [acceptStep, State.fetch, hp, hd]⟩
  · exact .inr ⟨i, hw, acceptStep_command hp hd⟩

theorem acceptStep_of_checkOrder {s : State} {w : CmdWord} {rest : List CmdWord} {c : Cause} (hp : s.port = w :: rest)
    (hm : s.mode ≠ .halted) (h : checkOrder s w = some c) : acceptStep s = .next (s.takeFault c) := by
  rcases acceptStep_word_cases hp with ⟨c', hc, he⟩ | ⟨i, rfl, he⟩
  · obtain rfl := Option.some.inj (hc.symm.trans h)
    rw [he, State.rejectWord, if_neg hm]
  · rw [he, exec_of_checkOrder hm h]

theorem acceptStep_halted {s : State} {w : CmdWord} {rest : List CmdWord} (hp : s.port = w :: rest)
    (hm : s.mode = .halted) : acceptStep s = .next s.accept := by
  rcases acceptStep_word_cases hp with ⟨c, _, he⟩ | ⟨i, _, he⟩
  · rw [he, State.rejectWord, if_pos hm]
  · rw [he, exec_halted i hm]

/-- The fault taken, field by field (R152). -/
theorem takeFault_eq_of_port {s : State} {w : CmdWord} {rest : List CmdWord} (c : Cause) (hp : s.port = w :: rest) :
    s.takeFault c = { s with
      port := rest, mode := .halted, cause := if s.cause = 0#8 then c.code else s.cause } := by
  simp [State.takeFault, State.raise, State.accept, hp]

theorem accept_eq_of_port {s : State} {w : CmdWord} {rest : List CmdWord} (hp : s.port = w :: rest) :
    s.accept = { s with port := rest } := by
  simp [State.accept, hp]

/-- Settles O9: in the block's turn the step is the accept step, whose outcome the check order decides; a word that
passes the checks stays on the port only when it is held. -/
theorem wordsAreCheckedInOrder : Obligations.WordsAreCheckedInOrder := by
  intro s w rest hb hp
  have hp' : State.port { s with turns := s.turns.tail } = w :: rest := hp
  rw [step_of_blockTurn hb]
  refine ⟨fun hm => ?_, fun hm c hc => ?_, fun hm hc hh => ?_, fun hm hc hh => ?_⟩
  · rw [acceptStep_halted hp' hm, accept_eq_of_port hp']
  · rw [acceptStep_of_checkOrder hp' hm hc, takeFault_eq_of_port c hp']
  · obtain ⟨x, rfl, hi⟩ := exists_sample_of_holds hh hc
    obtain ⟨_, ha, hf⟩ := hh
    exact acceptStep_held hp' ha hi hf
  · obtain ⟨i, rfl⟩ := exists_encode_of_checkOrder_none hc
    obtain ⟨t, ht⟩ := acceptStep_next { s with turns := s.turns.tail }
    have hexec := (acceptStep_command hp' (decode_encode i)).symm.trans ht
    exact ⟨i, t, rfl, hexec, ht, (acceptStep_port hp' ht).resolve_right fun h => hh h.1⟩

/-! ### The fault taken (R152, R155, R156) -/

/-- Settles O10: the step takes the fault, which leaves `OUTQ`, so an output read finds its head. -/
theorem faultRecordsFirstCauseAndHalts : Obligations.FaultRecordsFirstCauseAndHalts := by
  intro s w rest c hs hp hm hc
  refine ⟨s.takeFault c, ?_, takeFault_eq_of_port c hp, fun v q ts hq => step_of_turns_readOut rfl hq⟩
  rw [step_of_turns_nil hs, acceptStep_of_checkOrder hp hm hc]

/-- Settles O11: each command in the mode that excludes it takes its fault. -/
theorem modeFaults : Obligations.ModeFaults :=
  ⟨fun _ x => exec_sample_idle x, fun _ => exec_end_idle, fun _ sr => exec_begin_open sr⟩

/-- Settles O12: the index is checked before the hold, and in an active call only. -/
theorem indexOverflowFaults : Obligations.IndexOverflowFaults :=
  fun _ x hi => ⟨fun hm => exec_sample_overflow x hm (eq_IDX_MAX_iff.mpr hi), exec_sample_degenerate x⟩

/-! ### HALTED and the reset (R158, R160) -/

/-- In HALTED an accept step does nothing but accept a word. -/
theorem AcceptEffect.eq_of_halted {s t : State} (h : AcceptEffect s t) (hm : s.mode = .halted) :
    t = s ∨ t = s.accept := by
  cases h with
  | idle => exact .inl rfl
  | ignored => exact .inr rfl
  | fault _ _ _ _ hne => exact absurd hm hne
  | opened _ _ _ ho | held _ _ _ ho | processed _ _ _ ho | closed _ _ ho => simp [hm] at ho

/-- Settles O13: an accept step in HALTED accepts a word at most, and no turn of the host but a reset touches a
register. -/
theorem onlyResetLeavesHalted : Obligations.OnlyResetLeavesHalted := by
  intro s t hm hr hstep
  rcases step_effect_of_not_resetTurn hstep hr with ⟨ts, h⟩ | h
  · rcases h.eq_of_halted hm with rfl | rfl <;> exact ⟨rfl, rfl⟩
  · exact ⟨h.frame, h.emitted_eq⟩

/-- Settles O19: the reset event empties the port and does not look at the word that arrives with it. -/
theorem resetHasPriorityOverACommand : Obligations.ResetHasPriorityOverACommand := by
  intro s ts w ht
  exact ⟨_, step_of_turns_reset ht, rfl, rfl, rfl, List.not_mem_nil,
    step_of_turns_reset (a := none) rfl, _, step_of_turns_offer rfl, by simp⟩

/-! ### Several instances (R166) -/

/-- Where `f` is the step of one block, a step of instance `k` is `f` at position `k`. -/
theorem stepInstance_eq_modify {f : State → State} (hf : ∀ s, step s = .next (f s)) (k : Nat) (sys : List State) :
    stepInstance k sys = .next (sys.modify k f) := by
  rw [List.modify_eq_set_getElem?]
  cases h : sys[k]? <;> simp [stepInstance, h, hf]

/-- Settles O59: as every step answers a next state, instances are stepped by `List.modify`, which acts on one position
and commutes with itself at another. -/
theorem instancesAreIndependent : Obligations.InstancesAreIndependent := by
  choose f hf using everyStepAnswersANextState
  refine ⟨fun k j sys sys' hkj h => ?_, fun k j sys a b ab hkj ha hb hab => ?_⟩
  · rw [stepInstance_eq_modify hf] at h
    cases h
    exact ⟨List.length_modify .., List.getElem?_modify_ne _ _ hkj⟩
  · rw [stepInstance_eq_modify hf] at ha hb hab ⊢
    cases ha
    cases hb
    cases hab
    rw [List.modify_modify_ne f f sys hkj]

end Sys2Proof.Machine
end

section
/-! The reset event (70_reset_and_hazards.md R180): `STATUS` after it, and what it sets and keeps from every state. -/

namespace Sys2Proof.Machine

/-- R26, R180: with `MODE` IDLE and `CAUSE` 0 every bit of `STATUS` is 0. -/
theorem State.status_of_idle {s : State} (hm : s.mode = .idle) (hc : s.cause = 0#8) : s.status = 0x00000000#32 := by
  rw [State.status, hm, hc]
  rfl

@[simp] theorem State.resetEvent_status (s : State) (a : Option CmdWord) : (s.resetEvent a).status = 0x00000000#32 :=
  State.status_of_idle (s.resetEvent_mode a) (s.resetEvent_cause a)

/-- Settles O18: the step at a reset turn is the reset event, whatever the state. -/
theorem resetEventClearsTheProtocolState : Obligations.ResetEventClearsTheProtocolState := by
  intro s ts a ht
  exact ⟨_, step_of_turns_reset ht, State.resetEvent_mode _ a, State.resetEvent_cause _ a, State.resetEvent_status _ a,
    State.resetEvent_outq _ a, State.resetEvent_rxBytes _ a, State.resetEvent_port _ a, State.resetEvent_turns _ a,
    State.resetEvent_hostWords _ a, State.resetEvent_hostStatus _ a⟩

end Sys2Proof.Machine
end
